-- ==== Sys2Proof/Word.lean ====
section
/-! DEFINITION. The two word types of the machine (00_scope.md rules R7, R9): an 8-bit value (an intensity, a
stream character, the shift register) and a 4-bit value (a hexadecimal character of a row). -/

namespace Sys2Proof

/-- 8 bits: IW of rule R7, and the width of `tok_data`. -/
abbrev Byte := BitVec 8

/-- 4 bits: NIBW of rule R7. -/
abbrev Nibble := BitVec 4

end Sys2Proof
end

