-- ==== Sys2Proof/Config.lean ====
section
/-! DEFINITION. What an implementation fixes and the spec leaves open, and the free values.

MAXW and MAXH (00_scope.md rule R8) are arguments of the model: they stand in `State.params`, since every step
takes the state. The constants here have no body: nothing can be proved of their values. -/

namespace Sys2Proof.Config

/-- Which edge of `clk` the block uses. -/
inductive ClkEdge where
  | rising
  | falling
  deriving DecidableEq, Repr, Inhabited

/-- CLK_EDGE of decision D3 (92_eei_decisions.md): open, and no rule depends on it (log entry 7). -/
opaque clkEdge : ClkEdge

/-- RST_ACTIVE_LEVEL of decision D3: open. The model's `rst` says "asserted", whatever the level (log entry 7). -/
opaque rstActiveLevel : Bool

/-- RST_SYNC of decision D3: open, and no rule depends on it (log entry 7). -/
opaque rstSync : Bool

/-- The value that a register of `w` bits holds after a RESET that does not write it and leaves it unspecified
(70_reset_and_hazards.md rules R250, R251), for the `n`-th such draw of the run (log entry 5). -/
opaque freeBits : (w n : Nat) → BitVec w

end Sys2Proof.Config
end

