-- ==== Sys2Proof/Syntax.lean ====
section
/-! DEFINITION. The instruction type: one constructor for every row of spec/opcode_table.json, and the
token classes of 30_encoding.md rule R91 with the value each character carries. -/

namespace Sys2Proof

/-- One constructor per row of spec/opcode_table.json: the 58 stream characters (30_encoding.md rule R91,
read by the reference reader, 44_token_stream.md rules R201 to R207) and the pixel beat (rule R103, taken by
the micro-operation SAMP, 40_thresholder.md rule R122). A stream character has no operand (rule R99); the
pixel beat carries its intensity. -/
inductive Instr where
  /-- `HEX.0`: the character `0`, R201. -/
  | hex0
  /-- `HEX.1`: the character `1`, R201. -/
  | hex1
  /-- `HEX.2`: the character `2`, R201. -/
  | hex2
  /-- `HEX.3`: the character `3`, R201. -/
  | hex3
  /-- `HEX.4`: the character `4`, R201. -/
  | hex4
  /-- `HEX.5`: the character `5`, R201. -/
  | hex5
  /-- `HEX.6`: the character `6`, R201. -/
  | hex6
  /-- `HEX.7`: the character `7`, R201. -/
  | hex7
  /-- `HEX.8`: the character `8`, R201. -/
  | hex8
  /-- `HEX.9`: the character `9`, R201. -/
  | hex9
  /-- `HEX.A`: the character `A`, R201. -/
  | hexA
  /-- `HEX.B`: the character `B`, R201. -/
  | hexB
  /-- `HEX.C`: the character `C`, R201. -/
  | hexC
  /-- `HEX.D`: the character `D`, R201. -/
  | hexD
  /-- `HEX.E`: the character `E`, R201. -/
  | hexE
  /-- `HEX.F`: the character `F`, R201. -/
  | hexF
  /-- `CNT1.1`: the character `G`, R202. -/
  | cnt1_1
  /-- `CNT1.2`: the character `H`, R202. -/
  | cnt1_2
  /-- `CNT1.3`: the character `I`, R202. -/
  | cnt1_3
  /-- `CNT1.4`: the character `J`, R202. -/
  | cnt1_4
  /-- `CNT1.5`: the character `K`, R202. -/
  | cnt1_5
  /-- `CNT1.6`: the character `L`, R202. -/
  | cnt1_6
  /-- `CNT1.7`: the character `M`, R202. -/
  | cnt1_7
  /-- `CNT1.8`: the character `N`, R202. -/
  | cnt1_8
  /-- `CNT1.9`: the character `O`, R202. -/
  | cnt1_9
  /-- `CNT1.10`: the character `P`, R202. -/
  | cnt1_10
  /-- `CNT1.11`: the character `Q`, R202. -/
  | cnt1_11
  /-- `CNT1.12`: the character `R`, R202. -/
  | cnt1_12
  /-- `CNT1.13`: the character `S`, R202. -/
  | cnt1_13
  /-- `CNT1.14`: the character `T`, R202. -/
  | cnt1_14
  /-- `CNT1.15`: the character `U`, R202. -/
  | cnt1_15
  /-- `CNT1.16`: the character `V`, R202. -/
  | cnt1_16
  /-- `CNT1.17`: the character `W`, R202. -/
  | cnt1_17
  /-- `CNT1.18`: the character `X`, R202. -/
  | cnt1_18
  /-- `CNT1.19`: the character `Y`, R202. -/
  | cnt1_19
  /-- `CNT20.1`: the character `g`, R203. -/
  | cnt20_1
  /-- `CNT20.2`: the character `h`, R203. -/
  | cnt20_2
  /-- `CNT20.3`: the character `i`, R203. -/
  | cnt20_3
  /-- `CNT20.4`: the character `j`, R203. -/
  | cnt20_4
  /-- `CNT20.5`: the character `k`, R203. -/
  | cnt20_5
  /-- `CNT20.6`: the character `l`, R203. -/
  | cnt20_6
  /-- `CNT20.7`: the character `m`, R203. -/
  | cnt20_7
  /-- `CNT20.8`: the character `n`, R203. -/
  | cnt20_8
  /-- `CNT20.9`: the character `o`, R203. -/
  | cnt20_9
  /-- `CNT20.10`: the character `p`, R203. -/
  | cnt20_10
  /-- `CNT20.11`: the character `q`, R203. -/
  | cnt20_11
  /-- `CNT20.12`: the character `r`, R203. -/
  | cnt20_12
  /-- `CNT20.13`: the character `s`, R203. -/
  | cnt20_13
  /-- `CNT20.14`: the character `t`, R203. -/
  | cnt20_14
  /-- `CNT20.15`: the character `u`, R203. -/
  | cnt20_15
  /-- `CNT20.16`: the character `v`, R203. -/
  | cnt20_16
  /-- `CNT20.17`: the character `w`, R203. -/
  | cnt20_17
  /-- `CNT20.18`: the character `x`, R203. -/
  | cnt20_18
  /-- `CNT20.19`: the character `y`, R203. -/
  | cnt20_19
  /-- `CNT400`: the character `z`, R204. -/
  | cnt400
  /-- `FILL0`: the character `,`, R205. -/
  | fill0
  /-- `FILLF`: the character `!`, R206. -/
  | fillF
  /-- `ROWREP`: the character `:`, R207. -/
  | rowrep
  /-- `PIX`: a pixel beat with intensity `i`, R122. -/
  | pix (i : Byte)
  deriving DecidableEq, Repr

/-- Which class of count character came last in the pending count prefix (30_encoding.md rule R98:
`count := CNT400* CNT20? CNT1?`). -/
inductive CountStage where
  /-- no count character since the last HEX character -/
  | start
  /-- the last one was a `z` -/
  | fourHundreds
  /-- the last one was one of `g`..`y` -/
  | twenties
  /-- the last one was one of `G`..`Y` -/
  | ones
  deriving DecidableEq, Repr

/-- Whether a count character of class `c` may follow a prefix that stands at `p` in the canonical order of
30_encoding.md rules R98 and R106 items (b) and (c). -/
def CountStage.allows (p c : CountStage) : Bool :=
  match c with
  | .start => false
  | .fourHundreds => p == .start || p == .fourHundreds
  | .twenties => p == .start || p == .fourHundreds
  | .ones => p != .ones

/-- The token classes of 30_encoding.md rule R91, each with the value its characters carry. -/
inductive TokenKind where
  /-- HEX: one hexadecimal character of value `d` -/
  | hex (d : Nibble)
  /-- CNT400, CNT20 or CNT1: adds `v` to the count -/
  | count (c : CountStage) (v : Nat)
  /-- FILL0 or FILLF: the rest of the row is `d` -/
  | fill (d : Nibble)
  /-- ROWREP: the row equals the previous row -/
  | rep
  /-- not a stream character: the pixel beat -/
  | beat
  deriving DecidableEq, Repr

/-- The class and value of an instruction (30_encoding.md rules R91 to R97). -/
def Instr.kind : Instr → TokenKind
  | .hex0 => .hex 0x0
  | .hex1 => .hex 0x1
  | .hex2 => .hex 0x2
  | .hex3 => .hex 0x3
  | .hex4 => .hex 0x4
  | .hex5 => .hex 0x5
  | .hex6 => .hex 0x6
  | .hex7 => .hex 0x7
  | .hex8 => .hex 0x8
  | .hex9 => .hex 0x9
  | .hexA => .hex 0xA
  | .hexB => .hex 0xB
  | .hexC => .hex 0xC
  | .hexD => .hex 0xD
  | .hexE => .hex 0xE
  | .hexF => .hex 0xF
  | .cnt1_1 => .count .ones 1
  | .cnt1_2 => .count .ones 2
  | .cnt1_3 => .count .ones 3
  | .cnt1_4 => .count .ones 4
  | .cnt1_5 => .count .ones 5
  | .cnt1_6 => .count .ones 6
  | .cnt1_7 => .count .ones 7
  | .cnt1_8 => .count .ones 8
  | .cnt1_9 => .count .ones 9
  | .cnt1_10 => .count .ones 10
  | .cnt1_11 => .count .ones 11
  | .cnt1_12 => .count .ones 12
  | .cnt1_13 => .count .ones 13
  | .cnt1_14 => .count .ones 14
  | .cnt1_15 => .count .ones 15
  | .cnt1_16 => .count .ones 16
  | .cnt1_17 => .count .ones 17
  | .cnt1_18 => .count .ones 18
  | .cnt1_19 => .count .ones 19
  | .cnt20_1 => .count .twenties 20
  | .cnt20_2 => .count .twenties 40
  | .cnt20_3 => .count .twenties 60
  | .cnt20_4 => .count .twenties 80
  | .cnt20_5 => .count .twenties 100
  | .cnt20_6 => .count .twenties 120
  | .cnt20_7 => .count .twenties 140
  | .cnt20_8 => .count .twenties 160
  | .cnt20_9 => .count .twenties 180
  | .cnt20_10 => .count .twenties 200
  | .cnt20_11 => .count .twenties 220
  | .cnt20_12 => .count .twenties 240
  | .cnt20_13 => .count .twenties 260
  | .cnt20_14 => .count .twenties 280
  | .cnt20_15 => .count .twenties 300
  | .cnt20_16 => .count .twenties 320
  | .cnt20_17 => .count .twenties 340
  | .cnt20_18 => .count .twenties 360
  | .cnt20_19 => .count .twenties 380
  | .cnt400 => .count .fourHundreds 400
  | .fill0 => .fill 0x0
  | .fillF => .fill 0xF
  | .rowrep => .rep
  | .pix _ => .beat

end Sys2Proof
end

