-- ==== Sys2Proof/Decode.lean ====
section
/-! DEFINITION. Decoding and encoding (30_encoding.md rules R90 to R99, R103, R105; spec/opcode_table.json).

A word stands on one of two ports: a stream character on the token port, an intensity on the pixel port. The
pixel beat has no fixed bits (rule R103), so the port is part of what is decoded. -/

namespace Sys2Proof

/-- The two ports that carry the words of spec/opcode_table.json (20_memory.md rule R64). -/
inductive Port where
  /-- a character of the token stream (`tok_data`), as its reader receives it -/
  | token
  /-- an intensity (`pix_data`) -/
  | pixel
  deriving DecidableEq, Repr

/-- One 8-bit word on a port. Every instruction is one such word (rule R90). -/
structure PortWord where
  port : Port
  code : Byte
  deriving DecidableEq, Repr

/-- Why a word is no instruction. -/
inductive DecodeError where
  /-- a token-port code outside the 58-character alphabet (rule R105) -/
  | outsideAlphabet (code : Byte)
  deriving DecidableEq, Repr

/-- One row of the opcode table that fixes all eight bits (rule R99: `mask` = 0xFF). -/
structure TableRow where
  code : Byte
  instr : Instr
  deriving DecidableEq, Repr

/-- The HEX characters (rule R92). -/
def hexRows : List TableRow :=
  [ ⟨0x30, .hex0⟩,
    ⟨0x31, .hex1⟩,
    ⟨0x32, .hex2⟩,
    ⟨0x33, .hex3⟩,
    ⟨0x34, .hex4⟩,
    ⟨0x35, .hex5⟩,
    ⟨0x36, .hex6⟩,
    ⟨0x37, .hex7⟩,
    ⟨0x38, .hex8⟩,
    ⟨0x39, .hex9⟩,
    ⟨0x41, .hexA⟩,
    ⟨0x42, .hexB⟩,
    ⟨0x43, .hexC⟩,
    ⟨0x44, .hexD⟩,
    ⟨0x45, .hexE⟩,
    ⟨0x46, .hexF⟩ ]

/-- The CNT1 characters `G`..`Y` (rule R95). -/
def cnt1Rows : List TableRow :=
  [ ⟨0x47, .cnt1_1⟩,
    ⟨0x48, .cnt1_2⟩,
    ⟨0x49, .cnt1_3⟩,
    ⟨0x4A, .cnt1_4⟩,
    ⟨0x4B, .cnt1_5⟩,
    ⟨0x4C, .cnt1_6⟩,
    ⟨0x4D, .cnt1_7⟩,
    ⟨0x4E, .cnt1_8⟩,
    ⟨0x4F, .cnt1_9⟩,
    ⟨0x50, .cnt1_10⟩,
    ⟨0x51, .cnt1_11⟩,
    ⟨0x52, .cnt1_12⟩,
    ⟨0x53, .cnt1_13⟩,
    ⟨0x54, .cnt1_14⟩,
    ⟨0x55, .cnt1_15⟩,
    ⟨0x56, .cnt1_16⟩,
    ⟨0x57, .cnt1_17⟩,
    ⟨0x58, .cnt1_18⟩,
    ⟨0x59, .cnt1_19⟩ ]

/-- The CNT20 characters `g`..`y` (rule R96). -/
def cnt20Rows : List TableRow :=
  [ ⟨0x67, .cnt20_1⟩,
    ⟨0x68, .cnt20_2⟩,
    ⟨0x69, .cnt20_3⟩,
    ⟨0x6A, .cnt20_4⟩,
    ⟨0x6B, .cnt20_5⟩,
    ⟨0x6C, .cnt20_6⟩,
    ⟨0x6D, .cnt20_7⟩,
    ⟨0x6E, .cnt20_8⟩,
    ⟨0x6F, .cnt20_9⟩,
    ⟨0x70, .cnt20_10⟩,
    ⟨0x71, .cnt20_11⟩,
    ⟨0x72, .cnt20_12⟩,
    ⟨0x73, .cnt20_13⟩,
    ⟨0x74, .cnt20_14⟩,
    ⟨0x75, .cnt20_15⟩,
    ⟨0x76, .cnt20_16⟩,
    ⟨0x77, .cnt20_17⟩,
    ⟨0x78, .cnt20_18⟩,
    ⟨0x79, .cnt20_19⟩ ]

/-- `z`, `,`, `!` and `:` (rules R97, R94, R93). -/
def markRows : List TableRow :=
  [ ⟨0x7A, .cnt400⟩,
    ⟨0x2C, .fill0⟩,
    ⟨0x21, .fillF⟩,
    ⟨0x3A, .rowrep⟩ ]

/-- The 58 characters of the stream (rule R91). -/
def tokenTable : List TableRow := hexRows ++ cnt1Rows ++ cnt20Rows ++ markRows

/-- A stream character: the row of the table with that code; any other code is outside the alphabet
(rules R99 and R105). -/
def decodeToken (c : Byte) : Except DecodeError Instr :=
  match tokenTable.find? (fun r => r.code == c) with
  | some r => .ok r.instr
  | none => .error (.outsideAlphabet c)

/-- A pixel beat: every 8-bit value is an intensity (rule R103). -/
def decodePixel (c : Byte) : Instr := .pix c

/-- The instruction a word on a port stands for, or why it stands for none. -/
def decode (w : PortWord) : Except DecodeError Instr :=
  match w.port with
  | .token => decodeToken w.code
  | .pixel => .ok (decodePixel w.code)

/-- The word of an instruction, from the tables of rules R92 to R97 and R103. -/
def encode : Instr → PortWord
  | .hex0 => ⟨.token, 0x30⟩
  | .hex1 => ⟨.token, 0x31⟩
  | .hex2 => ⟨.token, 0x32⟩
  | .hex3 => ⟨.token, 0x33⟩
  | .hex4 => ⟨.token, 0x34⟩
  | .hex5 => ⟨.token, 0x35⟩
  | .hex6 => ⟨.token, 0x36⟩
  | .hex7 => ⟨.token, 0x37⟩
  | .hex8 => ⟨.token, 0x38⟩
  | .hex9 => ⟨.token, 0x39⟩
  | .hexA => ⟨.token, 0x41⟩
  | .hexB => ⟨.token, 0x42⟩
  | .hexC => ⟨.token, 0x43⟩
  | .hexD => ⟨.token, 0x44⟩
  | .hexE => ⟨.token, 0x45⟩
  | .hexF => ⟨.token, 0x46⟩
  | .cnt1_1 => ⟨.token, 0x47⟩
  | .cnt1_2 => ⟨.token, 0x48⟩
  | .cnt1_3 => ⟨.token, 0x49⟩
  | .cnt1_4 => ⟨.token, 0x4A⟩
  | .cnt1_5 => ⟨.token, 0x4B⟩
  | .cnt1_6 => ⟨.token, 0x4C⟩
  | .cnt1_7 => ⟨.token, 0x4D⟩
  | .cnt1_8 => ⟨.token, 0x4E⟩
  | .cnt1_9 => ⟨.token, 0x4F⟩
  | .cnt1_10 => ⟨.token, 0x50⟩
  | .cnt1_11 => ⟨.token, 0x51⟩
  | .cnt1_12 => ⟨.token, 0x52⟩
  | .cnt1_13 => ⟨.token, 0x53⟩
  | .cnt1_14 => ⟨.token, 0x54⟩
  | .cnt1_15 => ⟨.token, 0x55⟩
  | .cnt1_16 => ⟨.token, 0x56⟩
  | .cnt1_17 => ⟨.token, 0x57⟩
  | .cnt1_18 => ⟨.token, 0x58⟩
  | .cnt1_19 => ⟨.token, 0x59⟩
  | .cnt20_1 => ⟨.token, 0x67⟩
  | .cnt20_2 => ⟨.token, 0x68⟩
  | .cnt20_3 => ⟨.token, 0x69⟩
  | .cnt20_4 => ⟨.token, 0x6A⟩
  | .cnt20_5 => ⟨.token, 0x6B⟩
  | .cnt20_6 => ⟨.token, 0x6C⟩
  | .cnt20_7 => ⟨.token, 0x6D⟩
  | .cnt20_8 => ⟨.token, 0x6E⟩
  | .cnt20_9 => ⟨.token, 0x6F⟩
  | .cnt20_10 => ⟨.token, 0x70⟩
  | .cnt20_11 => ⟨.token, 0x71⟩
  | .cnt20_12 => ⟨.token, 0x72⟩
  | .cnt20_13 => ⟨.token, 0x73⟩
  | .cnt20_14 => ⟨.token, 0x74⟩
  | .cnt20_15 => ⟨.token, 0x75⟩
  | .cnt20_16 => ⟨.token, 0x76⟩
  | .cnt20_17 => ⟨.token, 0x77⟩
  | .cnt20_18 => ⟨.token, 0x78⟩
  | .cnt20_19 => ⟨.token, 0x79⟩
  | .cnt400 => ⟨.token, 0x7A⟩
  | .fill0 => ⟨.token, 0x2C⟩
  | .fillF => ⟨.token, 0x21⟩
  | .rowrep => ⟨.token, 0x3A⟩
  | .pix i => ⟨.pixel, i⟩

/-- The first byte of a word of `nbits` bits, its other bits zero. -/
def tableByte (nbits w : Nat) : Byte := BitVec.ofNat 8 (w % 2 ^ nbits)

/-- The instruction of a word of spec/opcode_table.json taken without its port: a code that a row of the
table fixes is that row's character; every other code can only be a pixel beat, the one row that fixes no
bit. DESIGN CHOICE (log entry 12). -/
def decodeTableWord (nbits w : Nat) : Option Instr :=
  match decodeToken (tableByte nbits w) with
  | .ok i => some i
  | .error _ => some (decodePixel (tableByte nbits w))

end Sys2Proof
end

