-- ==== Sys2Proof/Machine/State.lean ====
section
/-! DEFINITION. The state of the machine as plain data: the block ZEB (10_state.md), the reference reader DEC
(44_token_stream.md), the open parameters (00_scope.md rule R8) and the schedule of what the outside world does
next. INVENTORY.md lists every field with its rule and its reset value. -/

namespace Sys2Proof.Machine

/-- The open parameters MAXW and MAXH (00_scope.md rule R8), arguments of the model. No step changes them. -/
structure Params where
  maxW : Nat
  maxH : Nat
  deriving DecidableEq, Repr

/-- PHASE, the state of the sequencer (10_state.md rule R28), by its symbolic values. -/
inductive Phase where
  | idle
  | load
  | scan
  | cnt
  | eor
  | done
  deriving DecidableEq, Repr

/-- TM, the trailing marker (10_state.md rule R41). -/
inductive TrailMark where
  | none
  | zero
  | eff
  deriving DecidableEq, Repr

/-- The sixteen micro-operations (00_scope.md rule R6). They have no encoding (30_encoding.md rule R109). -/
inductive MicroOp where
  | reset
  | start
  | samp
  | pad
  | pack
  | rowrep
  | trail
  | acc
  | lit
  | rle
  | cntz
  | cnt20
  | cnt1
  | repc
  | eol
  | commit
  deriving DecidableEq, Repr

/-- A row buffer (20_memory.md rule R62): the entries that hold a value, by rising index. An entry that is not
listed has no value (93_implementation_defined.md items U2 and U7, log entry 2). -/
abbrev Memory := List (Nat × Nibble)

/-- The operands of START as the schedule writes them, each a number. The command port carries the low WW bits of `w`
and the low HW bits of `h`: `Command.onPort` (30_encoding.md rule R104, log entry 19). -/
structure Command where
  w : Nat
  h : Nat
  deriving DecidableEq, Repr

/-- The input ports in one step of ZEB (20_memory.md rule R64): `cmd` and `pix` are `none` where the port's
`valid` is 0. -/
structure PortIn where
  rst : Bool
  cmd : Option Command
  pix : Option Byte
  tokReady : Bool
  deriving DecidableEq, Repr

/-- The registers, flags and row buffers of ZEB (10_state.md rule R20), and the model's two histories. -/
structure Zeb where
  /-- WIDTH, R21 -/
  width : Nat
  /-- HEIGHT, R22 -/
  height : Nat
  /-- STATUS.ERR, R27 -/
  err : Bool
  /-- PHASE, R28 -/
  phase : Phase
  /-- Y, R29 -/
  y : Nat
  /-- X, R30 -/
  x : Nat
  /-- SR, R31 -/
  sr : Byte
  /-- BC, R32 -/
  bc : Nat
  /-- NI, R33 -/
  ni : Nat
  /-- CUR, R34 -/
  cur : Memory
  /-- PREV, R35 -/
  prev : Memory
  /-- PV, R36 -/
  pv : Bool
  /-- EQ, R37 -/
  eq : Bool
  /-- TS, R38 -/
  ts : Nat
  /-- LN, R39 -/
  ln : Nibble
  /-- TE, R40 -/
  te : Nat
  /-- TM, R41 -/
  tm : TrailMark
  /-- SI, R42 -/
  si : Nat
  /-- RC, R43 -/
  rc : Nibble
  /-- RN, R44 -/
  rn : Nat
  /-- OUT, the model's history of the token port, each character with its `tok_last` (R45) -/
  out : List (Byte × Bool)
  /-- the model's history of the pixel port since the accepted START (log entry 6) -/
  taken : List Byte
  /-- how many free values RESET has drawn (log entry 5) -/
  draws : Nat
  deriving DecidableEq, Repr

/-- Why the reader refuses a stream (44_token_stream.md rule R211). -/
inductive ReadRefusal where
  /-- a character outside the alphabet -/
  | outsideAlphabet (code : Byte)
  /-- a HEX token that would make the row longer than L -/
  | rowOverflow
  /-- a marker or `:` while the pending count is not 0 -/
  | countBeforeMark
  /-- a marker on a row that is already full (only where L = 0, log entry 10) -/
  | fillOnFullRow
  /-- `:` while the row under construction is not empty -/
  | repInsideRow
  /-- `:` as the first row -/
  | repFirst
  /-- the stream ends inside a row -/
  | endInsideRow
  /-- the stream ends with a count pending -/
  | endAfterCount
  /-- the stream ends with the wrong number of rows -/
  | wrongRowCount
  /-- DEC-S: a count of 1 or 2 (30_encoding.md rule R106 item (a)) -/
  | countTooSmall
  /-- DEC-S: a count out of the canonical order (rule R106 items (b) and (c)) -/
  | countOrder
  deriving DecidableEq, Repr

/-- What the reader has concluded. What its other fields hold after a refusal is log entry 20. -/
inductive Verdict where
  /-- no stream has been handed over -/
  | noStream
  /-- reading -/
  | reading
  /-- the stream ended as rule R209 requires: the result is `rows` -/
  | accepted
  /-- the stream was refused (rule R211): there is no result -/
  | refused (why : ReadRefusal)
  deriving DecidableEq, Repr

/-- The state of the reference reader DEC (44_token_stream.md rule R200). -/
structure Reader where
  /-- the characters not yet read, the next one first -/
  stream : List Byte
  byteWidth : Nat
  pixelHeight : Nat
  /-- true for the strict variant DEC-S (rule R211) -/
  strict : Bool
  rows : List (List Nibble)
  cur : List Nibble
  cnt : Nat
  /-- the class of the last count character of the pending count, for DEC-S (log entry 11) -/
  stage : CountStage
  verdict : Verdict
  deriving DecidableEq, Repr

/-- What happens in one step (log entry 8). -/
inductive Event where
  /-- a step of ZEB with these input port values -/
  | zeb (p : PortIn)
  /-- the host hands a stream and its two dimensions to DEC, or to DEC-S -/
  | give (stream : List Byte) (byteWidth pixelHeight : Nat) (strict : Bool)
  /-- a step of the reader -/
  | read
  deriving DecidableEq, Repr

/-- The whole machine. -/
structure State where
  params : Params
  zeb : Zeb
  reader : Reader
  /-- what the outside world does in the steps to come -/
  sched : List Event
  deriving DecidableEq, Repr

/-- The faults of the model. The hardware reports none of them: its one fault, BAD_DIM, is a next state with
ERR = 1 (60_exceptions.md rule R222). -/
inductive Fault where
  /-- PACK, ACC, COMMIT or the test "closed" reads a row-buffer entry that nothing has written since RESET
  (93_implementation_defined.md item U7). Safe: the machine stops where the spec gives no value. -/
  | unwritten
  /-- PACK, ACC or the test "closed" uses a row-buffer index outside 0..ROWLEN-1, an address that does not
  exist (20_memory.md rule R62). Safe: the machine stops where the spec gives no access. -/
  | rowIndex
  deriving DecidableEq, Repr

/-- The refusals of the model. No meaning answers with one. -/
inductive Refusal where
  /-- raised by an arm of `exec` whose instruction has no meaning yet; safe. No arm is so. -/
  | notModelled (mnemonic : String)
  deriving DecidableEq, Repr

/-- ZEB right after reset: PHASE = IDLE, ERR = 0, PV = 0, EQ = 0 (70_reset_and_hazards.md rules R250, R251); no
row-buffer entry has a value; every register the spec leaves unspecified is 0, TM is NONE (DESIGN CHOICE, log
entry 3). -/
def Zeb.reset : Zeb :=
  { width := 0, height := 0, err := false, phase := .idle, y := 0, x := 0, sr := 0, bc := 0, ni := 0,
    cur := [], prev := [], pv := false, eq := false, ts := 0, ln := 0, te := 0, tm := .none, si := 0,
    rc := 0, rn := 0, out := [], taken := [], draws := 0 }

/-- The reader before any stream is handed to it (log entry 9). -/
def Reader.reset : Reader :=
  { stream := [], byteWidth := 0, pixelHeight := 0, strict := false, rows := [], cur := [], cnt := 0,
    stage := .start, verdict := .noStream }

/-- The machine right after reset, with nothing scheduled. MAXW = MAXH = 4096 is a DESIGN CHOICE (log entry 1). -/
def State.reset : State :=
  { params := { maxW := 4096, maxH := 4096 }, zeb := .reset, reader := .reset, sched := [] }

end Sys2Proof.Machine
end

