-- ==== Sys2Proof/Machine/Operands.lean ====
section
/-! DEFINITION. The constants of 00_scope.md rule R7, the derived values, and every operand form of the
micro-operations: a bit from an intensity, the shift register, the nibble mux, a character from a nibble or a
count (30_encoding.md rules R92 to R97, R102). -/

namespace Sys2Proof.Machine

/-- THRESH (R7, R26). -/
def thresh : Nat := 127
/-- U400 (R7). -/
def unit400 : Nat := 400
/-- U20 (R7). -/
def unit20 : Nat := 20
/-- RUNMIN (R7): the least interior run that is counted. -/
def runMin : Nat := 3
/-- BASE1, the character `F` (R7). -/
def base1 : Nat := 0x46
/-- BASE20, the character `f` (R7). -/
def base20 : Nat := 0x66
/-- CH400, the character `z` (R7, R97). -/
def ch400 : Byte := 0x7A
/-- CHREP, the character `:` (R7, R93). -/
def chRep : Byte := 0x3A
/-- CHZ, the character `,` (R7, R94). -/
def chZ : Byte := 0x2C
/-- CHF, the character `!` (R7, R94). -/
def chF : Byte := 0x21

/-- `ceil(a / 8)` (00_scope.md rule R12). -/
def ceil8 (a : Nat) : Nat := (a + 7) / 8

/-- The number of bits needed to hold `n` (00_scope.md rule R8). -/
def bitsFor (n : Nat) : Nat := if n = 0 then 0 else n.log2 + 1

/-- WW (R8). -/
def Params.ww (p : Params) : Nat := bitsFor p.maxW
/-- HW (R8). -/
def Params.hw (p : Params) : Nat := bitsFor p.maxH
/-- What the command port carries (20_memory.md rule R64; 30_encoding.md rule R104): `cmd_w` is an unsigned number of WW
bits, `cmd_h` one of HW bits. A number of the schedule that needs more bits stands for its low bits (log entry 19). -/
def Command.onPort (p : Params) (c : Command) : Command := { w := c.w % 2 ^ p.ww, h := c.h % 2 ^ p.hw }
/-- MAXBW (R8). -/
def Params.maxBW (p : Params) : Nat := ceil8 p.maxW
/-- MAXNIB (R8). -/
def Params.maxNib (p : Params) : Nat := 2 * p.maxBW

/-- BYTEWIDTH and the output `byte_width` (10_state.md rule R23). -/
def Zeb.byteWidth (z : Zeb) : Nat := ceil8 z.width
/-- PIXHEIGHT and the output `pix_height` (R24). -/
def Zeb.pixHeight (z : Zeb) : Nat := z.height
/-- ROWLEN (R25). -/
def Zeb.rowLen (z : Zeb) : Nat := 2 * z.byteWidth
/-- L of the reader (44_token_stream.md rule R200). -/
def Reader.rowLen (r : Reader) : Nat := 2 * r.byteWidth

/-- The threshold function thr (40_thresholder.md rule R120): true is the bit 1. -/
def thr (i : Byte) : Bool := i.toNat < thresh

/-- A shift left by one with `b` entering bit 0: the `SR <- {SR[6:0], b}` of SAMP and PAD (R122, R134). -/
def shiftIn (sr : Byte) (b : Bool) : Byte := (sr <<< 1) ||| (if b then 1 else 0)

/-- The nibble mux of PACK (41_packer.md rule R135): the high nibble when NI is even. -/
def nibbleMux (sr : Byte) (ni : Nat) : Nibble :=
  if ni % 2 = 0 then sr.extractLsb' 4 4 else sr.extractLsb' 0 4

/-- HEXCHAR (30_encoding.md rule R92). -/
def hexChar (v : Nibble) : Byte :=
  if v.toNat ≤ 9 then BitVec.ofNat 8 (0x30 + v.toNat) else BitVec.ofNat 8 (0x37 + v.toNat)

/-- HEXVAL, the inverse of HEXCHAR (R92). -/
def hexVal (c : Byte) : Option Nibble :=
  if 0x30 ≤ c.toNat ∧ c.toNat ≤ 0x39 then some (BitVec.ofNat 4 (c.toNat - 0x30))
  else if 0x41 ≤ c.toNat ∧ c.toNat ≤ 0x46 then some (BitVec.ofNat 4 (c.toNat - 0x37))
  else none

/-- `chr('F' + n)`, the CNT1 character of n in 1..19 (R95). -/
def count1Char (n : Nat) : Byte := BitVec.ofNat 8 (base1 + n)
/-- `chr('f' + q)`, the CNT20 character of q in 1..19 (R96). -/
def count20Char (q : Nat) : Byte := BitVec.ofNat 8 (base20 + q)

/-- The nibble that a trailing marker stands for (10_state.md rules R41, R47 item (f)). -/
def TrailMark.nibble : TrailMark → Option Nibble
  | .none => Option.none
  | .zero => some 0x0
  | .eff => some 0xF

/-- The character that a trailing marker is emitted as (42_compressor.md rule R163). -/
def TrailMark.char : TrailMark → Option Byte
  | .none => Option.none
  | .zero => some chZ
  | .eff => some chF

/-- A value of TM from two free bits, every value possible (log entry 5). -/
def TrailMark.ofBits (b : BitVec 2) : TrailMark :=
  if b = 0 then .none else if b = 1 then .zero else .eff

end Sys2Proof.Machine
end

