-- ==== Sys2Proof/Machine/Ops.lean ====
section
/-! DEFINITION. The named operations over the row buffers and the token port, and the one fault of the hardware.

The fault BAD_DIM (60_exceptions.md rules R222, R226, R227) has no handler, no vector and no saved position: taking
it is `raiseBadDim`, the whole effect of which is ERR <- 1; there is no return from it, and `clearErr` is what an
accepted START does to ERR. -/

namespace Sys2Proof.Machine

/-- Entry `k` of a row buffer, `none` where it has no value. -/
def Memory.read : Memory → Nat → Option Nibble
  | [], _ => none
  | (a, v) :: m, k => if a = k then some v else Memory.read m k

/-- The row buffer with `v` in entry `k`, its indices still rising. -/
def Memory.write : Memory → Nat → Nibble → Memory
  | [], k, v => [(k, v)]
  | (a, u) :: m, k, v =>
    if k < a then (k, v) :: (a, u) :: m
    else if k = a then (k, v) :: m
    else (a, u) :: Memory.write m k v

/-- The canonical form of a row buffer: indices strictly rising. Every listed entry has a value, and an unlisted
one has none, so no entry can equal what an unlisted one reads as. -/
abbrev Memory.wf (m : Memory) : Prop := m.Pairwise (fun a b => a.1 < b.1)

/-- A read of entry `k` of a row of `len` nibbles (20_memory.md rule R62: 0 <= k < ROWLEN). -/
def readRow (len : Nat) (m : Memory) (k : Nat) : Except Fault Nibble :=
  if k < len then
    match m.read k with
    | some v => .ok v
    | none => .error .unwritten
  else .error .rowIndex

/-- A write of entry `k` of a row of `len` nibbles (R62). -/
def writeRow (len : Nat) (m : Memory) (k : Nat) (v : Nibble) : Except Fault Memory :=
  if k < len then .ok (m.write k v) else .error .rowIndex

/-- The first `n` entries of `src` copied into `dst`, the others of `dst` kept (COMMIT, 43_sequencer.md rule R184). -/
def copyRow : Nat → Memory → Memory → Except Fault Memory
  | 0, _, dst => .ok dst
  | n + 1, src, dst =>
    match copyRow n src dst with
    | .error f => .error f
    | .ok d =>
      match src.read n with
      | some v => .ok (d.write n v)
      | none => .error .unwritten

/-- `Emit(c, last)` (20_memory.md rule R63, 10_state.md rule R45): the history grows at its end. `none` emits
nothing. -/
def Zeb.emit (z : Zeb) (e : Option (Byte × Bool)) : Zeb := { z with out := z.out ++ e.toList }

/-- `raise BAD_DIM` (60_exceptions.md rule R222): ERR <- 1 and nothing else. -/
def raiseBadDim (z : Zeb) : Zeb := { z with err := true }

/-- ERR <- 0, by an accepted START (60_exceptions.md rule R227). -/
def clearErr (z : Zeb) : Zeb := { z with err := false }

/-- The free value number `k` of a RESET that has `n` draws before it, as a natural number below 2^w. -/
def freeNat (w n k : Nat) : Nat := (Config.freeBits w (n + k)).toNat

end Sys2Proof.Machine
end

