-- ==== Sys2Proof/Machine/Reader.lean ====
section
/-! DEFINITION. The reference reader DEC and its strict variant DEC-S (44_token_stream.md rules R200 to R211): the
shared operations that the 58 stream characters call. A refusal is a next state with a verdict (rule R211). -/

namespace Sys2Proof.Machine

/-- The reader refuses the stream (R211). What `rows`, `cur`, `cnt` and the unread stream hold afterwards the spec leaves
open; that they stay as they were, with the refused character read, is a DESIGN CHOICE (log entry 20). -/
def Reader.refuse (r : Reader) (why : ReadRefusal) : Reader := { r with verdict := .refused why }

/-- Completing a row (R208). -/
def Reader.complete (r : Reader) (row : List Nibble) : Reader := { r with rows := r.rows ++ [row], cur := [] }

/-- How many copies of a nibble a HEX character stands for (R201). -/
def Reader.copies (r : Reader) : Nat := if 1 ≤ r.cnt then r.cnt else 1

/-- HEX (R201). DEC-S also refuses a count of 1 or 2 (R211; 30_encoding.md rule R106 item (a)). -/
def readHex (d : Nibble) (r : Reader) : Reader :=
  if r.strict ∧ (r.cnt = 1 ∨ r.cnt = 2) then r.refuse .countTooSmall
  else if r.rowLen < r.cur.length + r.copies then r.refuse .rowOverflow
  else if r.cur.length + r.copies = r.rowLen then
    ({ r with cnt := 0, stage := .start }).complete (r.cur ++ List.replicate r.copies d)
  else { r with cnt := 0, stage := .start, cur := r.cur ++ List.replicate r.copies d }

/-- CNT1, CNT20 and CNT400 (R202, R203, R204): the value `v` joins the pending count. DEC-S also refuses a count out
of the canonical order (R211; R106 items (b) and (c)). -/
def readCount (c : CountStage) (v : Nat) (r : Reader) : Reader :=
  if r.strict ∧ r.stage.allows c = false then r.refuse .countOrder
  else { r with cnt := r.cnt + v, stage := c }

/-- FILL0 and FILLF (R205, R206): the rest of the row is `d`. -/
def readFill (d : Nibble) (r : Reader) : Reader :=
  if r.cnt ≠ 0 then r.refuse .countBeforeMark
  else if r.rowLen ≤ r.cur.length then r.refuse .fillOnFullRow
  else r.complete (r.cur ++ List.replicate (r.rowLen - r.cur.length) d)

/-- ROWREP (R207): a copy of the last completed row. -/
def readRep (r : Reader) : Reader :=
  if r.cnt ≠ 0 then r.refuse .countBeforeMark
  else if r.cur ≠ [] then r.refuse .repInsideRow
  else
    match r.rows.getLast? with
    | none => r.refuse .repFirst
    | some row => r.complete row

/-- The end of the stream (R209). -/
def readEnd (r : Reader) : Reader :=
  if r.cnt ≠ 0 then r.refuse .endAfterCount
  else if r.cur ≠ [] then r.refuse .endInsideRow
  else if r.rows.length ≠ r.pixelHeight then r.refuse .wrongRowCount
  else { r with verdict := .accepted }

/-- The reader is handed a stream with its two dimensions (R200): the three values of the output boundary. It starts
afresh, whatever it was doing: R200 describes one DEC from the hand-over to the verdict and is silent on a hand-over
while an earlier stream is still being read, and that such a stream is dropped is a DESIGN CHOICE (log entry 9). -/
def giveStream (stream : List Byte) (byteWidth pixelHeight : Nat) (strict : Bool) : Reader :=
  { stream := stream, byteWidth := byteWidth, pixelHeight := pixelHeight, strict := strict, rows := [], cur := [],
    cnt := 0, stage := .start, verdict := .reading }

/-- The reader executes one character while it is reading; a reader that has no stream, or has accepted or refused
one, reads nothing. -/
def readToken (f : Reader → Reader) (s : State) : Host.Outcome State Fault Refusal :=
  if s.reader.verdict = .reading then .next { s with reader := f s.reader } else .next s

/-- What the reader finds when it looks for its next character. -/
inductive TokenFetch where
  /-- the reader is not reading -/
  | idle
  /-- the stream is exhausted -/
  | ended
  /-- the next character is an instruction, and this reader has moved past it -/
  | instr (i : Instr) (r : Reader)
  /-- the next character is outside the alphabet, and this reader has refused the stream (R211) -/
  | bad (r : Reader)
  deriving DecidableEq, Repr

/-- The next character of the stream, decoded (R200). The character is taken off the stream before it is executed or
refused; that a refused one is taken off too is a DESIGN CHOICE (log entry 20). -/
def fetchToken (r : Reader) : TokenFetch :=
  if r.verdict = .reading then
    match r.stream with
    | [] => .ended
    | c :: cs =>
      match decodeToken c with
      | .ok i => .instr i { r with stream := cs }
      | .error (.outsideAlphabet code) => .bad (({ r with stream := cs }).refuse (.outsideAlphabet code))
  else .idle

end Sys2Proof.Machine
end

