-- ==== Sys2Proof/Machine/Cnt1.lean ====
section
/-! DEFINITION. The meanings of the nineteen CNT1 characters (44_token_stream.md rule R202): each adds its value
1..19 to the pending count (30_encoding.md rule R95). -/

namespace Sys2Proof.Machine

/-- `CNT1.1`, the character `G`. -/
def execCnt1_1 (s : State) : Host.Outcome State Fault Refusal := readToken (readCount .ones 1) s

/-- `CNT1.2`, the character `H`. -/
def execCnt1_2 (s : State) : Host.Outcome State Fault Refusal := readToken (readCount .ones 2) s

/-- `CNT1.3`, the character `I`. -/
def execCnt1_3 (s : State) : Host.Outcome State Fault Refusal := readToken (readCount .ones 3) s

/-- `CNT1.4`, the character `J`. -/
def execCnt1_4 (s : State) : Host.Outcome State Fault Refusal := readToken (readCount .ones 4) s

/-- `CNT1.5`, the character `K`. -/
def execCnt1_5 (s : State) : Host.Outcome State Fault Refusal := readToken (readCount .ones 5) s

/-- `CNT1.6`, the character `L`. -/
def execCnt1_6 (s : State) : Host.Outcome State Fault Refusal := readToken (readCount .ones 6) s

/-- `CNT1.7`, the character `M`. -/
def execCnt1_7 (s : State) : Host.Outcome State Fault Refusal := readToken (readCount .ones 7) s

/-- `CNT1.8`, the character `N`. -/
def execCnt1_8 (s : State) : Host.Outcome State Fault Refusal := readToken (readCount .ones 8) s

/-- `CNT1.9`, the character `O`. -/
def execCnt1_9 (s : State) : Host.Outcome State Fault Refusal := readToken (readCount .ones 9) s

/-- `CNT1.10`, the character `P`. -/
def execCnt1_10 (s : State) : Host.Outcome State Fault Refusal := readToken (readCount .ones 10) s

/-- `CNT1.11`, the character `Q`. -/
def execCnt1_11 (s : State) : Host.Outcome State Fault Refusal := readToken (readCount .ones 11) s

/-- `CNT1.12`, the character `R`. -/
def execCnt1_12 (s : State) : Host.Outcome State Fault Refusal := readToken (readCount .ones 12) s

/-- `CNT1.13`, the character `S`. -/
def execCnt1_13 (s : State) : Host.Outcome State Fault Refusal := readToken (readCount .ones 13) s

/-- `CNT1.14`, the character `T`. -/
def execCnt1_14 (s : State) : Host.Outcome State Fault Refusal := readToken (readCount .ones 14) s

/-- `CNT1.15`, the character `U`. -/
def execCnt1_15 (s : State) : Host.Outcome State Fault Refusal := readToken (readCount .ones 15) s

/-- `CNT1.16`, the character `V`. -/
def execCnt1_16 (s : State) : Host.Outcome State Fault Refusal := readToken (readCount .ones 16) s

/-- `CNT1.17`, the character `W`. -/
def execCnt1_17 (s : State) : Host.Outcome State Fault Refusal := readToken (readCount .ones 17) s

/-- `CNT1.18`, the character `X`. -/
def execCnt1_18 (s : State) : Host.Outcome State Fault Refusal := readToken (readCount .ones 18) s

/-- `CNT1.19`, the character `Y`. -/
def execCnt1_19 (s : State) : Host.Outcome State Fault Refusal := readToken (readCount .ones 19) s

end Sys2Proof.Machine
end

