-- ==== Sys2Proof/Machine/Cnt20.lean ====
section
/-! DEFINITION. The meanings of the nineteen CNT20 characters (44_token_stream.md rule R203): each adds its value,
20..380 in steps of 20, to the pending count (30_encoding.md rule R96). -/

namespace Sys2Proof.Machine

/-- `CNT20.1`, the character `g`. -/
def execCnt20_1 (s : State) : Host.Outcome State Fault Refusal := readToken (readCount .twenties 20) s

/-- `CNT20.2`, the character `h`. -/
def execCnt20_2 (s : State) : Host.Outcome State Fault Refusal := readToken (readCount .twenties 40) s

/-- `CNT20.3`, the character `i`. -/
def execCnt20_3 (s : State) : Host.Outcome State Fault Refusal := readToken (readCount .twenties 60) s

/-- `CNT20.4`, the character `j`. -/
def execCnt20_4 (s : State) : Host.Outcome State Fault Refusal := readToken (readCount .twenties 80) s

/-- `CNT20.5`, the character `k`. -/
def execCnt20_5 (s : State) : Host.Outcome State Fault Refusal := readToken (readCount .twenties 100) s

/-- `CNT20.6`, the character `l`. -/
def execCnt20_6 (s : State) : Host.Outcome State Fault Refusal := readToken (readCount .twenties 120) s

/-- `CNT20.7`, the character `m`. -/
def execCnt20_7 (s : State) : Host.Outcome State Fault Refusal := readToken (readCount .twenties 140) s

/-- `CNT20.8`, the character `n`. -/
def execCnt20_8 (s : State) : Host.Outcome State Fault Refusal := readToken (readCount .twenties 160) s

/-- `CNT20.9`, the character `o`. -/
def execCnt20_9 (s : State) : Host.Outcome State Fault Refusal := readToken (readCount .twenties 180) s

/-- `CNT20.10`, the character `p`. -/
def execCnt20_10 (s : State) : Host.Outcome State Fault Refusal := readToken (readCount .twenties 200) s

/-- `CNT20.11`, the character `q`. -/
def execCnt20_11 (s : State) : Host.Outcome State Fault Refusal := readToken (readCount .twenties 220) s

/-- `CNT20.12`, the character `r`. -/
def execCnt20_12 (s : State) : Host.Outcome State Fault Refusal := readToken (readCount .twenties 240) s

/-- `CNT20.13`, the character `s`. -/
def execCnt20_13 (s : State) : Host.Outcome State Fault Refusal := readToken (readCount .twenties 260) s

/-- `CNT20.14`, the character `t`. -/
def execCnt20_14 (s : State) : Host.Outcome State Fault Refusal := readToken (readCount .twenties 280) s

/-- `CNT20.15`, the character `u`. -/
def execCnt20_15 (s : State) : Host.Outcome State Fault Refusal := readToken (readCount .twenties 300) s

/-- `CNT20.16`, the character `v`. -/
def execCnt20_16 (s : State) : Host.Outcome State Fault Refusal := readToken (readCount .twenties 320) s

/-- `CNT20.17`, the character `w`. -/
def execCnt20_17 (s : State) : Host.Outcome State Fault Refusal := readToken (readCount .twenties 340) s

/-- `CNT20.18`, the character `x`. -/
def execCnt20_18 (s : State) : Host.Outcome State Fault Refusal := readToken (readCount .twenties 360) s

/-- `CNT20.19`, the character `y`. -/
def execCnt20_19 (s : State) : Host.Outcome State Fault Refusal := readToken (readCount .twenties 380) s

end Sys2Proof.Machine
end

