-- ==== Sys2Proof/Machine/Hex.lean ====
section
/-! DEFINITION. The meanings of the sixteen HEX characters (44_token_stream.md rule R201): each is the shared
operation `readHex` with the nibble the character stands for (30_encoding.md rule R92). -/

namespace Sys2Proof.Machine

/-- `HEX.0`, the character `0`. -/
def execHex0 (s : State) : Host.Outcome State Fault Refusal := readToken (readHex 0x0) s

/-- `HEX.1`, the character `1`. -/
def execHex1 (s : State) : Host.Outcome State Fault Refusal := readToken (readHex 0x1) s

/-- `HEX.2`, the character `2`. -/
def execHex2 (s : State) : Host.Outcome State Fault Refusal := readToken (readHex 0x2) s

/-- `HEX.3`, the character `3`. -/
def execHex3 (s : State) : Host.Outcome State Fault Refusal := readToken (readHex 0x3) s

/-- `HEX.4`, the character `4`. -/
def execHex4 (s : State) : Host.Outcome State Fault Refusal := readToken (readHex 0x4) s

/-- `HEX.5`, the character `5`. -/
def execHex5 (s : State) : Host.Outcome State Fault Refusal := readToken (readHex 0x5) s

/-- `HEX.6`, the character `6`. -/
def execHex6 (s : State) : Host.Outcome State Fault Refusal := readToken (readHex 0x6) s

/-- `HEX.7`, the character `7`. -/
def execHex7 (s : State) : Host.Outcome State Fault Refusal := readToken (readHex 0x7) s

/-- `HEX.8`, the character `8`. -/
def execHex8 (s : State) : Host.Outcome State Fault Refusal := readToken (readHex 0x8) s

/-- `HEX.9`, the character `9`. -/
def execHex9 (s : State) : Host.Outcome State Fault Refusal := readToken (readHex 0x9) s

/-- `HEX.A`, the character `A`. -/
def execHexA (s : State) : Host.Outcome State Fault Refusal := readToken (readHex 0xA) s

/-- `HEX.B`, the character `B`. -/
def execHexB (s : State) : Host.Outcome State Fault Refusal := readToken (readHex 0xB) s

/-- `HEX.C`, the character `C`. -/
def execHexC (s : State) : Host.Outcome State Fault Refusal := readToken (readHex 0xC) s

/-- `HEX.D`, the character `D`. -/
def execHexD (s : State) : Host.Outcome State Fault Refusal := readToken (readHex 0xD) s

/-- `HEX.E`, the character `E`. -/
def execHexE (s : State) : Host.Outcome State Fault Refusal := readToken (readHex 0xE) s

/-- `HEX.F`, the character `F`. -/
def execHexF (s : State) : Host.Outcome State Fault Refusal := readToken (readHex 0xF) s

end Sys2Proof.Machine
end

