-- ==== Sys2Proof/Machine/Marks.lean ====
section
/-! DEFINITION. The meanings of `z`, `,`, `!` and `:` (44_token_stream.md rules R204 to R207). -/

namespace Sys2Proof.Machine

/-- `CNT400`, the character `z` (R204). -/
def execCnt400 (s : State) : Host.Outcome State Fault Refusal := readToken (readCount .fourHundreds 400) s

/-- `FILL0`, the character `,` (R205). -/
def execFill0 (s : State) : Host.Outcome State Fault Refusal := readToken (readFill 0x0) s

/-- `FILLF`, the character `!` (R206). -/
def execFillF (s : State) : Host.Outcome State Fault Refusal := readToken (readFill 0xF) s

/-- `ROWREP`, the character `:` (R207). -/
def execRowrep (s : State) : Host.Outcome State Fault Refusal := readToken readRep s

end Sys2Proof.Machine
end

