-- ==== Sys2Proof/Machine/Flags.lean ====
section
/-! DEFINITION. The flags: STATUS (10_state.md rule R27), the comparator EQ (42_compressor.md rule R152), the tail
tracker (R153), the conditions "row complete" and "closed" (R168), and `tok_last` (R164). -/

namespace Sys2Proof.Machine

/-- BUSY (R27). -/
def Zeb.busy (z : Zeb) : Bool := z.phase == .load || z.phase == .scan || z.phase == .cnt || z.phase == .eor

/-- DONE (R27). -/
def Zeb.done (z : Zeb) : Bool := z.phase == .done

/-- The comparator in the step in which PACK writes nibble `v` (R152): PREV[NI] is read only when EQ = 1. -/
def eqNext (z : Zeb) (v : Nibble) : Except Fault Bool :=
  if z.eq then
    match readRow z.rowLen z.prev z.ni with
    | .ok u => .ok (u == v)
    | .error f => .error f
  else .ok false

/-- TS in the step in which PACK writes nibble `v` (R153): LN is read only when NI >= 1. -/
def tsNext (z : Zeb) (v : Nibble) : Nat := if z.ni = 0 ∨ v ≠ z.ln then z.ni else z.ts

/-- TM as TRAIL sets it from LN (R155): `0` is tested before `F`. -/
def trailMark (ln : Nibble) : TrailMark := if ln = 0x0 then .zero else if ln = 0xF then .eff else .none

/-- TE as TRAIL sets it (R155). -/
def trailEnd (z : Zeb) : Nat := if trailMark z.ln = .none then z.rowLen else z.ts

/-- "Row complete" (R168). -/
def Zeb.rowComplete (z : Zeb) : Bool := z.phase == .load && z.x == z.width && z.bc == 0

/-- The row equals the previous row (R146, R152). -/
def Zeb.repeats (z : Zeb) : Bool := z.pv && z.eq

/-- "Closed" (R168): CUR[SI] is read only when SI < TE. -/
def Zeb.closed (z : Zeb) : Except Fault Bool :=
  if z.si = z.te then .ok true
  else if z.si < z.te then
    match readRow z.rowLen z.cur z.si with
    | .ok v => .ok (v != z.rc)
    | .error f => .error f
  else .ok false

/-- The row being processed is the last one of the frame: `Y = HEIGHT - 1` (R164). -/
def Zeb.lastRow (z : Zeb) : Bool := z.y + 1 == z.height

/-- Nothing of the row follows the scan: SI = TE and TM = NONE (R164). -/
def Zeb.scanEnds (z : Zeb) : Bool := z.si == z.te && z.tm == .none

/-- The character that a micro-operation emits, with its `tok_last` (R154, R157, R159 to R164); `none` where it
emits nothing. -/
def emission (op : MicroOp) (z : Zeb) : Option (Byte × Bool) :=
  match op with
  | .rowrep => some (chRep, z.lastRow)
  | .lit => some (hexChar z.rc, z.rn == 1 && z.scanEnds && z.lastRow)
  | .cntz => some (ch400, false)
  | .cnt20 => some (count20Char (z.rn / unit20), false)
  | .cnt1 => some (count1Char z.rn, false)
  | .repc => some (hexChar z.rc, z.scanEnds && z.lastRow)
  | .eol => z.tm.char.map (fun c => (c, z.lastRow))
  | .reset | .start | .samp | .pad | .pack | .trail | .acc | .rle | .commit => none

end Sys2Proof.Machine
end

