-- ==== Sys2Proof/Machine/Sampler.lean ====
section
/-! DEFINITION. The Bit Sampler: the micro-operation SAMP (40_thresholder.md rule R122), which is the meaning of a
pixel beat. -/

namespace Sys2Proof.Machine

/-- The guard of SAMP apart from `pix_valid`, and so the output `pix_ready` (R122; 20_memory.md rule R64). -/
def Zeb.pixReady (z : Zeb) : Bool := z.phase == .load && z.bc < 8 && z.x < z.width

/-- SAMP with the intensity `i` (R122). The intensity joins the model's history of the pixel port. -/
def fireSamp (i : Byte) (z : Zeb) : Zeb :=
  { z with sr := shiftIn z.sr (thr i), bc := z.bc + 1, x := z.x + 1, taken := z.taken ++ [i] }

/-- `PIX`: a pixel beat. It is taken when `pix_ready` = 1; otherwise it is not taken and nothing changes
(20_memory.md rule R66). -/
def execPix (i : Byte) (s : State) : Host.Outcome State Fault Refusal :=
  if s.zeb.pixReady then .next { s with zeb := fireSamp i s.zeb } else .next s

end Sys2Proof.Machine
end

