-- ==== Sys2Proof/Machine/Dispatch.lean ====
section
/-! DEFINITION. The one dispatch from an instruction to its meaning. -/

namespace Sys2Proof.Machine

def exec (i : Instr) (s : State) : Host.Outcome State Fault Refusal :=
  match i with
  | .hex0 => Sys2Proof.Machine.execHex0 s
  | .hex1 => Sys2Proof.Machine.execHex1 s
  | .hex2 => Sys2Proof.Machine.execHex2 s
  | .hex3 => Sys2Proof.Machine.execHex3 s
  | .hex4 => Sys2Proof.Machine.execHex4 s
  | .hex5 => Sys2Proof.Machine.execHex5 s
  | .hex6 => Sys2Proof.Machine.execHex6 s
  | .hex7 => Sys2Proof.Machine.execHex7 s
  | .hex8 => Sys2Proof.Machine.execHex8 s
  | .hex9 => Sys2Proof.Machine.execHex9 s
  | .hexA => Sys2Proof.Machine.execHexA s
  | .hexB => Sys2Proof.Machine.execHexB s
  | .hexC => Sys2Proof.Machine.execHexC s
  | .hexD => Sys2Proof.Machine.execHexD s
  | .hexE => Sys2Proof.Machine.execHexE s
  | .hexF => Sys2Proof.Machine.execHexF s
  | .cnt1_1 => Sys2Proof.Machine.execCnt1_1 s
  | .cnt1_2 => Sys2Proof.Machine.execCnt1_2 s
  | .cnt1_3 => Sys2Proof.Machine.execCnt1_3 s
  | .cnt1_4 => Sys2Proof.Machine.execCnt1_4 s
  | .cnt1_5 => Sys2Proof.Machine.execCnt1_5 s
  | .cnt1_6 => Sys2Proof.Machine.execCnt1_6 s
  | .cnt1_7 => Sys2Proof.Machine.execCnt1_7 s
  | .cnt1_8 => Sys2Proof.Machine.execCnt1_8 s
  | .cnt1_9 => Sys2Proof.Machine.execCnt1_9 s
  | .cnt1_10 => Sys2Proof.Machine.execCnt1_10 s
  | .cnt1_11 => Sys2Proof.Machine.execCnt1_11 s
  | .cnt1_12 => Sys2Proof.Machine.execCnt1_12 s
  | .cnt1_13 => Sys2Proof.Machine.execCnt1_13 s
  | .cnt1_14 => Sys2Proof.Machine.execCnt1_14 s
  | .cnt1_15 => Sys2Proof.Machine.execCnt1_15 s
  | .cnt1_16 => Sys2Proof.Machine.execCnt1_16 s
  | .cnt1_17 => Sys2Proof.Machine.execCnt1_17 s
  | .cnt1_18 => Sys2Proof.Machine.execCnt1_18 s
  | .cnt1_19 => Sys2Proof.Machine.execCnt1_19 s
  | .cnt20_1 => Sys2Proof.Machine.execCnt20_1 s
  | .cnt20_2 => Sys2Proof.Machine.execCnt20_2 s
  | .cnt20_3 => Sys2Proof.Machine.execCnt20_3 s
  | .cnt20_4 => Sys2Proof.Machine.execCnt20_4 s
  | .cnt20_5 => Sys2Proof.Machine.execCnt20_5 s
  | .cnt20_6 => Sys2Proof.Machine.execCnt20_6 s
  | .cnt20_7 => Sys2Proof.Machine.execCnt20_7 s
  | .cnt20_8 => Sys2Proof.Machine.execCnt20_8 s
  | .cnt20_9 => Sys2Proof.Machine.execCnt20_9 s
  | .cnt20_10 => Sys2Proof.Machine.execCnt20_10 s
  | .cnt20_11 => Sys2Proof.Machine.execCnt20_11 s
  | .cnt20_12 => Sys2Proof.Machine.execCnt20_12 s
  | .cnt20_13 => Sys2Proof.Machine.execCnt20_13 s
  | .cnt20_14 => Sys2Proof.Machine.execCnt20_14 s
  | .cnt20_15 => Sys2Proof.Machine.execCnt20_15 s
  | .cnt20_16 => Sys2Proof.Machine.execCnt20_16 s
  | .cnt20_17 => Sys2Proof.Machine.execCnt20_17 s
  | .cnt20_18 => Sys2Proof.Machine.execCnt20_18 s
  | .cnt20_19 => Sys2Proof.Machine.execCnt20_19 s
  | .cnt400 => Sys2Proof.Machine.execCnt400 s
  | .fill0 => Sys2Proof.Machine.execFill0 s
  | .fillF => Sys2Proof.Machine.execFillF s
  | .rowrep => Sys2Proof.Machine.execRowrep s
  | .pix i0 => Sys2Proof.Machine.execPix i0 s

end Sys2Proof.Machine
end

