-- ==== Sys2Proof/Machine/Compressor.lean ====
section
/-! DEFINITION. The Row Compressor: the micro-operations of the grammar state machine (42_compressor.md rules R154 to
R163). Each emits what `emission` gives it. -/

namespace Sys2Proof.Machine

/-- ROWREP (R154). -/
def fireRowrep (z : Zeb) : Zeb := { z.emit (emission .rowrep z) with phase := .eor }

/-- TRAIL (R155). -/
def fireTrail (z : Zeb) : Zeb :=
  { z with tm := trailMark z.ln, te := trailEnd z, si := 0, rn := 0, phase := .scan }

/-- ACC (R156). -/
def fireAcc (z : Zeb) : Except Fault Zeb :=
  match readRow z.rowLen z.cur z.si with
  | .ok v => .ok { z with rc := v, rn := z.rn + 1, si := z.si + 1 }
  | .error f => .error f

/-- LIT (R157). -/
def fireLit (z : Zeb) : Zeb := { z.emit (emission .lit z) with rn := z.rn - 1 }

/-- RLE (R158). -/
def fireRle (z : Zeb) : Zeb := { z with phase := .cnt }

/-- CNTZ (R159). -/
def fireCntz (z : Zeb) : Zeb := { z.emit (emission .cntz z) with rn := z.rn - unit400 }

/-- CNT20 (R160). -/
def fireCnt20 (z : Zeb) : Zeb := { z.emit (emission .cnt20 z) with rn := z.rn % unit20 }

/-- CNT1 (R161). -/
def fireCnt1 (z : Zeb) : Zeb := { z.emit (emission .cnt1 z) with rn := 0 }

/-- REPC (R162). -/
def fireRepc (z : Zeb) : Zeb := { z.emit (emission .repc z) with phase := .scan }

/-- EOL (R163). -/
def fireEol (z : Zeb) : Zeb := { z.emit (emission .eol z) with phase := .eor }

end Sys2Proof.Machine
end

