-- ==== Sys2Proof/Machine/Packer.lean ====
section
/-! DEFINITION. The Row Packer: the micro-operations PAD and PACK (41_packer.md rules R134, R135), PACK with its side
effects on the comparator and the tail tracker (42_compressor.md rules R152, R153). -/

namespace Sys2Proof.Machine

/-- PAD (R134). -/
def firePad (z : Zeb) : Zeb := { z with sr := shiftIn z.sr false, bc := z.bc + 1 }

/-- PACK (R135, R152, R153). -/
def firePack (z : Zeb) : Except Fault Zeb :=
  match writeRow z.rowLen z.cur z.ni (nibbleMux z.sr z.ni), eqNext z (nibbleMux z.sr z.ni) with
  | .ok cur, .ok eq =>
    .ok { z with cur := cur, eq := eq, ni := z.ni + 1,
                 sr := if z.ni % 2 = 1 then 0 else z.sr,
                 bc := if z.ni % 2 = 1 then 0 else z.bc,
                 ts := tsNext z (nibbleMux z.sr z.ni), ln := nibbleMux z.sr z.ni }
  | .error f, _ => .error f
  | _, .error f => .error f

end Sys2Proof.Machine
end

