-- ==== Sys2Proof/Machine/Sequencer.lean ====
section
/-! DEFINITION. The Encoder: RESET (70_reset_and_hazards.md rule R250), START and COMMIT (43_sequencer.md rules R183,
R184), the guards of the sixteen micro-operations each from its own rule, the dispatch table (R182) and the output
ports (20_memory.md rules R64 to R68). -/

namespace Sys2Proof.Machine

/-- RESET (R250): PHASE, ERR, PV, EQ and the histories are written; every other register holds an unspecified value
afterwards, a free value within its width, and no row-buffer entry has a value (log entries 2 and 5). -/
def fireReset (p : Params) (z : Zeb) : Zeb :=
  { phase := .idle, err := false, pv := false, eq := false, out := [], taken := [], cur := [], prev := [],
    width := freeNat p.ww z.draws 0, height := freeNat p.hw z.draws 1,
    x := freeNat p.ww z.draws 2, y := freeNat p.hw z.draws 3, ni := freeNat p.ww z.draws 4,
    sr := Config.freeBits 8 (z.draws + 5), bc := freeNat 4 z.draws 6,
    ts := freeNat p.ww z.draws 7, ln := Config.freeBits 4 (z.draws + 8), te := freeNat p.ww z.draws 9,
    tm := .ofBits (Config.freeBits 2 (z.draws + 10)), si := freeNat p.ww z.draws 11,
    rc := Config.freeBits 4 (z.draws + 12), rn := freeNat p.ww z.draws 13, draws := z.draws + 14 }

/-- The operands of START are out of range (60_exceptions.md rule R222). -/
def badDim (p : Params) (c : Command) : Bool := c.w == 0 || c.h == 0 || p.maxW < c.w || p.maxH < c.h

/-- The state after an accepted START of `w` by `h` (R183). -/
def acceptStart (w h : Nat) (z : Zeb) : Zeb :=
  { clearErr z with width := w, height := h, x := 0, y := 0, sr := 0, bc := 0, ni := 0, pv := false, eq := false,
                    phase := .load, out := [], taken := [] }

/-- START (R183): its operands are what the command port carries in the step (20_memory.md rule R65). -/
def fireStart (p : Params) (c : Command) (z : Zeb) : Zeb :=
  if badDim p (c.onPort p) then raiseBadDim z else acceptStart (c.onPort p).w (c.onPort p).h z

/-- COMMIT (R184): PREV takes the row by a copy. That CUR, and the entries of PREV past the row, keep their values is a
DESIGN CHOICE: R34 lets a model keep CUR or treat it as unspecified, and D17 lets two banks be swapped (log entry 21). -/
def fireCommit (z : Zeb) : Except Fault Zeb :=
  match copyRow z.rowLen z.cur z.prev with
  | .ok prev =>
    .ok { z with prev := prev, pv := true, eq := true, y := z.y + 1, x := 0, ni := 0,
                 phase := if z.y + 1 = z.height then .done else .load }
  | .error f => .error f

/-- `cmd_ready` (20_memory.md rule R64). -/
def Zeb.cmdReady (z : Zeb) : Bool := z.phase == .idle || z.phase == .done

/-- "CUR[SI] = RC" as the guard of ACC uses it (R156). -/
def Zeb.extends (z : Zeb) : Bool :=
  match readRow z.rowLen z.cur z.si with
  | .ok v => v == z.rc
  | .error _ => false

/-- "Closed" as a condition (R168). -/
def Zeb.isClosed (z : Zeb) : Bool :=
  match z.closed with
  | .ok b => b
  | .error _ => false

/-- The guard of each micro-operation, from its own rule, port events included. `rst` is no part of the others'
guards: RESET takes precedence over them (60_exceptions.md rule R225). -/
def guardOf (p : PortIn) (z : Zeb) : MicroOp → Bool
  | .reset => p.rst
  | .start => (z.phase == .idle || z.phase == .done) && p.cmd.isSome
  | .samp => z.phase == .load && z.bc < 8 && z.x < z.width && p.pix.isSome
  | .pad => z.phase == .load && z.x == z.width && 1 ≤ z.bc && z.bc ≤ 7
  | .pack => z.phase == .load && z.bc == 8
  | .rowrep => z.rowComplete && (z.pv && z.eq) && p.tokReady
  | .trail => z.rowComplete && !(z.pv && z.eq)
  | .acc => z.phase == .scan && z.si < z.te && (z.rn == 0 || z.extends)
  | .lit => z.phase == .scan && 1 ≤ z.rn && z.rn ≤ 2 && z.isClosed && p.tokReady
  | .rle => z.phase == .scan && 3 ≤ z.rn && z.isClosed
  | .cntz => z.phase == .cnt && 400 ≤ z.rn && p.tokReady
  | .cnt20 => z.phase == .cnt && 20 ≤ z.rn && z.rn ≤ 399 && p.tokReady
  | .cnt1 => z.phase == .cnt && 1 ≤ z.rn && z.rn ≤ 19 && p.tokReady
  | .repc => z.phase == .cnt && z.rn == 0 && p.tokReady
  | .eol => z.phase == .scan && z.rn == 0 && z.si == z.te && (z.tm == .none || p.tokReady)
  | .commit => z.phase == .eor

/-- `op` when its port event is there, else a wait. -/
def whenReady (ready : Bool) (op : MicroOp) : Option MicroOp := if ready then some op else none

/-- The rows of the dispatch table for PHASE = LOAD (R182). -/
def selectLoad (p : PortIn) (z : Zeb) : Option MicroOp :=
  if z.bc = 8 then some .pack
  else if z.bc < 8 ∧ z.x < z.width then whenReady p.pix.isSome .samp
  else if z.x = z.width ∧ 1 ≤ z.bc ∧ z.bc ≤ 7 then some .pad
  else if z.x = z.width ∧ z.bc = 0 then
    if z.repeats then whenReady p.tokReady .rowrep else some .trail
  else none

/-- The rows of the dispatch table for PHASE = SCAN (R182). -/
def selectScan (p : PortIn) (z : Zeb) : Except Fault (Option MicroOp) :=
  if z.rn = 0 then
    if z.si < z.te then .ok (some .acc)
    else if z.si = z.te then .ok (whenReady (z.tm == .none || p.tokReady) .eol)
    else .ok none
  else
    match z.closed with
    | .error f => .error f
    | .ok true => .ok (if z.rn ≤ 2 then whenReady p.tokReady .lit else some .rle)
    | .ok false => .ok (if z.si < z.te then some .acc else none)

/-- The rows of the dispatch table for PHASE = CNT (R182). -/
def selectCnt (p : PortIn) (z : Zeb) : Option MicroOp :=
  whenReady p.tokReady
    (if 400 ≤ z.rn then .cntz else if 20 ≤ z.rn then .cnt20 else if 1 ≤ z.rn then .cnt1 else .repc)

/-- The dispatch table (R182), RESET first (R225): the micro-operation that fires, `none` for a wait. A state that
no row of the table covers fires nothing (00_scope.md rule R11). -/
def select (p : PortIn) (z : Zeb) : Except Fault (Option MicroOp) :=
  if p.rst then .ok (some .reset)
  else
    match z.phase with
    | .idle => .ok (whenReady p.cmd.isSome .start)
    | .done => .ok (whenReady p.cmd.isSome .start)
    | .load => .ok (selectLoad p z)
    | .scan => selectScan p z
    | .cnt => .ok (selectCnt p z)
    | .eor => .ok (some .commit)

/-- The effect of a micro-operation. -/
def fire (q : Params) (p : PortIn) (z : Zeb) : MicroOp → Except Fault Zeb
  | .reset => .ok (fireReset q z)
  | .start =>
    match p.cmd with
    | some c => .ok (fireStart q c z)
    | none => .ok z
  | .samp =>
    match p.pix with
    | some i => .ok (fireSamp i z)
    | none => .ok z
  | .pad => .ok (firePad z)
  | .pack => firePack z
  | .rowrep => .ok (fireRowrep z)
  | .trail => .ok (fireTrail z)
  | .acc => fireAcc z
  | .lit => .ok (fireLit z)
  | .rle => .ok (fireRle z)
  | .cntz => .ok (fireCntz z)
  | .cnt20 => .ok (fireCnt20 z)
  | .cnt1 => .ok (fireCnt1 z)
  | .repc => .ok (fireRepc z)
  | .eol => .ok (fireEol z)
  | .commit => fireCommit z

/-- The ports of a step in which the outside world offers nothing and accepts nothing. -/
def PortIn.quiet : PortIn := ⟨false, none, none, false⟩

/-- The word on the pixel port in a step, decoded. -/
def fetchPixel (p : PortIn) : Option Instr := p.pix.map decodePixel

/-- `tok_valid`, `tok_data` and `tok_last` (20_memory.md rules R64, R67): what ZEB offers on the token port, whether
or not the sink is ready. -/
def Zeb.tokOffer (z : Zeb) : Option (Byte × Bool) :=
  match select ⟨false, none, none, true⟩ z with
  | .ok (some op) => emission op z
  | .ok none => none
  | .error _ => none

end Sys2Proof.Machine
end

