-- ==== Sys2Proof/Machine/Step.lean ====
section
/-! DEFINITION. One step: the next event of the schedule, with the agent it belongs to. When nothing is scheduled the
step is one of ZEB with quiet ports, so internal micro-operations go on (20_memory.md rule R77; 60_exceptions.md rule
R229). -/

namespace Sys2Proof.Machine

/-- One step of ZEB with the port values `p`: the micro-operation that the dispatch table selects, or a wait. A pixel
beat that SAMP takes is decoded and executed as the instruction it is. -/
def zebStep (p : PortIn) (s : State) : Host.Outcome State Fault Refusal :=
  match select p s.zeb with
  | .error f => .fault f
  | .ok none => .next s
  | .ok (some .samp) =>
    match fetchPixel p with
    | some i => exec i s
    | none => .next s
  | .ok (some op) =>
    match fire s.params p s.zeb op with
    | .ok z => .next { s with zeb := z }
    | .error f => .fault f

/-- One step of the reader: its next character, decoded and executed, or the end of its stream. -/
def readStep (s : State) : Host.Outcome State Fault Refusal :=
  match fetchToken s.reader with
  | .idle => .next s
  | .ended => .next { s with reader := readEnd s.reader }
  | .instr i r => exec i { s with reader := r }
  | .bad r => .next { s with reader := r }

/-- One step of the machine. A hand-over ends whatever the reader was reading (DESIGN CHOICE, log entry 9). -/
def step (s : State) : Host.Outcome State Fault Refusal :=
  match s.sched with
  | [] => zebStep .quiet s
  | .zeb p :: rest => zebStep p { s with sched := rest }
  | .give stream bw ph strict :: rest =>
    .next { s with sched := rest, reader := giveStream stream bw ph strict }
  | .read :: rest => readStep { s with sched := rest }

/-- `s` with the word `w` placed where its instruction is fetched, and that fetch scheduled next (log entry 13). A
stream character goes in front of the reader's stream; a reader that has no stream to read is handed one, with
byteWidth 1 and pixelHeight 1. An intensity is offered on the pixel port; a ZEB that is not ready for a pixel is put
into the state after an accepted START of 1 by 1. -/
def State.withFetchWord (s : State) (nbits w : Nat) : State :=
  match decodeToken (tableByte nbits w) with
  | .ok _ =>
    let r := if s.reader.verdict = .reading then s.reader else giveStream [] 1 1 false
    { s with reader := { r with stream := tableByte nbits w :: r.stream }, sched := .read :: s.sched }
  | .error _ =>
    let z := if s.zeb.pixReady then s.zeb else acceptStart 1 1 s.zeb
    { s with zeb := z, sched := .zeb ⟨false, none, some (tableByte nbits w), false⟩ :: s.sched }

end Sys2Proof.Machine
end

