-- ==== Sys2Proof/Machine/Contract.lean ====
section
/-! DEFINITION. Level F: the source's four contracts as functions on strings (00_scope.md rule R15): sample
(40_thresholder.md rule R121), pack (41_packer.md rules R130 to R133), compress (42_compressor.md rules R145 to R150)
and encode (43_sequencer.md rule R180). A bit-string is a list of bits, a row or a stream a list of 8-bit characters,
leftmost first. The machine does not call them: they say what it must compute. What they give for a width or a height
of 0, and for an empty string, is a DESIGN CHOICE (log entry 22): the source's domain is dimensions of at least 1. -/

namespace Sys2Proof.Machine

/-- `rowbits(y)` of a grid of width `w` (R121). For width 0, outside the domain, it is empty: DESIGN CHOICE (log entry 22). -/
def rowBits (w : Nat) (grid : Nat → Nat → Byte) (y : Nat) : List Bool :=
  (List.range w).map (fun x => thr (grid x y))

/-- `sample(grid)` (R121): the Bitmap, the `height` bit-strings `rowbits(0)`, ..., `rowbits(height - 1)` in order, a
function of the whole grid (90_conflicts.md ruling C7). The domain is `width` and `height` of at least 1; outside it
the spec gives no result (91_not_in_source.md item N12), and that height 0 gives an empty Bitmap and width 0 empty
bit-strings is a DESIGN CHOICE (log entry 22). -/
def sample (w h : Nat) (grid : Nat → Nat → Byte) : List (List Bool) := (List.range h).map (rowBits w grid)

/-- The value of the four bits of `bits` from position `a`, the first most significant; a position past the end
counts as 0 (R131, R133). -/
def nibbleAt (bits : List Bool) (a : Nat) : Nibble :=
  BitVec.ofNat 4 ((bits.getD a false).toNat * 8 + (bits.getD (a + 1) false).toNat * 4
    + (bits.getD (a + 2) false).toNat * 2 + (bits.getD (a + 3) false).toNat)

/-- `packnib(bits)` (R133): the 2 * byteWidth nibbles of the padded row. -/
def packNib (bits : List Bool) : List Nibble :=
  (List.range (2 * ceil8 bits.length)).map (fun k => nibbleAt bits (4 * k))

/-- `pack(bits)` (R130, R133): the row as a hexadecimal string. -/
def pack (bits : List Bool) : List Byte := (packNib bits).map hexChar

/-- `s` without its trailing run of `c` (R147). -/
def dropTrailing (c : Byte) (s : List Byte) : List Byte := (s.reverse.dropWhile (· == c)).reverse

/-- Step 2, `trail(r)` (R147): a trailing run of `0` becomes `,`, else a trailing run of `F` becomes `!`. -/
def trail (r : List Byte) : List Byte :=
  if r.getLast? = some (hexChar 0x0) then dropTrailing (hexChar 0x0) r ++ [chZ]
  else if r.getLast? = some (hexChar 0xF) then dropTrailing (hexChar 0xF) r ++ [chF]
  else r

/-- `C20(q)` (R149). -/
def c20 (q : Nat) : List Byte := if q = 0 then [] else [count20Char q]

/-- `C1(m)` (R149). -/
def c1 (m : Nat) : List Byte := if m = 0 then [] else [count1Char m]

/-- The count token `count(n)` (R149, for `n` of at least 3; for a smaller `n` the same formula, log entry 22). -/
def countToken (n : Nat) : List Byte :=
  List.replicate (n / unit400) ch400 ++ c20 (n % unit400 / unit20) ++ c1 (n % unit20)

/-- The maximal runs of a string, in order, each with its length (00_scope.md rule R14). -/
def runs : List Byte → List (Byte × Nat)
  | [] => []
  | c :: s =>
    match runs s with
    | [] => [(c, 1)]
    | (d, n) :: t => if c = d then (d, n + 1) :: t else (c, 1) :: (d, n) :: t

/-- What step 3 writes for one maximal run (R148). -/
def runToken (run : Byte × Nat) : List Byte :=
  if runMin ≤ run.2 then countToken run.2 ++ [run.1] else List.replicate run.2 run.1

/-- Step 3, `rle(s)` (R148). -/
def rle (s : List Byte) : List Byte := (runs s).flatMap runToken

/-- `compress(r, s)` without its new state, which is always `r` (R145, R146, R150). -/
def compress (r : List Byte) (s : Option (List Byte)) : List Byte :=
  if s = some r then [chRep] else rle (trail r)

/-- The packed row `r(y)` of a grid (R180). -/
def packedRow (w : Nat) (grid : Nat → Nat → Byte) (y : Nat) : List Byte := pack (rowBits w grid y)

/-- The compressor's state `s(y)` when row `y` is compressed (R150, R180). -/
def rowState (w : Nat) (grid : Nat → Nat → Byte) (y : Nat) : Option (List Byte) :=
  if y = 0 then none else some (packedRow w grid (y - 1))

/-- The compressed forms of the first `h` rows, concatenated (R180, R191). -/
def encodeRows (w : Nat) (grid : Nat → Nat → Byte) (h : Nat) : List Byte :=
  (List.range h).flatMap (fun y => compress (packedRow w grid y) (rowState w grid y))

/-- `EncodedBitmap` (00_scope.md rule R16): the three values of the output boundary. -/
structure EncodedBitmap where
  byteWidth : Nat
  pixelHeight : Nat
  tokenStream : List Byte
  deriving DecidableEq, Repr

/-- The Row Packer and then the Row Compressor for each row of a Bitmap, the CompressionState `s` carried from row to
row and the compressed rows concatenated (R180). The state after a row is its packed row (R150). -/
def encodeBitmap (s : Option (List Byte)) : List (List Bool) → List Byte
  | [] => []
  | bits :: rest => compress (pack bits) s ++ encodeBitmap (some (pack bits)) rest

/-- `encode(grid)` (R180): the Bit Sampler, then row by row the packer and the compressor from an empty state. That the
stream is R180's formula, `encodeRows`, is the law `encodeGrid_eq`. Its value for a dimension of 0 is a DESIGN CHOICE (log
entry 22). -/
def encodeGrid (w h : Nat) (grid : Nat → Nat → Byte) : EncodedBitmap :=
  ⟨ceil8 w, h, encodeBitmap none (sample w h grid)⟩

/-- The grid whose pixels in raster order are `px` (20_memory.md rule R66). That a pixel which is not among them reads as 0
is a DESIGN CHOICE (log entry 22). -/
def rasterGrid (w : Nat) (px : List Byte) (x y : Nat) : Byte := px.getD (y * w + x) 0

end Sys2Proof.Machine
end

