-- ==== Sys2Proof/WellFormed.lean ====
section
/-! DEFINITION. Well-formed token streams: the grammar of 30_encoding.md rule R98 with the sequences that rule
R106 excludes.

A single instruction has no ill-formed term: a stream character has no operand, and every 8-bit value is an
intensity (rules R99, R103). What can be ill-formed is a sequence of characters, and that is checked here. -/

namespace Sys2Proof

/-- What the checker of one row remembers. -/
structure RowScan where
  /-- hexadecimal characters of the row spelled so far -/
  len : Nat
  /-- the pending count, 0 for none -/
  cnt : Nat
  /-- the class of the last count character of the pending count -/
  stage : CountStage
  /-- the HEX character of the last item -/
  last : Option Nibble
  /-- how many single-character items of that character stand at the end, 0 after a counted item -/
  singles : Nat
  deriving DecidableEq, Repr

/-- The checker before the first character of a row. -/
def RowScan.init : RowScan := ⟨0, 0, .start, none, 0⟩

/-- A count is absent or at least RUNMIN = 3 (rule R106 item (a)). -/
def RowScan.countOk (r : RowScan) : Bool := r.cnt == 0 || 3 ≤ r.cnt

/-- The runs stay maximal when an item of character `d` follows: either the character changes, or both items
are single and there are two of them at most (rule R106 item (g)). -/
def RowScan.runOk (r : RowScan) (d : Nibble) : Bool :=
  r.last != some d || (r.cnt == 0 && r.singles == 1)

/-- The checker after an item of character `d`. -/
def RowScan.item (r : RowScan) (d : Nibble) : RowScan :=
  if r.cnt = 0 then
    { r with len := r.len + 1, stage := .start, last := some d,
             singles := if r.last = some d then r.singles + 1 else 1 }
  else { r with len := r.len + r.cnt, cnt := 0, stage := .start, last := some d, singles := 0 }

/-- A row that ends without a marker ends in a character other than `0` and `F` (rule R106 item (h)), has no
count pending (item (d)) and spells exactly `L` characters. -/
def RowScan.endOk (L : Nat) (r : RowScan) : Bool :=
  r.cnt == 0 && r.len == L && r.last != some 0x0 && r.last != some 0xF

/-- A marker fills at least one character, follows no count (rule R106 item (d)) and no item of its own
character (item (f)). -/
def RowScan.fillOk (L : Nat) (r : RowScan) (d : Nibble) : Bool :=
  r.cnt == 0 && r.len < L && r.last != some d

/-- The rest of a row of `L` characters that is not ROWREP (`item* marker` or `item+` of rule R98). -/
def rowTailOk (L : Nat) : RowScan → List Instr → Bool
  | r, [] => r.endOk L
  | r, i :: rest =>
    match i.kind with
    | .hex d => r.countOk && r.runOk d && rowTailOk L (r.item d) rest
    | .count c v => r.stage.allows c && rowTailOk L { r with cnt := r.cnt + v, stage := c } rest
    | .fill d => r.fillOk L d && rest.isEmpty
    | .rep => false
    | .beat => false

/-- The characters of one row (rule R98): ROWREP alone, for a row that is not the first (rule R106 item (e)),
or items and an optional marker. -/
def rowOk (L : Nat) (first : Bool) (cs : List Instr) : Bool :=
  if cs = [.rowrep] then !first else rowTailOk L .init cs

/-- The rows of one frame, the first of them marked (rule R98: `stream := row{HEIGHT}`). -/
def rowsOk (L : Nat) : Bool → List (List Instr) → Bool
  | _, [] => true
  | first, r :: rs => rowOk L first r && rowsOk L false rs

end Sys2Proof
end

