-- ==== Sys2Proof/Safety.lean ====
section
/-! DEFINITION. What a safe run is, in the terms the statements use: the invariants of 10_state.md rule R47, what the
histories hold during a frame (41_packer.md rule R137; 42_compressor.md rules R164, R165; 43_sequencer.md rule R190),
the steps still to come (70_reset_and_hazards.md rule R266), the state that a step can depend on (10_state.md rule R47
item (i)), and the invariant of the reader (44_token_stream.md rule R200). -/

namespace Sys2Proof.Machine

/-- The event of the next step: quiet ports of ZEB when nothing is scheduled (log entry 8). -/
def State.nextEvent (s : State) : Event := s.sched.head?.getD (.zeb .quiet)

/-- The state with the event of the next step taken off the schedule. -/
def State.popped (s : State) : State := { s with sched := s.sched.tail }

/-- `n` steps of the machine, as `Host.Core.run` takes them: a run stops at the first fault or refusal. -/
def State.run : Nat → State → Host.Outcome State Fault Refusal
  | 0, s => .next s
  | n + 1, s =>
    match step s with
    | .next t => t.run n
    | .fault f => .fault f
    | .refused r => .refused r

/-- The HEX characters with the nibbles they stand for (30_encoding.md rule R92). -/
def hexMeanings : List (Instr × Nibble) :=
  [(.hex0, 0x0), (.hex1, 0x1), (.hex2, 0x2), (.hex3, 0x3), (.hex4, 0x4), (.hex5, 0x5), (.hex6, 0x6), (.hex7, 0x7),
   (.hex8, 0x8), (.hex9, 0x9), (.hexA, 0xA), (.hexB, 0xB), (.hexC, 0xC), (.hexD, 0xD), (.hexE, 0xE), (.hexF, 0xF)]

/-- The CNT1 characters with the counts they add (R95). -/
def cnt1Meanings : List (Instr × Nat) :=
  [(.cnt1_1, 1), (.cnt1_2, 2), (.cnt1_3, 3), (.cnt1_4, 4), (.cnt1_5, 5), (.cnt1_6, 6), (.cnt1_7, 7), (.cnt1_8, 8),
   (.cnt1_9, 9), (.cnt1_10, 10), (.cnt1_11, 11), (.cnt1_12, 12), (.cnt1_13, 13), (.cnt1_14, 14), (.cnt1_15, 15),
   (.cnt1_16, 16), (.cnt1_17, 17), (.cnt1_18, 18), (.cnt1_19, 19)]

/-- The CNT20 characters with the counts they add (R96). -/
def cnt20Meanings : List (Instr × Nat) :=
  [(.cnt20_1, 20), (.cnt20_2, 40), (.cnt20_3, 60), (.cnt20_4, 80), (.cnt20_5, 100), (.cnt20_6, 120),
   (.cnt20_7, 140), (.cnt20_8, 160), (.cnt20_9, 180), (.cnt20_10, 200), (.cnt20_11, 220), (.cnt20_12, 240),
   (.cnt20_13, 260), (.cnt20_14, 280), (.cnt20_15, 300), (.cnt20_16, 320), (.cnt20_17, 340), (.cnt20_18, 360),
   (.cnt20_19, 380)]

/-- MAXW and MAXH are at least 1 (00_scope.md rule R8). -/
structure Params.Ok (p : Params) : Prop where
  maxW : 1 ≤ p.maxW
  maxH : 1 ≤ p.maxH

/-- The character belongs to the alphabet of 30_encoding.md rule R91. -/
def inAlphabet (c : Byte) : Bool :=
  match decodeToken c with
  | .ok _ => true
  | .error _ => false

/-- `m[a..b-1]` all hold `v`. -/
def Memory.allEq (m : Memory) (a b : Nat) (v : Nibble) : Prop := ∀ k, a ≤ k → k < b → m.read k = some v

/-- `m[0..n-1]` all hold a value. -/
def Memory.held (m : Memory) (n : Nat) : Prop := ∀ k, k < n → (m.read k).isSome

/-- The bits of a row that PACK has passed or SR holds, pixels and padding (R137): a byte is two nibbles. -/
def Zeb.bitsIn (z : Zeb) : Nat := 8 * (z.ni / 2) + z.bc

/-- Both row buffers are in canonical form and lie inside MAXNIB entries (10_state.md rules R34, R35). -/
structure Zeb.BufOk (p : Params) (z : Zeb) : Prop where
  curWf : z.cur.wf
  prevWf : z.prev.wf
  curIn : ∀ e ∈ z.cur, e.1 < p.maxNib
  prevIn : ∀ e ∈ z.prev, e.1 < p.maxNib

/-- What holds in every PHASE other than IDLE (R47 items (a), (b), (e); R21, R22, R185). -/
structure Zeb.FrameOk (p : Params) (z : Zeb) : Prop where
  width : 1 ≤ z.width ∧ z.width ≤ p.maxW
  height : 1 ≤ z.height ∧ z.height ≤ p.maxH
  x : z.x ≤ z.width
  y : z.y ≤ z.height
  yDone : z.y = z.height ↔ z.phase = .done
  bc : z.bc ≤ 8
  ni : z.ni ≤ z.rowLen
  sr : z.sr.toNat < 2 ^ z.bc
  pv : z.pv = true ↔ 1 ≤ z.y
  prev : z.pv = true → z.prev.held z.rowLen
  taken : z.taken.length = z.y * z.width + z.x

/-- What holds in PHASE = LOAD (R47 items (c), (d); 42_compressor.md rules R152, R153). -/
structure Zeb.LoadOk (z : Zeb) : Prop where
  even : z.bc < 8 → z.ni % 2 = 0
  early : z.x < z.width → z.bitsIn = z.x
  late : z.x ≤ z.bitsIn
  inRow : z.bitsIn ≤ 4 * z.rowLen
  held : z.cur.held z.ni
  tail : 1 ≤ z.ni →
    z.ts < z.ni ∧ z.cur.allEq z.ts z.ni z.ln ∧ (z.ts = 0 ∨ z.cur.read (z.ts - 1) ≠ some z.ln)
  same : z.eq = true ↔ z.pv = true ∧ ∀ k, k < z.ni → z.cur.read k = z.prev.read k

/-- The row is packed: PHASE = SCAN, CNT or EOR. -/
structure Zeb.PackedOk (z : Zeb) : Prop where
  x : z.x = z.width
  bc : z.bc = 0
  ni : z.ni = z.rowLen
  held : z.cur.held z.rowLen

/-- What holds in PHASE = SCAN and CNT (R47 item (f)). -/
structure Zeb.ScanOk (z : Zeb) : Prop where
  si : z.si ≤ z.te
  te : z.te ≤ z.rowLen
  markNone : z.tm = .none → z.te = z.rowLen
  markSome : z.tm ≠ .none →
    z.te < z.rowLen ∧ z.tm.nibble = some z.ln ∧ z.cur.allEq z.te z.rowLen z.ln ∧
      (z.te = 0 ∨ z.cur.read (z.te - 1) ≠ some z.ln)

/-- The run held in RC and RN while the scan accumulates it (R47 item (g)). -/
def Zeb.RunOk (z : Zeb) : Prop := z.rn ≤ z.si ∧ z.cur.allEq (z.si - z.rn) z.si z.rc

/-- The run being emitted in PHASE = CNT, of length `n` when RLE fired (R47 item (h)). -/
def Zeb.CountOk (z : Zeb) : Prop :=
  ∃ n, 3 ≤ n ∧ n ≤ z.si ∧ z.rn ≤ n ∧ z.cur.allEq (z.si - n) z.si z.rc

/-- The invariants of rule R47 over ZEB. -/
structure Zeb.Inv (p : Params) (z : Zeb) : Prop where
  buf : z.BufOk p
  eqPv : z.eq = true → z.pv = true
  alphabet : ∀ e ∈ z.out, inAlphabet e.1 = true
  idle : z.phase = .idle → z.pv = false
  frame : z.phase ≠ .idle → z.FrameOk p
  load : z.phase = .load → z.LoadOk
  packed : z.phase = .scan ∨ z.phase = .cnt ∨ z.phase = .eor → z.PackedOk
  scan : z.phase = .scan ∨ z.phase = .cnt → z.ScanOk
  run : z.phase = .scan → z.RunOk
  count : z.phase = .cnt → z.CountOk
  finished : z.phase = .done → z.x = 0 ∧ z.ni = 0 ∧ z.bc = 0

/-- The invariant of the reader (R200, R208, R209): completed rows have L nibbles, the row under construction has
fewer, a count is pending exactly when count characters have been read, and an accepted stream ended as R209 says. -/
structure Reader.Inv (r : Reader) : Prop where
  rows : ∀ row ∈ r.rows, row.length = r.rowLen
  cur : r.cur = [] ∨ r.cur.length < r.rowLen
  count : r.cnt = 0 ↔ r.stage = .start
  accepted : r.verdict = .accepted → r.cur = [] ∧ r.cnt = 0 ∧ r.rows.length = r.pixelHeight

/-- The invariant of the whole machine. -/
structure State.Inv (s : State) : Prop where
  params : s.params.Ok
  zeb : s.zeb.Inv s.params
  reader : s.reader.Inv

/-- The grid that the pixel beats of the frame have delivered (20_memory.md rule R66). -/
def Zeb.grid (z : Zeb) : Nat → Nat → Byte := rasterGrid z.width z.taken

/-- The bits of the row being sampled. -/
def Zeb.rowSoFar (z : Zeb) : List Bool := (z.taken.drop (z.y * z.width)).map thr

/-- The characters of OUT. -/
def Zeb.chars (z : Zeb) : List Byte := z.out.map Prod.fst

/-- The characters of CUR from `a` to `b-1`. -/
def Zeb.curChars (z : Zeb) (a b : Nat) : List Byte :=
  (List.range' a (b - a)).map (fun k => hexChar ((z.cur.read k).getD 0))

/-- The part of the row's compressed form that the scan has still to emit (R165). -/
def Zeb.pending (z : Zeb) : List Byte :=
  match z.phase with
  | .scan => rle (List.replicate z.rn (hexChar z.rc) ++ z.curChars z.si z.te ++ z.tm.char.toList)
  | .cnt => countToken z.rn ++ [hexChar z.rc] ++ rle (z.curChars z.si z.te ++ z.tm.char.toList)
  | .idle | .load | .eor | .done => []

/-- The last character of the frame has been emitted (R164). -/
def Zeb.streamEnded (z : Zeb) : Prop :=
  z.phase = .done ∨ (z.lastRow = true ∧ (z.phase = .eor ∨ (z.phase = .scan ∧ z.rn = 0 ∧ z.scanEnds = true)))

/-- What the row buffers, SR and the histories hold during a frame (R137, R164, R165, R190). -/
structure Zeb.Trace (z : Zeb) : Prop where
  prev : z.pv = true → ∀ k, k < z.rowLen →
    z.prev.read k = some (nibbleAt (rowBits z.width z.grid (z.y - 1)) (4 * k))
  loading : z.phase = .load →
    (∀ k, k < z.ni → z.cur.read k = some (nibbleAt z.rowSoFar (4 * k))) ∧
      ∀ j, j < z.bc → z.sr.getLsbD (z.bc - 1 - j) = z.rowSoFar.getD (8 * (z.ni / 2) + j) false
  packed : z.phase = .scan ∨ z.phase = .cnt ∨ z.phase = .eor → ∀ k, k < z.rowLen →
    z.cur.read k = some (nibbleAt (rowBits z.width z.grid z.y) (4 * k))
  rowsOut : z.phase = .load ∨ z.phase = .done → z.chars = encodeRows z.width z.grid z.y
  rowOut : z.phase = .scan ∨ z.phase = .cnt ∨ z.phase = .eor →
    z.chars ++ z.pending = encodeRows z.width z.grid (z.y + 1)
  lastOne : z.streamEnded → ∃ front c, z.out = front ++ [(c, true)] ∧ ∀ e ∈ front, e.2 = false
  lastNone : ¬ z.streamEnded → ∀ e ∈ z.out, e.2 = false

/-- The trace holds while a frame is in progress or done. -/
def State.Traced (s : State) : Prop := s.zeb.phase ≠ .idle → s.zeb.Trace

/-- How many steps of the current row are left (R266: SAMP and PAD 8 a byte, PACK 1 a nibble, at most 3 a nibble for
the scan, 1 each for TRAIL or ROWREP, EOL and COMMIT). -/
def Zeb.rowWork (z : Zeb) : Nat :=
  match z.phase with
  | .load => (4 * z.rowLen - z.bitsIn) + (z.rowLen - z.ni) + 3 * z.rowLen + 3
  | .scan => 3 * (z.te - z.si) + 2 * z.rn + 2
  | .cnt => 3 * (z.te - z.si) + z.rn + 3
  | .eor => 1
  | .idle | .done => 0

/-- The bound of rule R266 on the steps of one row. -/
def Zeb.rowBound (z : Zeb) : Nat := 8 * z.byteWidth + 4 * z.rowLen + 3

/-- The bound of rule R266 on the steps that are left of the frame. -/
def Zeb.work (z : Zeb) : Nat :=
  if z.busy then z.rowWork + (z.height - z.y - 1) * z.rowBound else 0

/-- ZEB waits for a port event that these ports do not bring (60_exceptions.md rule R229 items (a), (b), (c)). -/
def Zeb.waits (p : PortIn) (z : Zeb) : Prop :=
  ((z.phase = .idle ∨ z.phase = .done) ∧ p.cmd = none) ∨
    (z.phase = .load ∧ z.bc < 8 ∧ z.x < z.width ∧ p.pix = none) ∨
    (z.tokOffer.isSome = true ∧ p.tokReady = false)

/-- Ports on which nothing makes ZEB wait: no reset, a pixel offered, the sink ready. R267 asks less of the outside
world: `State.Fair`. -/
def PortIn.willing (p : PortIn) : Prop := p.rst = false ∧ p.pix.isSome = true ∧ p.tokReady = true

/-- `s` with the first `n` events of the endless schedule `ev` put before its own. -/
def State.driven (s : State) (ev : Nat → Event) (n : Nat) : State :=
  { s with sched := (List.range n).map ev ++ s.sched }

/-- The fairness assumptions of R267 for the run from `s` under the endless schedule `ev`, in which events of the
reader may stand between those of ZEB and any wait may last any finite number of steps. Event `m` is the step from the
state after `m` events. -/
structure State.Fair (s : State) (ev : Nat → Event) : Prop where
  /-- no RESET -/
  noReset : ∀ n p, ev n = .zeb p → p.rst = false
  /-- (a): whenever `pix_ready` = 1, the pixel source eventually offers a pixel -/
  pixel : ∀ n t, (s.driven ev n).run n = .next t → t.zeb.pixReady = true →
    ∃ m, n ≤ m ∧ ∃ p, ev m = .zeb p ∧ p.pix.isSome = true
  /-- (b): whenever `tok_valid` = 1, the sink is eventually ready -/
  sink : ∀ n t, (s.driven ev n).run n = .next t → t.zeb.tokOffer.isSome = true →
    ∃ m, n ≤ m ∧ ∃ p, ev m = .zeb p ∧ p.tokReady = true
  /-- (c): ZEB always gets another step, so an enabled micro-operation that waits for nothing eventually fires -/
  turns : ∀ n, ∃ m, n ≤ m ∧ ∃ p, ev m = .zeb p

/-- Two states of ZEB that differ at most in registers and row-buffer entries that no step reads before writing them
(R47 item (i); R190: stale contents do not matter). -/
structure Zeb.SameLive (a b : Zeb) : Prop where
  phase : a.phase = b.phase
  err : a.err = b.err
  pv : a.pv = b.pv
  eq : a.eq = b.eq
  out : a.out = b.out
  taken : a.taken = b.taken
  draws : a.draws = b.draws
  frame : a.phase ≠ .idle → a.width = b.width ∧ a.height = b.height ∧ a.y = b.y ∧ a.x = b.x ∧ a.sr = b.sr ∧
    a.bc = b.bc ∧ a.ni = b.ni ∧ (∀ k, k < a.ni → a.cur.read k = b.cur.read k)
  prev : a.pv = true → ∀ k, k < a.rowLen → a.prev.read k = b.prev.read k
  tail : a.phase = .load → 1 ≤ a.ni → a.ts = b.ts ∧ a.ln = b.ln
  scan : a.phase = .scan ∨ a.phase = .cnt → a.te = b.te ∧ a.tm = b.tm ∧ a.si = b.si ∧ a.rn = b.rn
  run : (a.phase = .scan ∧ 1 ≤ a.rn) ∨ a.phase = .cnt → a.rc = b.rc

/-- Two machines that differ at most in what no step of ZEB can depend on. -/
structure State.SameLive (a b : State) : Prop where
  params : a.params = b.params
  zeb : a.zeb.SameLive b.zeb
  reader : a.reader = b.reader
  sched : a.sched = b.sched

end Sys2Proof.Machine
end

