-- ==== Sys2Proof/Certificates/Slice0/Obligations.lean ====
section
/-! DEFINITION. The statements for the provers. Each docstring names the rules of spec/ it rests on, and the log entry
where a clause is the model's choice. -/

open Sys2Proof Sys2Proof.Machine

/-! ### Encoding -/

/-- A word on a port decodes to an instruction exactly when it is that instruction's word: no bit of an encoding is
dropped, no two instructions share a word, and no other word decodes (R90, R99, R103, R105). -/
def Obligations.DecodesExactlyEncodings : Prop :=
  ∀ (w : PortWord) (i : Instr), decode w = .ok i ↔ w = encode i

/-- The classes of the token alphabet are the ranges of character codes of R99, with the values of R92, R95, R96 and
R97, and every other code is outside the alphabet. -/
def Obligations.AlphabetByRanges : Prop :=
  ∀ c : Byte,
    (match decodeToken c with
      | .ok i => some i.kind
      | .error _ => none) =
      if c.toNat = 0x21 then some (.fill 0xF)
      else if c.toNat = 0x2C then some (.fill 0x0)
      else if 0x30 ≤ c.toNat ∧ c.toNat ≤ 0x39 then some (.hex (BitVec.ofNat 4 (c.toNat - 0x30)))
      else if c.toNat = 0x3A then some .rep
      else if 0x41 ≤ c.toNat ∧ c.toNat ≤ 0x46 then some (.hex (BitVec.ofNat 4 (c.toNat - 0x37)))
      else if 0x47 ≤ c.toNat ∧ c.toNat ≤ 0x59 then some (.count .ones (c.toNat - 0x46))
      else if 0x67 ≤ c.toNat ∧ c.toNat ≤ 0x79 then some (.count .twenties (20 * (c.toNat - 0x66)))
      else if c.toNat = 0x7A then some (.count .fourHundreds 400)
      else none

/-- Words written out from the tables of 30_encoding.md decode to the instructions they stand for: one of each class,
an intensity with the code of `:` on the pixel port, and a lowercase `a` refused (R91 to R97, R103, R105). -/
def Obligations.DecodesWrittenWords : Prop :=
  decode ⟨.token, 0b01000001⟩ = .ok .hexA ∧ decode ⟨.token, 0b00110111⟩ = .ok .hex7 ∧
    decode ⟨.token, 0b01011001⟩ = .ok .cnt1_19 ∧ decode ⟨.token, 0b01100111⟩ = .ok .cnt20_1 ∧
    decode ⟨.token, 0b01111010⟩ = .ok .cnt400 ∧ decode ⟨.token, 0b00101100⟩ = .ok .fill0 ∧
    decode ⟨.token, 0b00100001⟩ = .ok .fillF ∧ decode ⟨.token, 0b00111010⟩ = .ok .rowrep ∧
    decode ⟨.pixel, 0b00111010⟩ = .ok (.pix 0x3A) ∧
    decode ⟨.token, 0b01100001⟩ = .error (.outsideAlphabet 0x61)

/-- The characters that ZEB computes (HEXCHAR, `chr('F' + n)`, `chr('f' + q)`) read back as what they stand for
(R92, R95, R96). -/
def Obligations.CharactersReadBack : Prop :=
  (∀ v : Nibble, ∃ i, decodeToken (hexChar v) = .ok i ∧ i.kind = .hex v) ∧
    (∀ n, 1 ≤ n → n ≤ 19 → ∃ i, decodeToken (count1Char n) = .ok i ∧ i.kind = .count .ones n) ∧
    (∀ q, 1 ≤ q → q ≤ 19 → ∃ i, decodeToken (count20Char q) = .ok i ∧ i.kind = .count .twenties (20 * q))

/-! ### Level F: the source's contracts -/

/-- Packing (R130, R131, R133): the packed row has 2 * byteWidth nibbles, bit `i` of nibble `k` from the left is bit
`4 * k + i` of the row, and a bit past the end of the row is 0. For an empty row it is the model's choice (log entry
22). -/
def Obligations.PackedRowBits : Prop :=
  ∀ bits : List Bool,
    (packNib bits).length = 2 * ((bits.length + 7) / 8) ∧ pack bits = (packNib bits).map hexChar ∧
      ∀ k i, k < 2 * ((bits.length + 7) / 8) → i < 4 →
        ((packNib bits).getD k 0).getMsbD i = bits.getD (4 * k + i) false

/-- Runs are maximal (R14): put together again they are the string, each has at least one character, and neighbours
differ. -/
def Obligations.RunsAreMaximal : Prop :=
  ∀ s : List Byte,
    (runs s).flatMap (fun r => List.replicate r.2 r.1) = s ∧ (∀ r ∈ runs s, 1 ≤ r.2) ∧
      (runs s).IsChain (fun a b => a.1 ≠ b.1)

/-- The count token spells its count in one way (R149, R98, R100): `n div 400` times `z`, then at most one CNT20
character, then at most one CNT1 character, and the values add up to `n`. For `n` below 3 it is the model's choice (log
entry 22). -/
def Obligations.CountTokenSpelling : Prop :=
  ∀ n : Nat, ∃ tw on : List (Instr × Nat),
    tw.length ≤ 1 ∧ on.length ≤ 1 ∧ (∀ e ∈ tw, e ∈ cnt20Meanings) ∧ (∀ e ∈ on, e ∈ cnt1Meanings) ∧
      countToken n = List.replicate (n / 400) 0x7A ++ (tw ++ on).map (fun e => (encode e.1).code) ∧
      400 * (n / 400) + ((tw ++ on).map Prod.snd).sum = n

/-- Every row emits at least 1 and at most ROWLEN characters, whatever the row before, so a stream has between HEIGHT
and HEIGHT * ROWLEN characters (R166). For a height of 0, outside the source's domain, it is the model's choice (log
entry 22). -/
def Obligations.CompressionNeverExpands : Prop :=
  ∀ (w : Nat) (g : Nat → Nat → Byte), 1 ≤ w →
    (∀ y s, 1 ≤ (compress (packedRow w g y) s).length ∧
      (compress (packedRow w g y) s).length ≤ 2 * ((w + 7) / 8)) ∧
    ∀ h, h ≤ (encodeRows w g h).length ∧ (encodeRows w g h).length ≤ h * (2 * ((w + 7) / 8))

/-- Two frames with equal dimensions and equal thresholded bits give equal streams, whatever their intensities
(R190). For a dimension of 0, outside the source's domain, it is the model's choice (log entry 22). -/
def Obligations.EqualBitsEqualStreams : Prop :=
  ∀ (w h : Nat) (g g' : Nat → Nat → Byte),
    (∀ x y, x < w → y < h → (((g x y).toNat < 127) ↔ ((g' x y).toNat < 127))) →
    encodeGrid w h g = encodeGrid w h g'

/-- Every stream has the form of the grammar, with none of the sequences that ZEB never emits: HEIGHT rows, each of
which the checker of WellFormed accepts (R98, R106). For a height of 0, outside the source's domain, it is the model's
choice (log entry 22). -/
def Obligations.StreamsFollowGrammar : Prop :=
  ∀ (w h : Nat) (g : Nat → Nat → Byte), 1 ≤ w →
    ∃ rows : List (List Instr), rows.length = h ∧ rowsOk (2 * ((w + 7) / 8)) true rows = true ∧
      encodeRows w g h = rows.flatten.map (fun i => (encode i).code)

/-! ### The pixel beat -/

/-- SAMP (R122): in PHASE = LOAD with BC < 8 and X < WIDTH a pixel beat shifts its thresholded bit into SR and advances
BC and X; apart from the model's history of the pixel port (log entry 6) nothing else changes. -/
def Obligations.PixelTaken : Prop :=
  ∀ (s : State) (i : Byte), s.zeb.phase = .load → s.zeb.bc < 8 → s.zeb.x < s.zeb.width →
    ∃ history, exec (.pix i) s = .next { s with zeb := { s.zeb with
      sr := (s.zeb.sr <<< 1) ||| (if i.toNat < 127 then 1 else 0), bc := s.zeb.bc + 1, x := s.zeb.x + 1,
      taken := history } }

/-- A beat offered while `pix_ready` = 0 is not taken: nothing changes (R66, R64). -/
def Obligations.PixelNotTaken : Prop :=
  ∀ (s : State) (i : Byte), ¬ (s.zeb.phase = .load ∧ s.zeb.bc < 8 ∧ s.zeb.x < s.zeb.width) →
    exec (.pix i) s = .next s

/-! ### The stream characters, as DEC reads them -/

/-- HEX (R201), DEC: `n` copies of the nibble join the row, the pending count is cleared, and a row of L nibbles is
completed; a run that would cross the end of the row is refused. `order` is the model's own field (log entry 11). That a
refusal changes the verdict and nothing else is the model's choice (log entry 20). -/
def Obligations.HexReads : Prop :=
  ∀ (s : State) (i : Instr) (d : Nibble) (n : Nat), (i, d) ∈ hexMeanings → s.reader.verdict = .reading →
    s.reader.strict = false → n = (if 1 ≤ s.reader.cnt then s.reader.cnt else 1) →
    (s.reader.cur.length + n < 2 * s.reader.byteWidth → ∃ order, exec i s = .next { s with reader := { s.reader with
      cur := s.reader.cur ++ List.replicate n d, cnt := 0, stage := order } }) ∧
    (s.reader.cur.length + n = 2 * s.reader.byteWidth → ∃ order, exec i s = .next { s with reader := { s.reader with
      rows := s.reader.rows ++ [s.reader.cur ++ List.replicate n d], cur := [], cnt := 0, stage := order } }) ∧
    (2 * s.reader.byteWidth < s.reader.cur.length + n →
      exec i s = .next { s with reader := { s.reader with verdict := .refused .rowOverflow } })

/-- HEX in the strict variant DEC-S (R211, R106 item (a); log entry 11): a count of 1 or 2 is refused, and any other
count is treated as DEC treats it. That a refusal changes the verdict and nothing else is the model's choice (log
entry 20). -/
def Obligations.StrictHexReads : Prop :=
  ∀ (s : State) (i : Instr) (d : Nibble) (n : Nat), (i, d) ∈ hexMeanings → s.reader.verdict = .reading →
    s.reader.strict = true → n = (if 1 ≤ s.reader.cnt then s.reader.cnt else 1) →
    (s.reader.cnt = 1 ∨ s.reader.cnt = 2 →
      exec i s = .next { s with reader := { s.reader with verdict := .refused .countTooSmall } }) ∧
    (s.reader.cnt ≠ 1 → s.reader.cnt ≠ 2 →
      (s.reader.cur.length + n < 2 * s.reader.byteWidth → exec i s = .next { s with reader := { s.reader with
        cur := s.reader.cur ++ List.replicate n d, cnt := 0, stage := .start } }) ∧
      (s.reader.cur.length + n = 2 * s.reader.byteWidth → exec i s = .next { s with reader := { s.reader with
        rows := s.reader.rows ++ [s.reader.cur ++ List.replicate n d], cur := [], cnt := 0, stage := .start } }) ∧
      (2 * s.reader.byteWidth < s.reader.cur.length + n →
        exec i s = .next { s with reader := { s.reader with verdict := .refused .rowOverflow } }))

/-- CNT1 (R202), DEC: the pending count grows by 1..19 and nothing else changes. `order` is the model's own field (log
entry 11). -/
def Obligations.Cnt1Reads : Prop :=
  ∀ (s : State) (i : Instr) (n : Nat), (i, n) ∈ cnt1Meanings → s.reader.verdict = .reading →
    s.reader.strict = false →
    ∃ order, exec i s = .next { s with reader := { s.reader with cnt := s.reader.cnt + n, stage := order } }

/-- CNT20 (R203), DEC: the pending count grows by 20..380 in steps of 20 and nothing else changes. `order` is the
model's own field (log entry 11). -/
def Obligations.Cnt20Reads : Prop :=
  ∀ (s : State) (i : Instr) (v : Nat), (i, v) ∈ cnt20Meanings → s.reader.verdict = .reading →
    s.reader.strict = false →
    ∃ order, exec i s = .next { s with reader := { s.reader with cnt := s.reader.cnt + v, stage := order } }

/-- CNT400 (R204), DEC: the pending count grows by 400 and nothing else changes. `order` is the model's own field (log
entry 11). -/
def Obligations.Cnt400Reads : Prop :=
  ∀ s : State, s.reader.verdict = .reading → s.reader.strict = false →
    ∃ order, exec .cnt400 s = .next { s with reader := { s.reader with cnt := s.reader.cnt + 400, stage := order } }

/-- The count characters in the strict variant DEC-S (R211, R106 items (b) and (c)): a character that may follow in the
order CNT400, CNT20, CNT1 adds its value, any other is refused at once (log entry 11). That a refusal changes the verdict
and nothing else is the model's choice (log entry 20). -/
def Obligations.StrictCountsRead : Prop :=
  ∀ (s : State) (i : Instr) (v : Nat), s.reader.verdict = .reading → s.reader.strict = true →
    ((i, v) ∈ cnt1Meanings →
      exec i s = .next { s with reader :=
        if s.reader.stage = .ones then { s.reader with verdict := .refused .countOrder }
        else { s.reader with cnt := s.reader.cnt + v, stage := .ones } }) ∧
    ((i, v) ∈ cnt20Meanings →
      exec i s = .next { s with reader :=
        if s.reader.stage = .ones ∨ s.reader.stage = .twenties then
          { s.reader with verdict := .refused .countOrder }
        else { s.reader with cnt := s.reader.cnt + v, stage := .twenties } }) ∧
    exec .cnt400 s = .next { s with reader :=
      if s.reader.stage = .ones ∨ s.reader.stage = .twenties then { s.reader with verdict := .refused .countOrder }
      else { s.reader with cnt := s.reader.cnt + 400, stage := .fourHundreds } }

/-- FILL0 (R205), DEC and DEC-S: with no count pending the rest of the row is 0x0 and the row is completed; after a
count it is refused. That a refusal changes the verdict and nothing else is the model's choice (log entry 20). -/
def Obligations.Fill0Reads : Prop :=
  ∀ s : State, s.reader.verdict = .reading →
    (s.reader.cnt = 0 → s.reader.cur.length < 2 * s.reader.byteWidth →
      exec .fill0 s = .next { s with reader := { s.reader with
        rows := s.reader.rows ++
          [s.reader.cur ++ List.replicate (2 * s.reader.byteWidth - s.reader.cur.length) 0x0],
        cur := [] } }) ∧
    (s.reader.cnt ≠ 0 →
      exec .fill0 s = .next { s with reader := { s.reader with verdict := .refused .countBeforeMark } })

/-- FILLF (R206), DEC and DEC-S: as FILL0 with 0xF, the model's choice of log entry 20 included. -/
def Obligations.FillFReads : Prop :=
  ∀ s : State, s.reader.verdict = .reading →
    (s.reader.cnt = 0 → s.reader.cur.length < 2 * s.reader.byteWidth →
      exec .fillF s = .next { s with reader := { s.reader with
        rows := s.reader.rows ++
          [s.reader.cur ++ List.replicate (2 * s.reader.byteWidth - s.reader.cur.length) 0xF],
        cur := [] } }) ∧
    (s.reader.cnt ≠ 0 →
      exec .fillF s = .next { s with reader := { s.reader with verdict := .refused .countBeforeMark } })

/-- The model's choice (log entry 10): a marker on a row that is already full is refused. No row is full when a marker
is read unless L = 0. That a refusal changes the verdict and nothing else is its choice too (log entry 20). -/
def Obligations.FillOnFullRow : Prop :=
  ∀ (s : State) (i : Instr), i = .fill0 ∨ i = .fillF → s.reader.verdict = .reading → s.reader.cnt = 0 →
    2 * s.reader.byteWidth ≤ s.reader.cur.length →
    exec i s = .next { s with reader := { s.reader with verdict := .refused .fillOnFullRow } }

/-- ROWREP (R207), DEC and DEC-S: between rows, with no count pending and a row before it, `:` completes a copy of the
last row; after a count, inside a row or as the first row it is refused. That a refusal changes the verdict and nothing
else is the model's choice (log entry 20). -/
def Obligations.RowrepReads : Prop :=
  ∀ s : State, s.reader.verdict = .reading →
    (∀ front row, s.reader.cnt = 0 → s.reader.cur = [] → s.reader.rows = front ++ [row] →
      exec .rowrep s = .next { s with reader := { s.reader with rows := s.reader.rows ++ [row] } }) ∧
    (s.reader.cnt ≠ 0 ∨ s.reader.cur ≠ [] ∨ s.reader.rows = [] →
      ∃ why, exec .rowrep s = .next { s with reader := { s.reader with verdict := .refused why } })

/-- The model's choice (log entry 9): a reader that has no stream, or has accepted or refused one, is not changed by a
character. -/
def Obligations.ReaderRests : Prop :=
  ∀ (s : State) (i : Instr), (encode i).port = .token → s.reader.verdict ≠ .reading → exec i s = .next s

/-! ### Steps of the reader -/

/-- A step runs the decoded instruction: the reader's step at a stream whose first character decodes to `i` is `exec i`
at the state in which that character is read and the event is over. -/
def Obligations.StepRunsCharacter : Prop :=
  ∀ (s : State) (c : Byte) (cs : List Byte) (i : Instr), s.nextEvent = .read → s.reader.verdict = .reading →
    s.reader.stream = c :: cs → decode ⟨.token, c⟩ = .ok i →
    step s = exec i { s.popped with reader := { s.reader with stream := cs } }

/-- A step runs the decoded instruction: a step of ZEB that is offered a pixel and is ready for it is `exec` of the
pixel beat at the state in which the event is over (R66, R122). -/
def Obligations.StepRunsPixel : Prop :=
  ∀ (s : State) (p : PortIn) (c : Byte) (i : Instr), s.nextEvent = .zeb p → p.rst = false → p.pix = some c →
    s.zeb.phase = .load → s.zeb.bc < 8 → s.zeb.x < s.zeb.width → decode ⟨.pixel, c⟩ = .ok i →
    step s = exec i s.popped

/-- A stream is handed over with its two dimensions and nothing is read yet (R200, R208; the event and the verdict are
the model's, log entries 8 and 9). That a stream which is still being read is dropped is the model's choice (log
entry 9). -/
def Obligations.StreamHandedOver : Prop :=
  ∀ (s : State) (stream : List Byte) (bw ph : Nat) (strict : Bool), s.nextEvent = .give stream bw ph strict →
    step s = .next { s.popped with reader :=
      { stream := stream, byteWidth := bw, pixelHeight := ph, strict := strict, rows := [], cur := [], cnt := 0,
        stage := .start, verdict := .reading } }

/-- A character outside the alphabet is refused (R105, R211). That it is taken off the stream, and that nothing else but
the verdict changes, is the model's choice (log entry 20). -/
def Obligations.BadCharacterRefused : Prop :=
  ∀ (s : State) (c : Byte) (cs : List Byte), s.nextEvent = .read → s.reader.verdict = .reading →
    s.reader.stream = c :: cs → (∀ i, (encode i).port = .token → (encode i).code ≠ c) →
    step s = .next { s.popped with reader := { s.reader with
      stream := cs, verdict := .refused (.outsideAlphabet c) } }

/-- The end of the stream (R209): accepted with `cur` empty, `cnt` = 0 and pixelHeight rows, refused otherwise. That the
verdict changes and nothing else is the model's choice where the stream is refused (log entry 20). -/
def Obligations.StreamEnds : Prop :=
  ∀ s : State, s.nextEvent = .read → s.reader.verdict = .reading → s.reader.stream = [] →
    (s.reader.cur = [] ∧ s.reader.cnt = 0 ∧ s.reader.rows.length = s.reader.pixelHeight →
      step s = .next { s.popped with reader := { s.reader with verdict := .accepted } }) ∧
    (¬ (s.reader.cur = [] ∧ s.reader.cnt = 0 ∧ s.reader.rows.length = s.reader.pixelHeight) →
      ∃ why, step s = .next { s.popped with reader := { s.reader with verdict := .refused why } })

/-! ### The micro-operations of ZEB -/

/-- RESET (R250): whatever the state and whatever else the ports offer, PHASE becomes IDLE, ERR, PV and EQ become 0 and
the history OUT empty; the outputs are those of an idle ZEB. -/
def Obligations.ResetFires : Prop :=
  ∀ (s : State) (p : PortIn), s.nextEvent = .zeb p → p.rst = true →
    ∃ z : Zeb, step s = .next { s.popped with zeb := z } ∧ z.phase = .idle ∧ z.err = false ∧ z.pv = false ∧
      z.eq = false ∧ z.out = [] ∧ z.cmdReady = true ∧ z.pixReady = false ∧ z.tokOffer = none ∧ z.busy = false ∧
      z.done = false

/-- START (R183): in IDLE or DONE an offered command either records BAD_DIM and changes nothing else, or latches the
dimensions and brings the frame's state to its initial value; of the registers not named, none changes. `w` and `h` are
the WW-bit and HW-bit numbers that the port carries (R104, log entry 19). `history` is the model's own (log entry 6). -/
def Obligations.StartFires : Prop :=
  ∀ (s : State) (p : PortIn) (c : Command) (w h : Nat), s.nextEvent = .zeb p → p.rst = false → p.cmd = some c →
    w = c.w % 2 ^ s.params.ww → h = c.h % 2 ^ s.params.hw → s.zeb.phase = .idle ∨ s.zeb.phase = .done →
    ((w = 0 ∨ h = 0 ∨ s.params.maxW < w ∨ s.params.maxH < h) →
      step s = .next { s.popped with zeb := { s.zeb with err := true } }) ∧
    (¬ (w = 0 ∨ h = 0 ∨ s.params.maxW < w ∨ s.params.maxH < h) →
      ∃ history, step s = .next { s.popped with zeb := { s.zeb with
        width := w, height := h, x := 0, y := 0, sr := 0, bc := 0, ni := 0, pv := false, eq := false,
        err := false, phase := .load, out := [], taken := history } })

/-- BAD_DIM (R222, R226): a START with an operand out of range sets ERR, leaves PHASE, the results and every other
register as they were, and offers nothing; and nothing else sets ERR. `w` and `h` are the WW-bit and HW-bit numbers that
the port carries (R104, log entry 19). -/
def Obligations.BadDimRecorded : Prop :=
  (∀ (s : State) (p : PortIn) (c : Command) (w h : Nat), s.nextEvent = .zeb p → p.rst = false → p.cmd = some c →
    w = c.w % 2 ^ s.params.ww → h = c.h % 2 ^ s.params.hw → s.zeb.phase = .idle ∨ s.zeb.phase = .done →
    (w = 0 ∨ h = 0 ∨ s.params.maxW < w ∨ s.params.maxH < h) →
    ∃ t : State, step s = .next t ∧ t.zeb.err = true ∧ t.zeb = { s.zeb with err := true } ∧
      t.zeb.byteWidth = s.zeb.byteWidth ∧ t.zeb.pixHeight = s.zeb.pixHeight ∧ t.zeb.done = s.zeb.done ∧
      t.zeb.pixReady = false ∧ t.zeb.tokOffer = none) ∧
  ∀ s t : State, step s = .next t → s.zeb.err = false → t.zeb.err = true →
    ∃ p c w h, s.nextEvent = .zeb p ∧ p.rst = false ∧ p.cmd = some c ∧ w = c.w % 2 ^ s.params.ww ∧
      h = c.h % 2 ^ s.params.hw ∧ (s.zeb.phase = .idle ∨ s.zeb.phase = .done) ∧
      (w = 0 ∨ h = 0 ∨ s.params.maxW < w ∨ s.params.maxH < h)

/-- PAD (R134). -/
def Obligations.PadFires : Prop :=
  ∀ (s : State) (p : PortIn), s.nextEvent = .zeb p → p.rst = false → s.zeb.phase = .load →
    s.zeb.x = s.zeb.width → 1 ≤ s.zeb.bc → s.zeb.bc ≤ 7 →
    step s = .next { s.popped with zeb := { s.zeb with sr := s.zeb.sr <<< 1, bc := s.zeb.bc + 1 } }

/-- PACK (R135) with its side effects on the comparator (R152) and the tail tracker (R153): entry NI of CUR, and no
other entry of a row buffer, becomes the nibble that the mux selects. -/
def Obligations.PackFires : Prop :=
  ∀ (s : State) (p : PortIn) (v : Nibble), s.nextEvent = .zeb p → p.rst = false → s.zeb.phase = .load →
    s.zeb.bc = 8 → s.zeb.ni < s.zeb.rowLen → (s.zeb.eq = true → (s.zeb.prev.read s.zeb.ni).isSome = true) →
    v = (if s.zeb.ni % 2 = 0 then s.zeb.sr.extractLsb' 4 4 else s.zeb.sr.extractLsb' 0 4) →
    ∃ m : Memory, (∀ k, m.read k = if k = s.zeb.ni then some v else s.zeb.cur.read k) ∧
      step s = .next { s.popped with zeb := { s.zeb with
        cur := m, ni := s.zeb.ni + 1,
        sr := if s.zeb.ni % 2 = 1 then 0 else s.zeb.sr, bc := if s.zeb.ni % 2 = 1 then 0 else s.zeb.bc,
        eq := s.zeb.eq && s.zeb.prev.read s.zeb.ni == some v,
        ts := if s.zeb.ni = 0 ∨ v ≠ s.zeb.ln then s.zeb.ni else s.zeb.ts, ln := v } }

/-- ROWREP (R154). -/
def Obligations.RowrepFires : Prop :=
  ∀ (s : State) (p : PortIn), s.nextEvent = .zeb p → p.rst = false → s.zeb.phase = .load →
    s.zeb.x = s.zeb.width → s.zeb.bc = 0 → s.zeb.pv = true → s.zeb.eq = true → p.tokReady = true →
    step s = .next { s.popped with zeb := { s.zeb with
      out := s.zeb.out ++ [(0x3A, decide (s.zeb.y + 1 = s.zeb.height))], phase := .eor } }

/-- TRAIL (R155). -/
def Obligations.TrailFires : Prop :=
  ∀ (s : State) (p : PortIn), s.nextEvent = .zeb p → p.rst = false → s.zeb.phase = .load →
    s.zeb.x = s.zeb.width → s.zeb.bc = 0 → ¬ (s.zeb.pv = true ∧ s.zeb.eq = true) →
    step s = .next { s.popped with zeb := { s.zeb with
      tm := if s.zeb.ln = 0x0 then .zero else if s.zeb.ln = 0xF then .eff else .none,
      te := if s.zeb.ln = 0x0 then s.zeb.ts else if s.zeb.ln = 0xF then s.zeb.ts else s.zeb.rowLen,
      si := 0, rn := 0, phase := .scan } }

/-- ACC (R156). -/
def Obligations.AccFires : Prop :=
  ∀ (s : State) (p : PortIn) (v : Nibble), s.nextEvent = .zeb p → p.rst = false → s.zeb.phase = .scan →
    s.zeb.si < s.zeb.te → s.zeb.te ≤ s.zeb.rowLen → s.zeb.cur.read s.zeb.si = some v →
    (s.zeb.rn = 0 ∨ v = s.zeb.rc) →
    step s = .next { s.popped with zeb := { s.zeb with rc := v, rn := s.zeb.rn + 1, si := s.zeb.si + 1 } }

/-- LIT (R157), with "closed" of R168 and `tok_last` of R164. -/
def Obligations.LitFires : Prop :=
  ∀ (s : State) (p : PortIn), s.nextEvent = .zeb p → p.rst = false → s.zeb.phase = .scan →
    1 ≤ s.zeb.rn → s.zeb.rn ≤ 2 → p.tokReady = true →
    (s.zeb.si = s.zeb.te ∨ (s.zeb.si < s.zeb.te ∧ s.zeb.te ≤ s.zeb.rowLen ∧
      ∃ v, s.zeb.cur.read s.zeb.si = some v ∧ v ≠ s.zeb.rc)) →
    step s = .next { s.popped with zeb := { s.zeb with
      out := s.zeb.out ++ [(hexChar s.zeb.rc, decide (s.zeb.rn = 1 ∧ s.zeb.si = s.zeb.te ∧ s.zeb.tm = .none ∧
        s.zeb.y + 1 = s.zeb.height))],
      rn := s.zeb.rn - 1 } }

/-- RLE (R158). -/
def Obligations.RleFires : Prop :=
  ∀ (s : State) (p : PortIn), s.nextEvent = .zeb p → p.rst = false → s.zeb.phase = .scan → 3 ≤ s.zeb.rn →
    (s.zeb.si = s.zeb.te ∨ (s.zeb.si < s.zeb.te ∧ s.zeb.te ≤ s.zeb.rowLen ∧
      ∃ v, s.zeb.cur.read s.zeb.si = some v ∧ v ≠ s.zeb.rc)) →
    step s = .next { s.popped with zeb := { s.zeb with phase := .cnt } }

/-- CNTZ (R159), CNT20 (R160) and CNT1 (R161): one character of the count, never the last of the stream, and RN is
what is left of the count. -/
def Obligations.CountCharactersFire : Prop :=
  ∀ (s : State) (p : PortIn), s.nextEvent = .zeb p → p.rst = false → s.zeb.phase = .cnt → p.tokReady = true →
    (400 ≤ s.zeb.rn → step s = .next { s.popped with zeb := { s.zeb with
      out := s.zeb.out ++ [(0x7A, false)], rn := s.zeb.rn - 400 } }) ∧
    (20 ≤ s.zeb.rn → s.zeb.rn ≤ 399 → step s = .next { s.popped with zeb := { s.zeb with
      out := s.zeb.out ++ [(BitVec.ofNat 8 (0x66 + s.zeb.rn / 20), false)], rn := s.zeb.rn % 20 } }) ∧
    (1 ≤ s.zeb.rn → s.zeb.rn ≤ 19 → step s = .next { s.popped with zeb := { s.zeb with
      out := s.zeb.out ++ [(BitVec.ofNat 8 (0x46 + s.zeb.rn), false)], rn := 0 } })

/-- REPC (R162). -/
def Obligations.RepcFires : Prop :=
  ∀ (s : State) (p : PortIn), s.nextEvent = .zeb p → p.rst = false → s.zeb.phase = .cnt → s.zeb.rn = 0 →
    p.tokReady = true →
    step s = .next { s.popped with zeb := { s.zeb with
      out := s.zeb.out ++ [(hexChar s.zeb.rc, decide (s.zeb.si = s.zeb.te ∧ s.zeb.tm = .none ∧
        s.zeb.y + 1 = s.zeb.height))],
      phase := .scan } }

/-- EOL (R163): the marker, if TM has one; with TM = NONE nothing is emitted and the sink is not waited for. -/
def Obligations.EolFires : Prop :=
  ∀ (s : State) (p : PortIn), s.nextEvent = .zeb p → p.rst = false → s.zeb.phase = .scan → s.zeb.rn = 0 →
    s.zeb.si = s.zeb.te → (s.zeb.tm ≠ .none → p.tokReady = true) →
    step s = .next { s.popped with zeb := { s.zeb with
      out := s.zeb.out ++ (match s.zeb.tm with
        | .none => []
        | .zero => [(0x2C, decide (s.zeb.y + 1 = s.zeb.height))]
        | .eff => [(0x21, decide (s.zeb.y + 1 = s.zeb.height))]),
      phase := .eor } }

/-- COMMIT (R184): the first ROWLEN entries of PREV, and no other entry of a row buffer, become those of CUR; the
machine is at the next row, or DONE. That CUR, and the entries of PREV past the row, keep their values is the model's
choice (R34, log entry 21). -/
def Obligations.CommitFires : Prop :=
  ∀ (s : State) (p : PortIn), s.nextEvent = .zeb p → p.rst = false → s.zeb.phase = .eor →
    (∀ k, k < s.zeb.rowLen → (s.zeb.cur.read k).isSome = true) →
    ∃ m : Memory, (∀ k, m.read k = if k < s.zeb.rowLen then s.zeb.cur.read k else s.zeb.prev.read k) ∧
      step s = .next { s.popped with zeb := { s.zeb with
        prev := m, pv := true, eq := true, y := s.zeb.y + 1, x := 0, ni := 0,
        phase := if s.zeb.y + 1 = s.zeb.height then .done else .load } }

/-! ### Dispatch, waits and ports -/

/-- The dispatch table (R182, R225): RESET apart, the micro-operation that fires is the one whose guard holds, and at
most one guard holds in any state. -/
def Obligations.DispatchFollowsGuards : Prop :=
  ∀ (p : PortIn) (z : Zeb), p.rst = false →
    (∀ op, guardOf p z op = true ↔ select p z = .ok (some op)) ∧
      ∀ op op', guardOf p z op = true → guardOf p z op' = true → op = op'

/-- Waits (R229): while ZEB waits for an event that does not come, no state changes. -/
def Obligations.WaitsChangeNothing : Prop :=
  ∀ (s : State) (p : PortIn), s.nextEvent = .zeb p → p.rst = false → s.zeb.waits p → step s = .next s.popped

/-- Nothing faults and nothing is ever stuck (R223, R187, R182, R229 item (d)): from a state that keeps the invariant
every step answers, and ZEB is without an enabled micro-operation only while it waits for a port. -/
def Obligations.NeverFaultsNeverStuck : Prop :=
  ∀ s : State, s.Inv →
    (∃ t, step s = .next t) ∧ ∀ p : PortIn, p.rst = false → ¬ s.zeb.waits p → ∃ op, guardOf p s.zeb op = true

/-- The output ports (R64, R65, R67): `cmd_ready`, `pix_ready` and `tok_valid` are 1 exactly when the guard holds apart
from the port event, and `tok_data` with `tok_last` is what the micro-operation emits. -/
def Obligations.OutputPortsFollowGuards : Prop :=
  ∀ z : Zeb,
    (z.cmdReady = true ↔ z.phase = .idle ∨ z.phase = .done) ∧
    (z.pixReady = true ↔ ∀ (i : Byte) (t : Bool), guardOf ⟨false, none, some i, t⟩ z .samp = true) ∧
    ∀ e, z.tokOffer = some e ↔ ∃ op, guardOf ⟨false, none, none, true⟩ z op = true ∧ emission op z = some e

/-- Beats (R45, R63, R66, R67; `taken` is the model's history, log entry 6): during a frame each step appends to OUT
exactly the offered character that the sink accepts, and to the pixel history exactly the beat that is taken. -/
def Obligations.BeatsAreRecorded : Prop :=
  ∀ (s t : State) (p : PortIn), s.nextEvent = .zeb p → p.rst = false → s.zeb.busy = true → step s = .next t →
    t.zeb.out = s.zeb.out ++ (if p.tokReady = true then s.zeb.tokOffer.toList else []) ∧
      t.zeb.taken = s.zeb.taken ++ (if s.zeb.pixReady = true then p.pix.toList else [])

/-- No character of row Y is offered before the last pixel of row Y has been taken (R78 item (b)). This is a choice of
the realisation that the model follows, not something every ZEB must do: R265 leaves item (b) of R78 to this realisation,
and an implementation that overlaps rows may break it (log entry 16). `taken` is the model's history (log entry 6). -/
def Obligations.NoEarlyCharacter : Prop :=
  ∀ s : State, s.Inv → s.zeb.tokOffer.isSome = true →
    s.zeb.x = s.zeb.width ∧ s.zeb.bc = 0 ∧ s.zeb.ni = s.zeb.rowLen ∧
      s.zeb.taken.length = (s.zeb.y + 1) * s.zeb.width

/-- Which micro-operation may write what (R21 to R44, "Written by"; R27; R227): a register or buffer of ZEB that
differs after a step without RESET was written by one of the micro-operations its rule names. That COMMIT leaves CUR as it is, is the model's choice (R34,
log entry 21). -/
def Obligations.OnlyItsWritersWrite : Prop :=
  ∀ (s t : State) (p : PortIn), s.nextEvent = .zeb p → p.rst = false → step s = .next t →
    ∀ fired : MicroOp → Prop, (∀ op, fired op ↔ select p s.zeb = .ok (some op)) →
    (t.zeb.width ≠ s.zeb.width ∨ t.zeb.height ≠ s.zeb.height ∨ t.zeb.err ≠ s.zeb.err → fired .start) ∧
    (t.zeb.cur ≠ s.zeb.cur ∨ t.zeb.ts ≠ s.zeb.ts ∨ t.zeb.ln ≠ s.zeb.ln → fired .pack) ∧
    (t.zeb.prev ≠ s.zeb.prev → fired .commit) ∧
    (t.zeb.y ≠ s.zeb.y ∨ t.zeb.pv ≠ s.zeb.pv → fired .start ∨ fired .commit) ∧
    (t.zeb.eq ≠ s.zeb.eq ∨ t.zeb.ni ≠ s.zeb.ni → fired .start ∨ fired .commit ∨ fired .pack) ∧
    (t.zeb.x ≠ s.zeb.x → fired .start ∨ fired .samp ∨ fired .commit) ∧
    (t.zeb.sr ≠ s.zeb.sr ∨ t.zeb.bc ≠ s.zeb.bc → fired .start ∨ fired .samp ∨ fired .pad ∨ fired .pack) ∧
    (t.zeb.te ≠ s.zeb.te ∨ t.zeb.tm ≠ s.zeb.tm → fired .trail) ∧
    (t.zeb.si ≠ s.zeb.si → fired .trail ∨ fired .acc) ∧
    (t.zeb.rc ≠ s.zeb.rc → fired .acc) ∧
    (t.zeb.rn ≠ s.zeb.rn → fired .trail ∨ fired .acc ∨ fired .lit ∨ fired .cntz ∨ fired .cnt20 ∨ fired .cnt1)

/-- The model's choice: the reader stands beside ZEB in one state (log entry 18) and the two share nothing, so a step of
ZEB leaves the reader alone, and a step of the reader or a hand-over leaves ZEB alone. That MAXW and MAXH are data of the
state which no step changes (log entry 1) and the schedule (log entry 8) are the model's choices too. What R200 gives
the reader to keep, and R8 as open parameters, is where each part comes from. -/
def Obligations.AgentsAreSeparate : Prop :=
  ∀ s t : State, step s = .next t →
    t.params = s.params ∧ t.sched = s.sched.tail ∧ ((∃ p, s.nextEvent = .zeb p) → t.reader = s.reader) ∧
      ((¬ ∃ p, s.nextEvent = .zeb p) → t.zeb = s.zeb)

/-! ### Invariants -/

/-- The machine after reset keeps the invariant and the trace, whatever MAXW >= 1 and MAXH >= 1 are and whatever is
scheduled (R250, R251, R47). The values of the registers that reset leaves open are the model's (log entry 3). -/
def Obligations.ResetKeepsInvariant : Prop :=
  ∀ (q : Params) (sched : List Event), q.Ok →
    ({ State.reset with params := q, sched := sched } : State).Inv ∧
      ({ State.reset with params := q, sched := sched } : State).Traced

/-- The invariants of R47, the canonical form of the row buffers, and the invariant of the reader (R200, R208, R209):
every step keeps them, from every state that has them. -/
def Obligations.StepKeepsInvariant : Prop :=
  ∀ s t : State, s.Inv → step s = .next t → t.Inv

/-- What the row buffers, SR and the histories hold during a frame (R137, R164, R165, R190): every step keeps it, from
every state that keeps the invariant. `taken` is the model's history (log entry 6). -/
def Obligations.StepKeepsTrace : Prop :=
  ∀ s t : State, s.Inv → s.Traced → step s = .next t → t.Traced

/-- Two machines that differ at most in values that the spec leaves unspecified, or stale ones, answer alike and go on
differing at most in such values (R47 item (i), R190). -/
def Obligations.StaleValuesDoNotMatter : Prop :=
  ∀ a b a' : State, a.Inv → b.Inv → a.SameLive b → step a = .next a' →
    ∃ b', step b = .next b' ∧ a'.SameLive b'

/-- An accepted START forgets every frame before it (R183, R190, R256): from any two states in IDLE or DONE the frames
start in states that differ at most in values that no step reads. `k` is what the command port carries (R104, log entry
19). Equal `draws` is about the model's own counter of free values (log entry 5). -/
def Obligations.StartForgetsTheFrameBefore : Prop :=
  ∀ (a b : State) (p : PortIn) (c k : Command), a.params = b.params → a.reader = b.reader → a.sched = b.sched →
    a.zeb.draws = b.zeb.draws → a.nextEvent = .zeb p → p.rst = false → p.cmd = some c →
    k = c.onPort a.params → 1 ≤ k.w → k.w ≤ a.params.maxW → 1 ≤ k.h → k.h ≤ a.params.maxH →
    (a.zeb.phase = .idle ∨ a.zeb.phase = .done) → (b.zeb.phase = .idle ∨ b.zeb.phase = .done) →
    ∃ a' b', step a = .next a' ∧ step b = .next b' ∧ a'.SameLive b' ∧ a'.zeb.phase = .load

/-! ### Whole frames -/

/-- The stream of a frame is the source's (R180, R185, R190, R164): after any run from a state that keeps the invariant
and the trace, in DONE the history OUT is the token stream of the grid whose pixels were taken in raster order, the
dimensions are the grid's, all WIDTH * HEIGHT beats have been taken, and exactly the final character is marked last. -/
def Obligations.FramesAreEncoded : Prop :=
  ∀ (n : Nat) (s t : State) (g : Nat → Nat → Byte), s.Inv → s.Traced → s.run n = .next t → t.zeb.phase = .done →
    (∀ k, k < t.zeb.width * t.zeb.height → t.zeb.taken[k]? = some (g (k % t.zeb.width) (k / t.zeb.width))) →
    (⟨t.zeb.byteWidth, t.zeb.pixHeight, t.zeb.chars⟩ : EncodedBitmap) = encodeGrid t.zeb.width t.zeb.height g ∧
      t.zeb.y = t.zeb.height ∧ t.zeb.taken.length = t.zeb.width * t.zeb.height ∧
      ∃ front c, t.zeb.out = front ++ [(c, true)] ∧ ∀ e ∈ front, e.2 = false

/-- The first character of a frame is never `:` (R256, R106 item (e)). -/
def Obligations.FirstRowNeverRepeats : Prop :=
  ∀ s : State, s.Inv → s.Traced → s.zeb.phase ≠ .idle → s.zeb.chars.head? ≠ some 0x3A

/-- Every frame ends (R266, R267): from a frame in progress, with no RESET, a pixel offered and the sink ready in every
step, ZEB is in DONE within the steps that the bound of R266 leaves; and an accepted START of w by h leaves at most
h * (8B + 4L + 3) of them. -/
def Obligations.EveryFrameEnds : Prop :=
  (∀ (s : State) (ports : List PortIn) (rest : List Event), s.Inv → s.zeb.busy = true →
    (∀ p ∈ ports, p.willing) → s.zeb.work ≤ ports.length → s.sched = ports.map Event.zeb ++ rest →
    ∃ n t, n ≤ s.zeb.work ∧ s.run n = .next t ∧ t.zeb.phase = .done) ∧
  ∀ (s : State) (w h : Nat), 1 ≤ w → 1 ≤ h →
    (acceptStart w h s.zeb).work ≤ h * (8 * ((w + 7) / 8) + 4 * (2 * ((w + 7) / 8)) + 3)

/-- Round trip (R212): DEC and DEC-S, given the stream of a finished frame with its byte-width and pixel height, refuse
nothing and return the packed rows of the frame; unpacked, a row is its thresholded pixels and then padding zeros. -/
def Obligations.ReaderRecoversFrame : Prop :=
  ∀ (s : State) (strict : Bool) (rest : List Event), s.Inv → s.Traced → s.zeb.phase = .done →
    s.sched = Event.give s.zeb.chars s.zeb.byteWidth s.zeb.pixHeight strict ::
      (List.replicate (s.zeb.chars.length + 1) Event.read ++ rest) →
    ∃ t, s.run (s.zeb.chars.length + 2) = .next t ∧ t.reader.verdict = .accepted ∧
      t.reader.rows =
        (List.range s.zeb.height).map (fun y => packNib (rowBits s.zeb.width s.zeb.grid y)) ∧
      (∀ y j, y < s.zeb.height → j < 8 * s.zeb.byteWidth →
        ((t.reader.rows.getD y []).getD (j / 4) 0).getMsbD (j % 4) =
          decide (j < s.zeb.width ∧ (s.zeb.grid j y).toNat < 127)) ∧
      t.zeb = s.zeb ∧ t.sched = rest

/-- Every frame ends under the fairness of R267 (R229, R266, R187), however long its waits are, as long as each of them
is finite, and whatever the reader does in between. A step of ZEB in a frame is a wait that changes nothing, or lowers
the number of steps that the bound of R266 leaves; so a frame in progress ends in DONE, and so does the frame of every
accepted START, with the dimensions it was started with. `k` is what the command port carries (R104, log entry 19). -/
def Obligations.EveryFairFrameEnds : Prop :=
  (∀ (s : State) (p : PortIn), s.Inv → s.zeb.busy = true → s.nextEvent = .zeb p → p.rst = false →
    ∃ t, step s = .next t ∧ (s.zeb.waits p → t = s.popped) ∧ (¬ s.zeb.waits p → t.zeb.work < s.zeb.work)) ∧
  (∀ (s : State) (ev : Nat → Event), s.Inv → s.zeb.busy = true → s.Fair ev →
    ∃ n t, (s.driven ev n).run n = .next t ∧ t.zeb.phase = .done ∧ t.zeb.width = s.zeb.width ∧
      t.zeb.height = s.zeb.height) ∧
  ∀ (s : State) (ev : Nat → Event) (p : PortIn) (c k : Command), s.Inv → s.zeb.phase = .idle ∨ s.zeb.phase = .done →
    ev 0 = .zeb p → p.cmd = some c → k = c.onPort s.params → 1 ≤ k.w → k.w ≤ s.params.maxW → 1 ≤ k.h →
    k.h ≤ s.params.maxH → s.Fair ev →
    ∃ n t, 1 ≤ n ∧ (s.driven ev n).run n = .next t ∧ t.zeb.phase = .done ∧ t.zeb.width = k.w ∧ t.zeb.height = k.h
end

