-- ==== Sys2Proof/Laws/Contract.lean ====
section
/-! SUPPORT. The laws of the level F functions: characters are told apart, a run in front of a string that does not
continue it is one token, the count token character by character, what `trail` does with a trailing run, the Bitmap row
by row, and the two forms of `encode`. -/

namespace Sys2Proof.Machine

theorem hexChar_toNat (v : Nibble) :
    (hexChar v).toNat = if v.toNat ≤ 9 then 0x30 + v.toNat else 0x37 + v.toNat := by
  have := v.isLt
  unfold hexChar
  split <;> simp only [BitVec.toNat_ofNat] <;> omega

/-- HEXCHAR is one-to-one (30_encoding.md rule R92). -/
theorem hexChar_inj {a b : Nibble} : hexChar a = hexChar b ↔ a = b := by
  refine ⟨fun h => BitVec.eq_of_toNat_eq ?_, fun h => h ▸ rfl⟩
  have h' := congrArg BitVec.toNat h
  have := a.isLt; have := b.isLt
  rw [hexChar_toNat, hexChar_toNat] at h'
  split at h' <;> split at h' <;> omega

/-- HEXVAL is the inverse of HEXCHAR (R92). -/
@[simp] theorem hexVal_hexChar (v : Nibble) : hexVal (hexChar v) = some v := by
  revert v; decide

theorem hexChar_ne_chRep (v : Nibble) : hexChar v ≠ chRep := by revert v; decide
theorem hexChar_ne_chZ (v : Nibble) : hexChar v ≠ chZ := by revert v; decide
theorem hexChar_ne_chF (v : Nibble) : hexChar v ≠ chF := by revert v; decide

/-! ### Runs -/

@[simp] theorem runs_nil : runs [] = [] := rfl

theorem runs_cons_head (c : Byte) (s : List Byte) : ∃ n t, runs (c :: s) = (c, n) :: t := by
  simp only [runs]
  split
  · exact ⟨1, [], rfl⟩
  · rename_i d n t _
    by_cases h : c = d
    · exact ⟨n + 1, t, by simp [h]⟩
    · exact ⟨1, (d, n) :: t, by simp [h]⟩

theorem runs_cons_new {c : Byte} {s : List Byte} (h : s.head? ≠ some c) : runs (c :: s) = (c, 1) :: runs s := by
  cases s with
  | nil => rfl
  | cons d s =>
    obtain ⟨n, t, hr⟩ := runs_cons_head d s
    have hcd : c ≠ d := fun hh => h (by simp [hh])
    rw [runs, hr]
    simp [hcd]

theorem runs_cons_more {c : Byte} {s : List Byte} {n : Nat} {t : List (Byte × Nat)}
    (h : runs s = (c, n) :: t) : runs (c :: s) = (c, n + 1) :: t := by
  rw [runs, h]; simp

/-- A run in front of a string that does not continue it is a maximal run. -/
theorem runs_replicate_append {c : Byte} {s : List Byte} (h : s.head? ≠ some c) (n : Nat) :
    runs (List.replicate (n + 1) c ++ s) = (c, n + 1) :: runs s := by
  induction n with
  | zero => simpa using runs_cons_new h
  | succ n ih =>
    rw [List.replicate_succ, List.cons_append]
    exact runs_cons_more ih

@[simp] theorem rle_nil : rle [] = [] := rfl

theorem rle_replicate_append {c : Byte} {s : List Byte} (h : s.head? ≠ some c) {n : Nat} (hn : 1 ≤ n) :
    rle (List.replicate n c ++ s) = runToken (c, n) ++ rle s := by
  obtain ⟨n, rfl⟩ : ∃ m, n = m + 1 := ⟨n - 1, by omega⟩
  rw [rle, runs_replicate_append h]
  simp [rle]

/-- A counted run (R148, R149). -/
theorem rle_counted {c : Byte} {s : List Byte} (h : s.head? ≠ some c) {n : Nat} (hn : 3 ≤ n) :
    rle (List.replicate n c ++ s) = countToken n ++ [c] ++ rle s := by
  rw [rle_replicate_append h (by omega), runToken]
  simp [runMin, hn]

/-- A run of 1 or 2 is copied, one character at a time (R148). -/
theorem rle_literal {c : Byte} {s : List Byte} (h : s.head? ≠ some c) {n : Nat} (h1 : 1 ≤ n) (h2 : n ≤ 2) :
    rle (List.replicate n c ++ s) = c :: rle (List.replicate (n - 1) c ++ s) := by
  rcases (by omega : n = 1 ∨ n = 2) with rfl | rfl
  · rw [rle_replicate_append h h1, runToken]
    simp [runMin]
  · rw [rle_replicate_append h h1, rle_replicate_append h (by omega), runToken, runToken]
    simp [runMin, List.replicate]

theorem rle_singleton (c : Byte) : rle [c] = [c] := by
  simpa using rle_literal (c := c) (s := []) (n := 1) (by simp) (by omega) (by omega)

/-! ### The count token (R149) -/

@[simp] theorem countToken_zero : countToken 0 = [] := rfl

theorem countToken_ge_400 {n : Nat} (h : 400 ≤ n) : countToken n = ch400 :: countToken (n - 400) := by
  have h1 : n / 400 = (n - 400) / 400 + 1 := by omega
  have h2 : n % 400 = (n - 400) % 400 := by omega
  have h3 : n % 20 = (n - 400) % 20 := by omega
  simp only [countToken, unit400, unit20, h1, h2, h3, List.replicate_succ, List.cons_append]

theorem countToken_ge_20 {n : Nat} (h : 20 ≤ n) (h' : n ≤ 399) :
    countToken n = count20Char (n / 20) :: countToken (n % 20) := by
  have h1 : n / 400 = 0 := by omega
  have h2 : n % 400 = n := by omega
  have h3 : n % 20 / 400 = 0 := by omega
  have h4 : n % 20 % 400 / 20 = 0 := by omega
  have h5 : n / 20 ≠ 0 := by omega
  simp [countToken, unit400, unit20, h1, h2, h3, h4, h5, c20]

theorem countToken_small {n : Nat} (h : 1 ≤ n) (h' : n ≤ 19) : countToken n = [count1Char n] := by
  have h1 : n / 400 = 0 := by omega
  have h2 : n % 400 / 20 = 0 := by omega
  have h3 : n % 20 = n := by omega
  have h4 : n ≠ 0 := by omega
  simp [countToken, unit400, unit20, h1, h2, h3, h4, c20, c1]

/-! ### The trailing run (R147) -/

theorem dropTrailing_append {c : Byte} {s : List Byte} (h : s.getLast? ≠ some c) (m : Nat) :
    dropTrailing c (s ++ List.replicate m c) = s := by
  unfold dropTrailing
  rw [List.reverse_append, List.reverse_replicate, List.dropWhile_append_of_pos (by simp)]
  cases hs : s.reverse with
  | nil => simpa using hs.symm
  | cons d t =>
    have hd : s.getLast? = some d := by
      have : s = (d :: t).reverse := by rw [← hs, List.reverse_reverse]
      rw [this]; simp
    have hdc : (d == c) = false := by
      simp only [beq_eq_false_iff_ne, ne_eq]
      rintro rfl
      exact h hd
    rw [List.dropWhile_cons_of_neg (by simp [hdc]), ← hs, List.reverse_reverse]

theorem getLast?_append_replicate (c : Byte) (s : List Byte) {m : Nat} (hm : 1 ≤ m) :
    (s ++ List.replicate m c).getLast? = some c := by
  obtain ⟨m, rfl⟩ : ∃ k, m = k + 1 := ⟨m - 1, by omega⟩
  simp [List.getLast?_append, List.getLast?_replicate]

theorem trail_zero {s : List Byte} (h : s.getLast? ≠ some (hexChar 0x0)) {m : Nat} (hm : 1 ≤ m) :
    trail (s ++ List.replicate m (hexChar 0x0)) = s ++ [chZ] := by
  rw [trail, if_pos (getLast?_append_replicate _ s hm), dropTrailing_append h]

theorem trail_eff {s : List Byte} (h : s.getLast? ≠ some (hexChar 0xF)) {m : Nat} (hm : 1 ≤ m) :
    trail (s ++ List.replicate m (hexChar 0xF)) = s ++ [chF] := by
  have hne : (s ++ List.replicate m (hexChar 0xF)).getLast? ≠ some (hexChar 0x0) := by
    rw [getLast?_append_replicate _ s hm]; decide
  rw [trail, if_neg hne, if_pos (getLast?_append_replicate _ s hm), dropTrailing_append h]

theorem trail_other {s : List Byte} (h0 : s.getLast? ≠ some (hexChar 0x0)) (hF : s.getLast? ≠ some (hexChar 0xF)) :
    trail s = s := by
  rw [trail, if_neg h0, if_neg hF]

/-! ### The Bitmap (R121) and the two forms of `encode` (R180) -/

@[simp] theorem rowBits_length (w : Nat) (g : Nat → Nat → Byte) (y : Nat) : (rowBits w g y).length = w := by
  simp [rowBits]

@[simp] theorem sample_length (w h : Nat) (g : Nat → Nat → Byte) : (sample w h g).length = h := by simp [sample]

/-- The model's choice for a height of 0, outside the source's domain (log entry 22). -/
@[simp] theorem sample_zero (w : Nat) (g : Nat → Nat → Byte) : sample w 0 g = [] := rfl

/-- The Bitmap of one row more ends with that row. -/
theorem sample_succ (w h : Nat) (g : Nat → Nat → Byte) : sample w (h + 1) g = sample w h g ++ [rowBits w g h] := by
  simp [sample, List.range_succ]

/-- Position `x` of row `y` of the Bitmap is the thresholded pixel (R121). -/
theorem sample_bit {w h x y : Nat} (g : Nat → Nat → Byte) (hx : x < w) (hy : y < h) :
    ((sample w h g)[y]?.bind (·[x]?)) = some (thr (g x y)) := by
  simp [sample, rowBits, hx, hy]

/-- One row more at the end of a Bitmap adds its compressed form, with the row before it as the state (R150). -/
theorem encodeBitmap_concat (s : Option (List Byte)) (rows : List (List Bool)) (bits : List Bool) :
    encodeBitmap s (rows ++ [bits]) =
      encodeBitmap s rows ++ compress (pack bits) ((rows.getLast?.map pack).or s) := by
  induction rows generalizing s with
  | nil => simp [encodeBitmap]
  | cons r rows ih =>
    rw [List.cons_append, encodeBitmap, encodeBitmap, ih, List.append_assoc]
    cases rows <;> simp [List.getLast?_cons]

theorem encodeRows_succ (w : Nat) (g : Nat → Nat → Byte) (h : Nat) :
    encodeRows w g (h + 1) = encodeRows w g h ++ compress (packedRow w g h) (rowState w g h) := by
  simp [encodeRows, List.range_succ]

/-- Row by row with a carried state is the formula of R180. -/
theorem encodeBitmap_sample (w : Nat) (g : Nat → Nat → Byte) (h : Nat) :
    encodeBitmap none (sample w h g) = encodeRows w g h := by
  induction h with
  | zero => rfl
  | succ h ih =>
    rw [sample_succ, encodeBitmap_concat, ih, encodeRows_succ]
    cases h with
    | zero => rfl
    | succ h => simp [sample_succ, rowState, packedRow]

/-- `encode(grid)` is R180's formula. -/
theorem encodeGrid_eq (w h : Nat) (g : Nat → Nat → Byte) : encodeGrid w h g = ⟨ceil8 w, h, encodeRows w g h⟩ := by
  rw [encodeGrid, encodeBitmap_sample]

end Sys2Proof.Machine
end

