-- ==== Sys2Proof/Laws/Memory.lean ====
section
/-! SUPPORT. The laws of the row buffers: a read after a write, the canonical form, the entries a buffer lists; and
what each checked access (`readRow`, `writeRow`, `copyRow`) can answer. -/

namespace Sys2Proof.Machine

@[simp] theorem read_nil (k : Nat) : Memory.read [] k = none := rfl

/-- A read after a write gives the value written at its entry, and what was there before everywhere else. -/
theorem read_write (m : Memory) (k : Nat) (v : Nibble) (j : Nat) :
    (m.write k v).read j = if j = k then some v else m.read j := by
  induction m with
  | nil => simp only [Memory.write, Memory.read, eq_comm]
  | cons e m ih =>
    obtain ⟨a, u⟩ := e
    simp only [Memory.write]
    split
    · simp only [Memory.read, eq_comm (a := k)]
    · split
      · subst k
        by_cases h : a = j
        · simp [Memory.read, h]
        · simp [Memory.read, h, Ne.symm h]
      · rename_i h1 h2
        by_cases h : a = j
        · subst h
          simp [Memory.read, Ne.symm h2]
        · simp [Memory.read, h, ih]

@[simp] theorem read_write_self (m : Memory) (k : Nat) (v : Nibble) : (m.write k v).read k = some v := by
  simp [read_write]

theorem read_write_other {j k : Nat} (m : Memory) (v : Nibble) (h : j ≠ k) : (m.write k v).read j = m.read j := by
  simp [read_write, h]

/-- The entries of a buffer after a write are the entry written and entries that were there before. -/
theorem mem_write {m : Memory} {k : Nat} {v : Nibble} {e : Nat × Nibble} (h : e ∈ m.write k v) :
    e = (k, v) ∨ e ∈ m := by
  induction m with
  | nil => simpa [Memory.write] using h
  | cons b m ih =>
    obtain ⟨a, u⟩ := b
    simp only [Memory.write] at h
    split at h
    · simpa using h
    · split at h
      · rcases List.mem_cons.mp h with h | h
        · exact .inl h
        · exact .inr (List.mem_cons_of_mem _ h)
      · rcases List.mem_cons.mp h with h | h
        · exact .inr (h ▸ List.mem_cons_self)
        · exact (ih h).imp id (List.mem_cons_of_mem _)

/-- A write keeps the canonical form. -/
theorem write_wf {m : Memory} (h : m.wf) (k : Nat) (v : Nibble) : (m.write k v).wf := by
  induction m with
  | nil => simp [Memory.write, Memory.wf]
  | cons b m ih =>
    obtain ⟨a, u⟩ := b
    simp only [Memory.wf, List.pairwise_cons] at h ih ⊢
    simp only [Memory.write]
    split
    · rename_i hk
      refine List.pairwise_cons.mpr ⟨?_, List.pairwise_cons.mpr h⟩
      intro e he
      rcases List.mem_cons.mp he with rfl | he
      · exact hk
      · exact lt_trans hk (h.1 e he)
    · split
      · rename_i hk
        exact List.pairwise_cons.mpr ⟨fun e he => hk ▸ h.1 e he, h.2⟩
      · refine List.pairwise_cons.mpr ⟨?_, ih h.2⟩
        intro e he
        rcases mem_write he with rfl | he
        · simp only; omega
        · exact h.1 e he

/-- What a checked read can answer. -/
theorem readRow_eq_ok {len : Nat} {m : Memory} {k : Nat} {v : Nibble} :
    readRow len m k = .ok v ↔ k < len ∧ m.read k = some v := by
  unfold readRow
  split
  · rename_i h
    cases hm : m.read k <;> simp [h]
  · simp_all

/-- What a checked write can answer. -/
theorem writeRow_eq_ok {len : Nat} {m m' : Memory} {k : Nat} {v : Nibble} :
    writeRow len m k v = .ok m' ↔ k < len ∧ m' = m.write k v := by
  unfold writeRow
  split <;> simp_all [eq_comm]

/-- A copy answers exactly when every entry it reads has a value. -/
theorem copyRow_isOk {n : Nat} {src dst : Memory} (h : ∀ k, k < n → (src.read k).isSome) :
    ∃ d, copyRow n src dst = .ok d := by
  induction n with
  | zero => exact ⟨dst, rfl⟩
  | succ n ih =>
    obtain ⟨d, hd⟩ := ih (fun k hk => h k (by omega))
    obtain ⟨v, hv⟩ := Option.isSome_iff_exists.mp (h n (by omega))
    exact ⟨d.write n v, by simp [copyRow, hd, hv]⟩

/-- What a copy does: the first `n` entries become the source's, the others stay. -/
theorem copyRow_read {n : Nat} {src dst d : Memory} (h : copyRow n src dst = .ok d) (k : Nat) :
    d.read k = if k < n then src.read k else dst.read k := by
  induction n generalizing d with
  | zero => cases h; simp
  | succ n ih =>
    simp only [copyRow] at h
    split at h
    · cases h
    · rename_i d' hd
      split at h
      · rename_i v hv
        cases h
        rw [read_write, ih hd]
        by_cases hk : k = n
        · simp [hk, hv]
        · simp only [hk, if_false]
          by_cases hk' : k < n
          · simp [hk', Nat.lt_succ_of_lt hk']
          · simp [hk', show ¬ k < n + 1 by omega]
      · cases h

/-- Every entry a copy reads has a value. -/
theorem copyRow_held {n : Nat} {src dst d : Memory} (h : copyRow n src dst = .ok d) (k : Nat) (hk : k < n) :
    (src.read k).isSome := by
  induction n generalizing d with
  | zero => omega
  | succ n ih =>
    simp only [copyRow] at h
    split at h
    · cases h
    · rename_i d' hd
      split at h
      · rename_i v hv
        rcases Nat.lt_succ_iff_lt_or_eq.mp hk with hk | rfl
        · exact ih hd hk
        · simp [hv]
      · cases h

/-- A copy keeps the canonical form. -/
theorem copyRow_wf {n : Nat} {src dst d : Memory} (hd : dst.wf) (h : copyRow n src dst = .ok d) : d.wf := by
  induction n generalizing d with
  | zero => cases h; exact hd
  | succ n ih =>
    simp only [copyRow] at h
    split at h
    · cases h
    · rename_i d' hd'
      split at h
      · cases h; exact write_wf (ih hd') _ _
      · cases h

/-- A copy lists no entry at or above `b` if the destination lists none and the copied part ends below `b`. -/
theorem copyRow_below {n b : Nat} {src dst d : Memory} (hn : n ≤ b) (hdst : ∀ e ∈ dst, e.1 < b)
    (h : copyRow n src dst = .ok d) : ∀ e ∈ d, e.1 < b := by
  induction n generalizing d with
  | zero => cases h; exact hdst
  | succ n ih =>
    simp only [copyRow] at h
    split at h
    · cases h
    · rename_i d' hd'
      split at h
      · cases h
        intro e he
        rcases mem_write he with rfl | he
        · simpa using hn
        · exact ih (by omega) hd' e he
      · cases h

/-- What the comparator can answer (R152). -/
theorem eqNext_eq_ok {z : Zeb} {v : Nibble} {b : Bool} :
    eqNext z v = .ok b ↔
      (z.eq = false ∧ b = false) ∨
        (z.eq = true ∧ z.ni < z.rowLen ∧ ∃ u, z.prev.read z.ni = some u ∧ b = (u == v)) := by
  unfold eqNext
  by_cases h : z.eq = true
  · simp only [h, if_true, Bool.true_eq_false, false_and, true_and, false_or]
    cases hr : readRow z.rowLen z.prev z.ni with
    | error f =>
      refine ⟨fun hh => (by cases hh), fun ⟨hk, u, hu, _⟩ => ?_⟩
      rw [readRow_eq_ok.mpr ⟨hk, hu⟩] at hr; cases hr
    | ok u =>
      have hu := readRow_eq_ok.mp hr
      constructor
      · intro hh; cases hh; exact ⟨hu.1, u, hu.2, rfl⟩
      · rintro ⟨_, u', hu', rfl⟩
        rw [hu.2] at hu'; cases hu'; rfl
  · simp [h, eq_comm]

/-- What the test "closed" can answer (R168). -/
theorem closed_eq_ok {z : Zeb} {b : Bool} :
    z.closed = .ok b ↔
      (z.si = z.te ∧ b = true) ∨ (z.te < z.si ∧ b = false) ∨
        (z.si < z.te ∧ z.si < z.rowLen ∧ ∃ v, z.cur.read z.si = some v ∧ b = (v != z.rc)) := by
  unfold Zeb.closed
  rcases Nat.lt_trichotomy z.si z.te with h | h | h
  · simp only [h.ne, if_false, h, if_true, false_and, false_or, not_lt_of_gt h, true_and]
    cases hr : readRow z.rowLen z.cur z.si with
    | error f =>
      refine ⟨fun hh => (by cases hh), fun ⟨hk, u, hu, _⟩ => ?_⟩
      rw [readRow_eq_ok.mpr ⟨hk, hu⟩] at hr; cases hr
    | ok u =>
      have hu := readRow_eq_ok.mp hr
      constructor
      · intro hh; cases hh; exact ⟨hu.1, u, hu.2, rfl⟩
      · rintro ⟨_, u', hu', rfl⟩
        rw [hu.2] at hu'; cases hu'; rfl
  · simp [h, eq_comm]
  · simp [h.ne', not_lt_of_gt h, h, eq_comm]

end Sys2Proof.Machine
end

