-- ==== Sys2Proof/Laws/PerInstr.lean ====
section
/-! SUPPORT. A statement about every instruction as syntax, proved constructor by constructor: the word of an
instruction is 7-bit on the token port and stands in the range of its class (30_encoding.md rules R90, R91, R99). -/

namespace Sys2Proof.Laws.Alphabet

/-- The range of codes that 30_encoding.md rules R91 and R99 give the instruction's class. -/
def inRange (i : Instr) (c : Nat) : Bool :=
  match i.kind with
  | .hex _ => (0x30 ≤ c && c ≤ 0x39) || (0x41 ≤ c && c ≤ 0x46)
  | .count .ones _ => 0x47 ≤ c && c ≤ 0x59
  | .count .twenties _ => 0x67 ≤ c && c ≤ 0x79
  | .count .fourHundreds _ => c == 0x7A
  | .count .start _ => false
  | .fill d => if d == 0x0 then c == 0x2C else c == 0x21
  | .rep => c == 0x3A
  | .beat => c ≤ 0xFF

/-- A stream character's code is a 7-bit code in the range of its class; a pixel beat is any byte. -/
def Statement (i : Instr) : Prop :=
  inRange i (encode i).code.toNat = true ∧ ((encode i).port = .token → (encode i).code.toNat < 128)

theorem hex0 : Statement .hex0 := by unfold Statement; decide

theorem hex1 : Statement .hex1 := by unfold Statement; decide

theorem hex2 : Statement .hex2 := by unfold Statement; decide

theorem hex3 : Statement .hex3 := by unfold Statement; decide

theorem hex4 : Statement .hex4 := by unfold Statement; decide

theorem hex5 : Statement .hex5 := by unfold Statement; decide

theorem hex6 : Statement .hex6 := by unfold Statement; decide

theorem hex7 : Statement .hex7 := by unfold Statement; decide

theorem hex8 : Statement .hex8 := by unfold Statement; decide

theorem hex9 : Statement .hex9 := by unfold Statement; decide

theorem hexA : Statement .hexA := by unfold Statement; decide

theorem hexB : Statement .hexB := by unfold Statement; decide

theorem hexC : Statement .hexC := by unfold Statement; decide

theorem hexD : Statement .hexD := by unfold Statement; decide

theorem hexE : Statement .hexE := by unfold Statement; decide

theorem hexF : Statement .hexF := by unfold Statement; decide

theorem cnt1_1 : Statement .cnt1_1 := by unfold Statement; decide

theorem cnt1_2 : Statement .cnt1_2 := by unfold Statement; decide

theorem cnt1_3 : Statement .cnt1_3 := by unfold Statement; decide

theorem cnt1_4 : Statement .cnt1_4 := by unfold Statement; decide

theorem cnt1_5 : Statement .cnt1_5 := by unfold Statement; decide

theorem cnt1_6 : Statement .cnt1_6 := by unfold Statement; decide

theorem cnt1_7 : Statement .cnt1_7 := by unfold Statement; decide

theorem cnt1_8 : Statement .cnt1_8 := by unfold Statement; decide

theorem cnt1_9 : Statement .cnt1_9 := by unfold Statement; decide

theorem cnt1_10 : Statement .cnt1_10 := by unfold Statement; decide

theorem cnt1_11 : Statement .cnt1_11 := by unfold Statement; decide

theorem cnt1_12 : Statement .cnt1_12 := by unfold Statement; decide

theorem cnt1_13 : Statement .cnt1_13 := by unfold Statement; decide

theorem cnt1_14 : Statement .cnt1_14 := by unfold Statement; decide

theorem cnt1_15 : Statement .cnt1_15 := by unfold Statement; decide

theorem cnt1_16 : Statement .cnt1_16 := by unfold Statement; decide

theorem cnt1_17 : Statement .cnt1_17 := by unfold Statement; decide

theorem cnt1_18 : Statement .cnt1_18 := by unfold Statement; decide

theorem cnt1_19 : Statement .cnt1_19 := by unfold Statement; decide

theorem cnt20_1 : Statement .cnt20_1 := by unfold Statement; decide

theorem cnt20_2 : Statement .cnt20_2 := by unfold Statement; decide

theorem cnt20_3 : Statement .cnt20_3 := by unfold Statement; decide

theorem cnt20_4 : Statement .cnt20_4 := by unfold Statement; decide

theorem cnt20_5 : Statement .cnt20_5 := by unfold Statement; decide

theorem cnt20_6 : Statement .cnt20_6 := by unfold Statement; decide

theorem cnt20_7 : Statement .cnt20_7 := by unfold Statement; decide

theorem cnt20_8 : Statement .cnt20_8 := by unfold Statement; decide

theorem cnt20_9 : Statement .cnt20_9 := by unfold Statement; decide

theorem cnt20_10 : Statement .cnt20_10 := by unfold Statement; decide

theorem cnt20_11 : Statement .cnt20_11 := by unfold Statement; decide

theorem cnt20_12 : Statement .cnt20_12 := by unfold Statement; decide

theorem cnt20_13 : Statement .cnt20_13 := by unfold Statement; decide

theorem cnt20_14 : Statement .cnt20_14 := by unfold Statement; decide

theorem cnt20_15 : Statement .cnt20_15 := by unfold Statement; decide

theorem cnt20_16 : Statement .cnt20_16 := by unfold Statement; decide

theorem cnt20_17 : Statement .cnt20_17 := by unfold Statement; decide

theorem cnt20_18 : Statement .cnt20_18 := by unfold Statement; decide

theorem cnt20_19 : Statement .cnt20_19 := by unfold Statement; decide

theorem cnt400 : Statement .cnt400 := by unfold Statement; decide

theorem fill0 : Statement .fill0 := by unfold Statement; decide

theorem fillF : Statement .fillF := by unfold Statement; decide

theorem rowrep : Statement .rowrep := by unfold Statement; decide

theorem pix (i : Byte) : Statement (.pix i) := by
  refine ⟨decide_eq_true ?_, by simp [encode]⟩
  have := i.isLt
  simp only [encode]
  omega

end Sys2Proof.Laws.Alphabet
end

