-- ==== Sys2Proof/Laws/State.lean ====
section
/-! SUPPORT. One lemma per field per update of the state, all true by `rfl`, so that no later proof unfolds an
update: ZEB's `emit`, `raiseBadDim`, `acceptStart`, `fireSamp`, `firePad`, `fireTrail`, `fireRle` and the reader's
`refuse`, `complete`, `giveStream`; and what the command port carries. -/

namespace Sys2Proof.Machine

@[simp] theorem onPort_w (p : Params) (c : Command) : (c.onPort p).w = c.w % 2 ^ p.ww := rfl
@[simp] theorem onPort_h (p : Params) (c : Command) : (c.onPort p).h = c.h % 2 ^ p.hw := rfl

/-- `bitsFor n` bits hold `n` (00_scope.md rule R8). -/
theorem lt_two_pow_bitsFor (n : Nat) : n < 2 ^ bitsFor n := by
  unfold bitsFor
  split
  · omega
  · exact Nat.lt_log2_self

/-- Operands in range stand on the port as they are. -/
theorem onPort_of_le {p : Params} {c : Command} (hw : c.w ≤ p.maxW) (hh : c.h ≤ p.maxH) : c.onPort p = c := by
  have := lt_two_pow_bitsFor p.maxW
  have := lt_two_pow_bitsFor p.maxH
  unfold Command.onPort Params.ww Params.hw
  rw [Nat.mod_eq_of_lt (by omega), Nat.mod_eq_of_lt (by omega)]

/-- When START is refused (60_exceptions.md rule R222). -/
theorem badDim_eq_true {p : Params} {c : Command} :
    badDim p c = true ↔ c.w = 0 ∨ c.h = 0 ∨ p.maxW < c.w ∨ p.maxH < c.h := by
  simp [badDim, or_assoc]

/-- What START can do (R183, R222). -/
theorem fireStart_cases (p : Params) (c : Command) (z : Zeb) :
    (badDim p (c.onPort p) = true ∧ fireStart p c z = raiseBadDim z) ∨
      (badDim p (c.onPort p) = false ∧ fireStart p c z = acceptStart (c.onPort p).w (c.onPort p).h z) := by
  unfold fireStart
  cases h : badDim p (c.onPort p) <;> simp

@[simp] theorem emit_width (z : Zeb) (e : Option (Byte × Bool)) : (z.emit e).width = z.width := rfl
@[simp] theorem emit_height (z : Zeb) (e : Option (Byte × Bool)) : (z.emit e).height = z.height := rfl
@[simp] theorem emit_err (z : Zeb) (e : Option (Byte × Bool)) : (z.emit e).err = z.err := rfl
@[simp] theorem emit_phase (z : Zeb) (e : Option (Byte × Bool)) : (z.emit e).phase = z.phase := rfl
@[simp] theorem emit_y (z : Zeb) (e : Option (Byte × Bool)) : (z.emit e).y = z.y := rfl
@[simp] theorem emit_x (z : Zeb) (e : Option (Byte × Bool)) : (z.emit e).x = z.x := rfl
@[simp] theorem emit_sr (z : Zeb) (e : Option (Byte × Bool)) : (z.emit e).sr = z.sr := rfl
@[simp] theorem emit_bc (z : Zeb) (e : Option (Byte × Bool)) : (z.emit e).bc = z.bc := rfl
@[simp] theorem emit_ni (z : Zeb) (e : Option (Byte × Bool)) : (z.emit e).ni = z.ni := rfl
@[simp] theorem emit_cur (z : Zeb) (e : Option (Byte × Bool)) : (z.emit e).cur = z.cur := rfl
@[simp] theorem emit_prev (z : Zeb) (e : Option (Byte × Bool)) : (z.emit e).prev = z.prev := rfl
@[simp] theorem emit_pv (z : Zeb) (e : Option (Byte × Bool)) : (z.emit e).pv = z.pv := rfl
@[simp] theorem emit_eq (z : Zeb) (e : Option (Byte × Bool)) : (z.emit e).eq = z.eq := rfl
@[simp] theorem emit_ts (z : Zeb) (e : Option (Byte × Bool)) : (z.emit e).ts = z.ts := rfl
@[simp] theorem emit_ln (z : Zeb) (e : Option (Byte × Bool)) : (z.emit e).ln = z.ln := rfl
@[simp] theorem emit_te (z : Zeb) (e : Option (Byte × Bool)) : (z.emit e).te = z.te := rfl
@[simp] theorem emit_tm (z : Zeb) (e : Option (Byte × Bool)) : (z.emit e).tm = z.tm := rfl
@[simp] theorem emit_si (z : Zeb) (e : Option (Byte × Bool)) : (z.emit e).si = z.si := rfl
@[simp] theorem emit_rc (z : Zeb) (e : Option (Byte × Bool)) : (z.emit e).rc = z.rc := rfl
@[simp] theorem emit_rn (z : Zeb) (e : Option (Byte × Bool)) : (z.emit e).rn = z.rn := rfl
@[simp] theorem emit_out (z : Zeb) (e : Option (Byte × Bool)) : (z.emit e).out = z.out ++ e.toList := rfl
@[simp] theorem emit_taken (z : Zeb) (e : Option (Byte × Bool)) : (z.emit e).taken = z.taken := rfl
@[simp] theorem emit_draws (z : Zeb) (e : Option (Byte × Bool)) : (z.emit e).draws = z.draws := rfl

@[simp] theorem raiseBadDim_width (z : Zeb) : (raiseBadDim z).width = z.width := rfl
@[simp] theorem raiseBadDim_height (z : Zeb) : (raiseBadDim z).height = z.height := rfl
@[simp] theorem raiseBadDim_err (z : Zeb) : (raiseBadDim z).err = true := rfl
@[simp] theorem raiseBadDim_phase (z : Zeb) : (raiseBadDim z).phase = z.phase := rfl
@[simp] theorem raiseBadDim_y (z : Zeb) : (raiseBadDim z).y = z.y := rfl
@[simp] theorem raiseBadDim_x (z : Zeb) : (raiseBadDim z).x = z.x := rfl
@[simp] theorem raiseBadDim_sr (z : Zeb) : (raiseBadDim z).sr = z.sr := rfl
@[simp] theorem raiseBadDim_bc (z : Zeb) : (raiseBadDim z).bc = z.bc := rfl
@[simp] theorem raiseBadDim_ni (z : Zeb) : (raiseBadDim z).ni = z.ni := rfl
@[simp] theorem raiseBadDim_cur (z : Zeb) : (raiseBadDim z).cur = z.cur := rfl
@[simp] theorem raiseBadDim_prev (z : Zeb) : (raiseBadDim z).prev = z.prev := rfl
@[simp] theorem raiseBadDim_pv (z : Zeb) : (raiseBadDim z).pv = z.pv := rfl
@[simp] theorem raiseBadDim_eq (z : Zeb) : (raiseBadDim z).eq = z.eq := rfl
@[simp] theorem raiseBadDim_ts (z : Zeb) : (raiseBadDim z).ts = z.ts := rfl
@[simp] theorem raiseBadDim_ln (z : Zeb) : (raiseBadDim z).ln = z.ln := rfl
@[simp] theorem raiseBadDim_te (z : Zeb) : (raiseBadDim z).te = z.te := rfl
@[simp] theorem raiseBadDim_tm (z : Zeb) : (raiseBadDim z).tm = z.tm := rfl
@[simp] theorem raiseBadDim_si (z : Zeb) : (raiseBadDim z).si = z.si := rfl
@[simp] theorem raiseBadDim_rc (z : Zeb) : (raiseBadDim z).rc = z.rc := rfl
@[simp] theorem raiseBadDim_rn (z : Zeb) : (raiseBadDim z).rn = z.rn := rfl
@[simp] theorem raiseBadDim_out (z : Zeb) : (raiseBadDim z).out = z.out := rfl
@[simp] theorem raiseBadDim_taken (z : Zeb) : (raiseBadDim z).taken = z.taken := rfl
@[simp] theorem raiseBadDim_draws (z : Zeb) : (raiseBadDim z).draws = z.draws := rfl

@[simp] theorem acceptStart_width (w h : Nat) (z : Zeb) : (acceptStart w h z).width = w := rfl
@[simp] theorem acceptStart_height (w h : Nat) (z : Zeb) : (acceptStart w h z).height = h := rfl
@[simp] theorem acceptStart_err (w h : Nat) (z : Zeb) : (acceptStart w h z).err = false := rfl
@[simp] theorem acceptStart_phase (w h : Nat) (z : Zeb) : (acceptStart w h z).phase = .load := rfl
@[simp] theorem acceptStart_y (w h : Nat) (z : Zeb) : (acceptStart w h z).y = 0 := rfl
@[simp] theorem acceptStart_x (w h : Nat) (z : Zeb) : (acceptStart w h z).x = 0 := rfl
@[simp] theorem acceptStart_sr (w h : Nat) (z : Zeb) : (acceptStart w h z).sr = 0 := rfl
@[simp] theorem acceptStart_bc (w h : Nat) (z : Zeb) : (acceptStart w h z).bc = 0 := rfl
@[simp] theorem acceptStart_ni (w h : Nat) (z : Zeb) : (acceptStart w h z).ni = 0 := rfl
@[simp] theorem acceptStart_cur (w h : Nat) (z : Zeb) : (acceptStart w h z).cur = z.cur := rfl
@[simp] theorem acceptStart_prev (w h : Nat) (z : Zeb) : (acceptStart w h z).prev = z.prev := rfl
@[simp] theorem acceptStart_pv (w h : Nat) (z : Zeb) : (acceptStart w h z).pv = false := rfl
@[simp] theorem acceptStart_eq (w h : Nat) (z : Zeb) : (acceptStart w h z).eq = false := rfl
@[simp] theorem acceptStart_ts (w h : Nat) (z : Zeb) : (acceptStart w h z).ts = z.ts := rfl
@[simp] theorem acceptStart_ln (w h : Nat) (z : Zeb) : (acceptStart w h z).ln = z.ln := rfl
@[simp] theorem acceptStart_te (w h : Nat) (z : Zeb) : (acceptStart w h z).te = z.te := rfl
@[simp] theorem acceptStart_tm (w h : Nat) (z : Zeb) : (acceptStart w h z).tm = z.tm := rfl
@[simp] theorem acceptStart_si (w h : Nat) (z : Zeb) : (acceptStart w h z).si = z.si := rfl
@[simp] theorem acceptStart_rc (w h : Nat) (z : Zeb) : (acceptStart w h z).rc = z.rc := rfl
@[simp] theorem acceptStart_rn (w h : Nat) (z : Zeb) : (acceptStart w h z).rn = z.rn := rfl
@[simp] theorem acceptStart_out (w h : Nat) (z : Zeb) : (acceptStart w h z).out = [] := rfl
@[simp] theorem acceptStart_taken (w h : Nat) (z : Zeb) : (acceptStart w h z).taken = [] := rfl
@[simp] theorem acceptStart_draws (w h : Nat) (z : Zeb) : (acceptStart w h z).draws = z.draws := rfl

@[simp] theorem fireSamp_width (i : Byte) (z : Zeb) : (fireSamp i z).width = z.width := rfl
@[simp] theorem fireSamp_height (i : Byte) (z : Zeb) : (fireSamp i z).height = z.height := rfl
@[simp] theorem fireSamp_err (i : Byte) (z : Zeb) : (fireSamp i z).err = z.err := rfl
@[simp] theorem fireSamp_phase (i : Byte) (z : Zeb) : (fireSamp i z).phase = z.phase := rfl
@[simp] theorem fireSamp_y (i : Byte) (z : Zeb) : (fireSamp i z).y = z.y := rfl
@[simp] theorem fireSamp_x (i : Byte) (z : Zeb) : (fireSamp i z).x = z.x + 1 := rfl
@[simp] theorem fireSamp_sr (i : Byte) (z : Zeb) : (fireSamp i z).sr = shiftIn z.sr (thr i) := rfl
@[simp] theorem fireSamp_bc (i : Byte) (z : Zeb) : (fireSamp i z).bc = z.bc + 1 := rfl
@[simp] theorem fireSamp_ni (i : Byte) (z : Zeb) : (fireSamp i z).ni = z.ni := rfl
@[simp] theorem fireSamp_cur (i : Byte) (z : Zeb) : (fireSamp i z).cur = z.cur := rfl
@[simp] theorem fireSamp_prev (i : Byte) (z : Zeb) : (fireSamp i z).prev = z.prev := rfl
@[simp] theorem fireSamp_pv (i : Byte) (z : Zeb) : (fireSamp i z).pv = z.pv := rfl
@[simp] theorem fireSamp_eq (i : Byte) (z : Zeb) : (fireSamp i z).eq = z.eq := rfl
@[simp] theorem fireSamp_ts (i : Byte) (z : Zeb) : (fireSamp i z).ts = z.ts := rfl
@[simp] theorem fireSamp_ln (i : Byte) (z : Zeb) : (fireSamp i z).ln = z.ln := rfl
@[simp] theorem fireSamp_te (i : Byte) (z : Zeb) : (fireSamp i z).te = z.te := rfl
@[simp] theorem fireSamp_tm (i : Byte) (z : Zeb) : (fireSamp i z).tm = z.tm := rfl
@[simp] theorem fireSamp_si (i : Byte) (z : Zeb) : (fireSamp i z).si = z.si := rfl
@[simp] theorem fireSamp_rc (i : Byte) (z : Zeb) : (fireSamp i z).rc = z.rc := rfl
@[simp] theorem fireSamp_rn (i : Byte) (z : Zeb) : (fireSamp i z).rn = z.rn := rfl
@[simp] theorem fireSamp_out (i : Byte) (z : Zeb) : (fireSamp i z).out = z.out := rfl
@[simp] theorem fireSamp_taken (i : Byte) (z : Zeb) : (fireSamp i z).taken = z.taken ++ [i] := rfl
@[simp] theorem fireSamp_draws (i : Byte) (z : Zeb) : (fireSamp i z).draws = z.draws := rfl

@[simp] theorem firePad_width (z : Zeb) : (firePad z).width = z.width := rfl
@[simp] theorem firePad_height (z : Zeb) : (firePad z).height = z.height := rfl
@[simp] theorem firePad_err (z : Zeb) : (firePad z).err = z.err := rfl
@[simp] theorem firePad_phase (z : Zeb) : (firePad z).phase = z.phase := rfl
@[simp] theorem firePad_y (z : Zeb) : (firePad z).y = z.y := rfl
@[simp] theorem firePad_x (z : Zeb) : (firePad z).x = z.x := rfl
@[simp] theorem firePad_sr (z : Zeb) : (firePad z).sr = shiftIn z.sr false := rfl
@[simp] theorem firePad_bc (z : Zeb) : (firePad z).bc = z.bc + 1 := rfl
@[simp] theorem firePad_ni (z : Zeb) : (firePad z).ni = z.ni := rfl
@[simp] theorem firePad_cur (z : Zeb) : (firePad z).cur = z.cur := rfl
@[simp] theorem firePad_prev (z : Zeb) : (firePad z).prev = z.prev := rfl
@[simp] theorem firePad_pv (z : Zeb) : (firePad z).pv = z.pv := rfl
@[simp] theorem firePad_eq (z : Zeb) : (firePad z).eq = z.eq := rfl
@[simp] theorem firePad_ts (z : Zeb) : (firePad z).ts = z.ts := rfl
@[simp] theorem firePad_ln (z : Zeb) : (firePad z).ln = z.ln := rfl
@[simp] theorem firePad_te (z : Zeb) : (firePad z).te = z.te := rfl
@[simp] theorem firePad_tm (z : Zeb) : (firePad z).tm = z.tm := rfl
@[simp] theorem firePad_si (z : Zeb) : (firePad z).si = z.si := rfl
@[simp] theorem firePad_rc (z : Zeb) : (firePad z).rc = z.rc := rfl
@[simp] theorem firePad_rn (z : Zeb) : (firePad z).rn = z.rn := rfl
@[simp] theorem firePad_out (z : Zeb) : (firePad z).out = z.out := rfl
@[simp] theorem firePad_taken (z : Zeb) : (firePad z).taken = z.taken := rfl
@[simp] theorem firePad_draws (z : Zeb) : (firePad z).draws = z.draws := rfl

@[simp] theorem fireTrail_width (z : Zeb) : (fireTrail z).width = z.width := rfl
@[simp] theorem fireTrail_height (z : Zeb) : (fireTrail z).height = z.height := rfl
@[simp] theorem fireTrail_err (z : Zeb) : (fireTrail z).err = z.err := rfl
@[simp] theorem fireTrail_phase (z : Zeb) : (fireTrail z).phase = .scan := rfl
@[simp] theorem fireTrail_y (z : Zeb) : (fireTrail z).y = z.y := rfl
@[simp] theorem fireTrail_x (z : Zeb) : (fireTrail z).x = z.x := rfl
@[simp] theorem fireTrail_sr (z : Zeb) : (fireTrail z).sr = z.sr := rfl
@[simp] theorem fireTrail_bc (z : Zeb) : (fireTrail z).bc = z.bc := rfl
@[simp] theorem fireTrail_ni (z : Zeb) : (fireTrail z).ni = z.ni := rfl
@[simp] theorem fireTrail_cur (z : Zeb) : (fireTrail z).cur = z.cur := rfl
@[simp] theorem fireTrail_prev (z : Zeb) : (fireTrail z).prev = z.prev := rfl
@[simp] theorem fireTrail_pv (z : Zeb) : (fireTrail z).pv = z.pv := rfl
@[simp] theorem fireTrail_eq (z : Zeb) : (fireTrail z).eq = z.eq := rfl
@[simp] theorem fireTrail_ts (z : Zeb) : (fireTrail z).ts = z.ts := rfl
@[simp] theorem fireTrail_ln (z : Zeb) : (fireTrail z).ln = z.ln := rfl
@[simp] theorem fireTrail_te (z : Zeb) : (fireTrail z).te = trailEnd z := rfl
@[simp] theorem fireTrail_tm (z : Zeb) : (fireTrail z).tm = trailMark z.ln := rfl
@[simp] theorem fireTrail_si (z : Zeb) : (fireTrail z).si = 0 := rfl
@[simp] theorem fireTrail_rc (z : Zeb) : (fireTrail z).rc = z.rc := rfl
@[simp] theorem fireTrail_rn (z : Zeb) : (fireTrail z).rn = 0 := rfl
@[simp] theorem fireTrail_out (z : Zeb) : (fireTrail z).out = z.out := rfl
@[simp] theorem fireTrail_taken (z : Zeb) : (fireTrail z).taken = z.taken := rfl
@[simp] theorem fireTrail_draws (z : Zeb) : (fireTrail z).draws = z.draws := rfl

@[simp] theorem fireRle_width (z : Zeb) : (fireRle z).width = z.width := rfl
@[simp] theorem fireRle_height (z : Zeb) : (fireRle z).height = z.height := rfl
@[simp] theorem fireRle_err (z : Zeb) : (fireRle z).err = z.err := rfl
@[simp] theorem fireRle_phase (z : Zeb) : (fireRle z).phase = .cnt := rfl
@[simp] theorem fireRle_y (z : Zeb) : (fireRle z).y = z.y := rfl
@[simp] theorem fireRle_x (z : Zeb) : (fireRle z).x = z.x := rfl
@[simp] theorem fireRle_sr (z : Zeb) : (fireRle z).sr = z.sr := rfl
@[simp] theorem fireRle_bc (z : Zeb) : (fireRle z).bc = z.bc := rfl
@[simp] theorem fireRle_ni (z : Zeb) : (fireRle z).ni = z.ni := rfl
@[simp] theorem fireRle_cur (z : Zeb) : (fireRle z).cur = z.cur := rfl
@[simp] theorem fireRle_prev (z : Zeb) : (fireRle z).prev = z.prev := rfl
@[simp] theorem fireRle_pv (z : Zeb) : (fireRle z).pv = z.pv := rfl
@[simp] theorem fireRle_eq (z : Zeb) : (fireRle z).eq = z.eq := rfl
@[simp] theorem fireRle_ts (z : Zeb) : (fireRle z).ts = z.ts := rfl
@[simp] theorem fireRle_ln (z : Zeb) : (fireRle z).ln = z.ln := rfl
@[simp] theorem fireRle_te (z : Zeb) : (fireRle z).te = z.te := rfl
@[simp] theorem fireRle_tm (z : Zeb) : (fireRle z).tm = z.tm := rfl
@[simp] theorem fireRle_si (z : Zeb) : (fireRle z).si = z.si := rfl
@[simp] theorem fireRle_rc (z : Zeb) : (fireRle z).rc = z.rc := rfl
@[simp] theorem fireRle_rn (z : Zeb) : (fireRle z).rn = z.rn := rfl
@[simp] theorem fireRle_out (z : Zeb) : (fireRle z).out = z.out := rfl
@[simp] theorem fireRle_taken (z : Zeb) : (fireRle z).taken = z.taken := rfl
@[simp] theorem fireRle_draws (z : Zeb) : (fireRle z).draws = z.draws := rfl

@[simp] theorem refuse_stream (r : Reader) (why : ReadRefusal) : (r.refuse why).stream = r.stream := rfl
@[simp] theorem refuse_byteWidth (r : Reader) (why : ReadRefusal) : (r.refuse why).byteWidth = r.byteWidth := rfl
@[simp] theorem refuse_pixelHeight (r : Reader) (why : ReadRefusal) : (r.refuse why).pixelHeight = r.pixelHeight := rfl
@[simp] theorem refuse_strict (r : Reader) (why : ReadRefusal) : (r.refuse why).strict = r.strict := rfl
@[simp] theorem refuse_rows (r : Reader) (why : ReadRefusal) : (r.refuse why).rows = r.rows := rfl
@[simp] theorem refuse_cur (r : Reader) (why : ReadRefusal) : (r.refuse why).cur = r.cur := rfl
@[simp] theorem refuse_cnt (r : Reader) (why : ReadRefusal) : (r.refuse why).cnt = r.cnt := rfl
@[simp] theorem refuse_stage (r : Reader) (why : ReadRefusal) : (r.refuse why).stage = r.stage := rfl
@[simp] theorem refuse_verdict (r : Reader) (why : ReadRefusal) : (r.refuse why).verdict = .refused why := rfl

@[simp] theorem complete_stream (r : Reader) (row : List Nibble) : (r.complete row).stream = r.stream := rfl
@[simp] theorem complete_byteWidth (r : Reader) (row : List Nibble) : (r.complete row).byteWidth = r.byteWidth := rfl
@[simp] theorem complete_pixelHeight (r : Reader) (row : List Nibble) : (r.complete row).pixelHeight = r.pixelHeight := rfl
@[simp] theorem complete_strict (r : Reader) (row : List Nibble) : (r.complete row).strict = r.strict := rfl
@[simp] theorem complete_rows (r : Reader) (row : List Nibble) : (r.complete row).rows = r.rows ++ [row] := rfl
@[simp] theorem complete_cur (r : Reader) (row : List Nibble) : (r.complete row).cur = [] := rfl
@[simp] theorem complete_cnt (r : Reader) (row : List Nibble) : (r.complete row).cnt = r.cnt := rfl
@[simp] theorem complete_stage (r : Reader) (row : List Nibble) : (r.complete row).stage = r.stage := rfl
@[simp] theorem complete_verdict (r : Reader) (row : List Nibble) : (r.complete row).verdict = r.verdict := rfl

@[simp] theorem giveStream_stream (s : List Byte) (bw ph : Nat) (st : Bool) : (giveStream s bw ph st).stream = s := rfl
@[simp] theorem giveStream_byteWidth (s : List Byte) (bw ph : Nat) (st : Bool) : (giveStream s bw ph st).byteWidth = bw := rfl
@[simp] theorem giveStream_pixelHeight (s : List Byte) (bw ph : Nat) (st : Bool) : (giveStream s bw ph st).pixelHeight = ph := rfl
@[simp] theorem giveStream_strict (s : List Byte) (bw ph : Nat) (st : Bool) : (giveStream s bw ph st).strict = st := rfl
@[simp] theorem giveStream_rows (s : List Byte) (bw ph : Nat) (st : Bool) : (giveStream s bw ph st).rows = [] := rfl
@[simp] theorem giveStream_cur (s : List Byte) (bw ph : Nat) (st : Bool) : (giveStream s bw ph st).cur = [] := rfl
@[simp] theorem giveStream_cnt (s : List Byte) (bw ph : Nat) (st : Bool) : (giveStream s bw ph st).cnt = 0 := rfl
@[simp] theorem giveStream_stage (s : List Byte) (bw ph : Nat) (st : Bool) : (giveStream s bw ph st).stage = .start := rfl
@[simp] theorem giveStream_verdict (s : List Byte) (bw ph : Nat) (st : Bool) : (giveStream s bw ph st).verdict = .reading := rfl

end Sys2Proof.Machine
end

