-- ==== Sys2Proof/Laws/Step.lean ====
section
/-! SUPPORT. What one step can do, said once: the four kinds of step, what a step of ZEB can answer, what the dispatch
table can select, and what a step of the reader can answer. Later proofs cite these and do not unfold `step`. -/

namespace Sys2Proof.Machine

/-! ### The micro-operations that can fault -/

/-- What PACK can answer (R135, R152, R153). -/
theorem firePack_eq_ok {z t : Zeb} :
    firePack z = .ok t ↔
      z.ni < z.rowLen ∧ ∃ e, eqNext z (nibbleMux z.sr z.ni) = .ok e ∧
        t = { z with cur := z.cur.write z.ni (nibbleMux z.sr z.ni), eq := e, ni := z.ni + 1,
                     sr := if z.ni % 2 = 1 then 0 else z.sr, bc := if z.ni % 2 = 1 then 0 else z.bc,
                     ts := tsNext z (nibbleMux z.sr z.ni), ln := nibbleMux z.sr z.ni } := by
  unfold firePack
  cases hw : writeRow z.rowLen z.cur z.ni (nibbleMux z.sr z.ni) with
  | error f =>
    have : ¬ z.ni < z.rowLen := fun h => by
      rw [writeRow_eq_ok.mpr ⟨h, rfl⟩] at hw; cases hw
    simp [this]
  | ok m =>
    obtain ⟨h, rfl⟩ := writeRow_eq_ok.mp hw
    cases he : eqNext z (nibbleMux z.sr z.ni) with
    | error f => simp
    | ok e => simp [h, eq_comm]

/-- What ACC can answer (R156). -/
theorem fireAcc_eq_ok {z t : Zeb} :
    fireAcc z = .ok t ↔
      z.si < z.rowLen ∧ ∃ v, z.cur.read z.si = some v ∧ t = { z with rc := v, rn := z.rn + 1, si := z.si + 1 } := by
  unfold fireAcc
  cases hr : readRow z.rowLen z.cur z.si with
  | error f =>
    simp only [reduceCtorEq, false_iff]
    rintro ⟨h, v, hv, _⟩
    rw [readRow_eq_ok.mpr ⟨h, hv⟩] at hr; cases hr
  | ok v =>
    obtain ⟨h, hv⟩ := readRow_eq_ok.mp hr
    simp [h, hv, eq_comm]

/-- What COMMIT can answer (R184). -/
theorem fireCommit_eq_ok {z t : Zeb} :
    fireCommit z = .ok t ↔
      ∃ d, copyRow z.rowLen z.cur z.prev = .ok d ∧
        t = { z with prev := d, pv := true, eq := true, y := z.y + 1, x := 0, ni := 0,
                     phase := if z.y + 1 = z.height then .done else .load } := by
  unfold fireCommit
  cases hr : copyRow z.rowLen z.cur z.prev <;> simp [eq_comm]

/-! ### The dispatch table -/

theorem whenReady_eq_some {b : Bool} {o op : MicroOp} : whenReady b o = some op ↔ b = true ∧ o = op := by
  unfold whenReady; split <;> simp_all

theorem whenReady_eq_none {b : Bool} {o : MicroOp} : whenReady b o = none ↔ b = false := by
  unfold whenReady; split <;> simp_all

/-- What must hold of the state and the ports for a micro-operation to be selected (R182). -/
def Selected (p : PortIn) (z : Zeb) : MicroOp → Prop
  | .reset => p.rst = true
  | .start => p.rst = false ∧ (z.phase = .idle ∨ z.phase = .done) ∧ ∃ c, p.cmd = some c
  | .samp => p.rst = false ∧ z.phase = .load ∧ z.bc < 8 ∧ z.x < z.width ∧ ∃ i, p.pix = some i
  | .pad => p.rst = false ∧ z.phase = .load ∧ z.x = z.width ∧ 1 ≤ z.bc ∧ z.bc ≤ 7
  | .pack => p.rst = false ∧ z.phase = .load ∧ z.bc = 8
  | .rowrep => p.rst = false ∧ z.phase = .load ∧ z.x = z.width ∧ z.bc = 0 ∧ z.repeats = true ∧ p.tokReady = true
  | .trail => p.rst = false ∧ z.phase = .load ∧ z.x = z.width ∧ z.bc = 0 ∧ z.repeats = false
  | .acc => p.rst = false ∧ z.phase = .scan ∧ z.si < z.te ∧
      (z.rn = 0 ∨ z.si < z.rowLen ∧ z.cur.read z.si = some z.rc)
  | .lit => p.rst = false ∧ z.phase = .scan ∧ 1 ≤ z.rn ∧ z.rn ≤ 2 ∧ z.closed = .ok true ∧ p.tokReady = true
  | .rle => p.rst = false ∧ z.phase = .scan ∧ 3 ≤ z.rn ∧ z.closed = .ok true
  | .cntz => p.rst = false ∧ z.phase = .cnt ∧ 400 ≤ z.rn ∧ p.tokReady = true
  | .cnt20 => p.rst = false ∧ z.phase = .cnt ∧ 20 ≤ z.rn ∧ z.rn ≤ 399 ∧ p.tokReady = true
  | .cnt1 => p.rst = false ∧ z.phase = .cnt ∧ 1 ≤ z.rn ∧ z.rn ≤ 19 ∧ p.tokReady = true
  | .repc => p.rst = false ∧ z.phase = .cnt ∧ z.rn = 0 ∧ p.tokReady = true
  | .eol => p.rst = false ∧ z.phase = .scan ∧ z.rn = 0 ∧ z.si = z.te ∧ (z.tm = .none ∨ p.tokReady = true)
  | .commit => p.rst = false ∧ z.phase = .eor

/-- What the dispatch table can select: one inversion for all sixteen micro-operations. -/
theorem select_some {p : PortIn} {z : Zeb} {op : MicroOp} (h : select p z = .ok (some op)) : Selected p z op := by
  unfold select at h
  split at h
  · cases h; assumption
  · rename_i hr
    have hr : p.rst = false := by simpa using hr
    split at h
    · rename_i hp
      simp only [Except.ok.injEq, whenReady_eq_some] at h
      obtain ⟨hc, rfl⟩ := h
      exact ⟨hr, .inl hp, Option.isSome_iff_exists.mp hc⟩
    · rename_i hp
      simp only [Except.ok.injEq, whenReady_eq_some] at h
      obtain ⟨hc, rfl⟩ := h
      exact ⟨hr, .inr hp, Option.isSome_iff_exists.mp hc⟩
    · rename_i hp
      simp only [selectLoad, Except.ok.injEq] at h
      split at h
      · cases h; exact ⟨hr, hp, ‹_›⟩
      · split at h
        · rename_i hb
          obtain ⟨hc, rfl⟩ := whenReady_eq_some.mp h
          exact ⟨hr, hp, hb.1, hb.2, Option.isSome_iff_exists.mp hc⟩
        · split at h
          · cases h; exact ⟨hr, hp, ‹_›⟩
          · split at h
            · rename_i hx
              split at h
              · obtain ⟨ht, rfl⟩ := whenReady_eq_some.mp h
                exact ⟨hr, hp, hx.1, hx.2, ‹_›, ht⟩
              · cases h; exact ⟨hr, hp, hx.1, hx.2, by simpa using ‹¬ z.repeats = true›⟩
            · cases h
    · rename_i hp
      unfold selectScan at h
      split at h
      · rename_i hn
        split at h
        · cases h; exact ⟨hr, hp, ‹_›, .inl hn⟩
        · split at h
          · rename_i hs
            simp only [Except.ok.injEq, whenReady_eq_some] at h
            obtain ⟨ht, rfl⟩ := h
            exact ⟨hr, hp, hn, hs, by simpa using ht⟩
          · cases h
      · rename_i hn
        split at h
        · cases h
        · rename_i hc
          simp only [Except.ok.injEq] at h
          split at h
          · obtain ⟨ht, rfl⟩ := whenReady_eq_some.mp h
            exact ⟨hr, hp, by omega, ‹_›, hc, ht⟩
          · cases h; exact ⟨hr, hp, by omega, hc⟩
        · rename_i hc
          simp only [Except.ok.injEq] at h
          split at h
          · rename_i hs
            cases h
            rcases closed_eq_ok.mp hc with ⟨h1, _⟩ | ⟨h1, _⟩ | ⟨_, hl, v, hv, hb⟩
            · omega
            · omega
            · have : v = z.rc := by simpa using hb.symm
              exact ⟨hr, hp, hs, .inr ⟨hl, this ▸ hv⟩⟩
          · cases h
    · rename_i hp
      simp only [selectCnt, Except.ok.injEq, whenReady_eq_some] at h
      obtain ⟨ht, h⟩ := h
      split at h
      · cases h; exact ⟨hr, hp, ‹_›, ht⟩
      · split at h
        · cases h; exact ⟨hr, hp, ‹_›, by omega, ht⟩
        · split at h
          · cases h; exact ⟨hr, hp, ‹_›, by omega, ht⟩
          · cases h; exact ⟨hr, hp, by omega, ht⟩
    · cases h; exact ⟨hr, ‹_›⟩

/-! ### A step of ZEB -/

/-- SAMP is the meaning of the pixel beat it takes. -/
theorem exec_pix_of_selected {p : PortIn} {s : State} (h : Selected p s.zeb .samp) :
    ∃ i, p.pix = some i ∧ exec (.pix i) s = .next { s with zeb := fireSamp i s.zeb } := by
  obtain ⟨_, hp, hb, hx, i, hi⟩ := h
  exact ⟨i, hi, by simp [exec, execPix, Zeb.pixReady, hp, hb, hx]⟩

/-- What a step of ZEB can answer: a wait, or one selected micro-operation. -/
theorem zebStep_next {p : PortIn} {s t : State} (h : zebStep p s = .next t) :
    (select p s.zeb = .ok none ∧ t = s) ∨
      ∃ op z, select p s.zeb = .ok (some op) ∧ fire s.params p s.zeb op = .ok z ∧ t = { s with zeb := z } := by
  unfold zebStep at h
  split at h
  · cases h
  · cases h; exact .inl ⟨‹_›, rfl⟩
  · rename_i hs
    obtain ⟨i, hi, he⟩ := exec_pix_of_selected (select_some hs)
    simp only [fetchPixel, hi, Option.map_some, decodePixel, he] at h
    cases h
    exact .inr ⟨_, _, hs, by simp [fire, hi], rfl⟩
  · rename_i op _ hs
    split at h
    · cases h; exact .inr ⟨_, _, hs, ‹_›, rfl⟩
    · cases h

/-- A micro-operation that is selected and answers is what the step does. -/
theorem zebStep_of_fire {p : PortIn} {s : State} {op : MicroOp} {z : Zeb} (hs : select p s.zeb = .ok (some op))
    (hf : fire s.params p s.zeb op = .ok z) : zebStep p s = .next { s with zeb := z } := by
  unfold zebStep
  rw [hs]
  cases op
  case samp =>
    obtain ⟨i, hi, he⟩ := exec_pix_of_selected (select_some hs)
    simp only [fire, hi] at hf
    cases hf
    simp [fetchPixel, hi, decodePixel, he]
  all_goals simp only [hf]

/-! ### The two agents -/

/-- A step is the step of the agent the next event names. -/
theorem step_eq (s : State) :
    step s =
      match s.nextEvent with
      | .zeb p => zebStep p s.popped
      | .give stream bw ph strict => .next { s.popped with reader := giveStream stream bw ph strict }
      | .read => readStep s.popped := by
  obtain ⟨q, z, r, sched⟩ := s
  cases sched with
  | nil => rfl
  | cons e rest => cases e <;> rfl

/-! ### Runs -/

@[simp] theorem run_zero (s : State) : s.run 0 = .next s := rfl

/-- One more step in front of a run. -/
theorem run_succ (n : Nat) (s : State) :
    s.run (n + 1) =
      match step s with
      | .next t => t.run n
      | .fault f => .fault f
      | .refused r => .refused r := rfl

/-- A run that goes on ends where the rest of it, from the state after its first step, ends. -/
theorem run_succ_next {n : Nat} {s u : State} :
    s.run (n + 1) = .next u ↔ ∃ t, step s = .next t ∧ t.run n = .next u := by
  rw [run_succ]
  cases step s <;> simp

end Sys2Proof.Machine
end

