-- ==== Sys2Proof/Laws/Reader.lean ====
section
/-! SUPPORT. What the reader can do, said once: every stream character is one of five operations on the reader, and
what each can answer. -/

namespace Sys2Proof.Machine

/-- The operation of a token class on the reader (44_token_stream.md rules R201 to R207). -/
def readKind : TokenKind → Reader → Reader
  | .hex d => readHex d
  | .count c v => readCount c v
  | .fill d => readFill d
  | .rep => readRep
  | .beat => id

/-- Every stream character is its class's operation on the reader. -/
theorem exec_token {i : Instr} (h : i.kind ≠ .beat) (s : State) : exec i s = readToken (readKind i.kind) s := by
  cases i <;> first | rfl | exact absurd rfl h

/-- The codes of the token port are never the pixel beat. -/
theorem decodeToken_kind {c : Byte} {i : Instr} (h : decodeToken c = .ok i) : i.kind ≠ .beat := by
  unfold decodeToken at h
  split at h
  · rename_i r hr
    cases h
    have : ∀ r ∈ tokenTable, r.instr.kind ≠ .beat := by decide
    exact this r (List.mem_of_find?_eq_some hr)
  · cases h

/-- What the reader finds when it looks for its next character. -/
theorem fetchToken_cases (r : Reader) :
    (r.verdict ≠ .reading ∧ fetchToken r = .idle) ∨
      (r.verdict = .reading ∧ r.stream = [] ∧ fetchToken r = .ended) ∨
      (∃ c cs i, r.verdict = .reading ∧ r.stream = c :: cs ∧ decodeToken c = .ok i ∧
        fetchToken r = .instr i { r with stream := cs }) ∨
      (∃ c cs, r.verdict = .reading ∧ r.stream = c :: cs ∧ decodeToken c = .error (.outsideAlphabet c) ∧
        fetchToken r = .bad (({ r with stream := cs }).refuse (.outsideAlphabet c))) := by
  by_cases hv : r.verdict = .reading
  · cases hs : r.stream with
    | nil => exact .inr (.inl ⟨hv, rfl, by simp [fetchToken, hv, hs]⟩)
    | cons c cs =>
      cases hd : decodeToken c with
      | ok i => exact .inr (.inr (.inl ⟨c, cs, i, hv, rfl, hd, by simp [fetchToken, hv, hs, hd]⟩))
      | error e =>
        have he : e = .outsideAlphabet c := by
          unfold decodeToken at hd
          split at hd <;> cases hd
          rfl
        subst he
        exact .inr (.inr (.inr ⟨c, cs, hv, rfl, hd, by simp [fetchToken, hv, hs, hd]⟩))
  · exact .inl ⟨hv, by simp [fetchToken, hv]⟩

/-- A step of the reader always answers, and touches the reader only. -/
theorem readStep_next (s : State) : ∃ r, readStep s = .next { s with reader := r } ∧
    (r = s.reader ∨ (s.reader.verdict = .reading ∧
      ((s.reader.stream = [] ∧ r = readEnd s.reader) ∨
        (∃ c cs i, s.reader.stream = c :: cs ∧ decodeToken c = .ok i ∧
          r = readKind i.kind { s.reader with stream := cs }) ∨
        (∃ c cs, s.reader.stream = c :: cs ∧ decodeToken c = .error (.outsideAlphabet c) ∧
          r = ({ s.reader with stream := cs }).refuse (.outsideAlphabet c))))) := by
  unfold readStep
  rcases fetchToken_cases s.reader with ⟨_, h⟩ | ⟨hv, hs, h⟩ | ⟨c, cs, i, hv, hs, hd, h⟩ | ⟨c, cs, hv, hs, hd, h⟩
  · exact ⟨s.reader, by rw [h], .inl rfl⟩
  · exact ⟨_, by rw [h], .inr ⟨hv, .inl ⟨hs, rfl⟩⟩⟩
  · refine ⟨_, ?_, .inr ⟨hv, .inr (.inl ⟨c, cs, i, hs, hd, rfl⟩)⟩⟩
    rw [h]
    simp [exec_token (decodeToken_kind hd), readToken, hv]
  · exact ⟨_, by rw [h], .inr ⟨hv, .inr (.inr ⟨c, cs, hs, hd, rfl⟩)⟩⟩

/-! ### The five operations -/

/-- What a HEX character does (R201, R211). -/
theorem readHex_cases (d : Nibble) (r : Reader) :
    (∃ why, readHex d r = r.refuse why) ∨
      (r.cur.length + r.copies = r.rowLen ∧
        readHex d r = ({ r with cnt := 0, stage := .start }).complete (r.cur ++ List.replicate r.copies d)) ∨
      (r.cur.length + r.copies < r.rowLen ∧
        readHex d r = { r with cnt := 0, stage := .start, cur := r.cur ++ List.replicate r.copies d }) := by
  unfold readHex
  split
  · exact .inl ⟨_, rfl⟩
  · split
    · exact .inl ⟨_, rfl⟩
    · split
      · exact .inr (.inl ⟨‹_›, rfl⟩)
      · exact .inr (.inr ⟨by omega, rfl⟩)

/-- What a count character does (R202 to R204, R211). -/
theorem readCount_cases (c : CountStage) (v : Nat) (r : Reader) :
    (∃ why, readCount c v r = r.refuse why) ∨ readCount c v r = { r with cnt := r.cnt + v, stage := c } := by
  unfold readCount
  split
  · exact .inl ⟨_, rfl⟩
  · exact .inr rfl

/-- What a marker does (R205, R206, R211). -/
theorem readFill_cases (d : Nibble) (r : Reader) :
    (∃ why, readFill d r = r.refuse why) ∨
      (r.cnt = 0 ∧ r.cur.length < r.rowLen ∧
        readFill d r = r.complete (r.cur ++ List.replicate (r.rowLen - r.cur.length) d)) := by
  unfold readFill
  split
  · exact .inl ⟨_, rfl⟩
  · split
    · exact .inl ⟨_, rfl⟩
    · exact .inr ⟨by omega, by omega, rfl⟩

/-- What `:` does (R207, R211). -/
theorem readRep_cases (r : Reader) :
    (∃ why, readRep r = r.refuse why) ∨
      (r.cnt = 0 ∧ r.cur = [] ∧ ∃ row, r.rows.getLast? = some row ∧ readRep r = r.complete row) := by
  unfold readRep
  split
  · exact .inl ⟨_, rfl⟩
  · split
    · exact .inl ⟨_, rfl⟩
    · split
      · exact .inl ⟨_, rfl⟩
      · exact .inr ⟨by omega, by simpa using ‹¬ r.cur ≠ []›, _, ‹_›, rfl⟩

/-- What the end of the stream does (R209, R211). -/
theorem readEnd_cases (r : Reader) :
    (∃ why, readEnd r = r.refuse why) ∨
      (r.cnt = 0 ∧ r.cur = [] ∧ r.rows.length = r.pixelHeight ∧ readEnd r = { r with verdict := .accepted }) := by
  unfold readEnd
  split
  · exact .inl ⟨_, rfl⟩
  · split
    · exact .inl ⟨_, rfl⟩
    · split
      · exact .inl ⟨_, rfl⟩
      · exact .inr ⟨by omega, by simpa using ‹¬ r.cur ≠ []›, by omega, rfl⟩

end Sys2Proof.Machine
end

