-- ==== Sys2Proof/Laws/Run.lean ====
section
/-! SUPPORT. Runs, said once: a run in two parts, a step that has an event does not look past it, and one more event
of an endless schedule. -/

namespace Sys2Proof.Machine

/-- What follows a run that answers is a run from its end. -/
theorem run_add_of_next {m : Nat} {s t : State} (h : s.run m = .next t) (n : Nat) : s.run (m + n) = t.run n := by
  induction m generalizing s with
  | zero => cases h; rw [Nat.zero_add]
  | succ m ih =>
    obtain ⟨u, hu, ht⟩ := run_succ_next.mp h
    rw [Nat.add_right_comm, run_succ, hu]
    exact ih ht

@[simp] theorem run_one (s : State) : s.run 1 = step s := by
  rw [run_succ]; cases step s <;> rfl

/-- A step of ZEB neither reads nor writes the schedule. -/
theorem zebStep_sched {p : PortIn} {s t : State} (h : zebStep p s = .next t) (l : List Event) :
    t.sched = s.sched ∧ zebStep p { s with sched := l } = .next { t with sched := l } := by
  rcases zebStep_next h with ⟨hs, rfl⟩ | ⟨op, z, hs, hf, rfl⟩
  · exact ⟨rfl, by simp [zebStep, hs]⟩
  · exact ⟨rfl, zebStep_of_fire (s := { s with sched := l }) hs hf⟩

/-- A step of the reader neither reads nor writes the schedule. -/
theorem readStep_sched {s t : State} (h : readStep s = .next t) (l : List Event) :
    t.sched = s.sched ∧ readStep { s with sched := l } = .next { t with sched := l } := by
  unfold readStep at *
  rcases fetchToken_cases s.reader with ⟨_, hf⟩ | ⟨_, _, hf⟩ | ⟨_, _, i, hv, _, hd, hf⟩ | ⟨_, _, _, _, _, hf⟩ <;>
    simp only [hf] at h ⊢
  case inr.inr.inl =>
    rw [exec_token (decodeToken_kind hd)] at h ⊢
    simp only [readToken, hv, if_true] at h ⊢
    cases h; exact ⟨rfl, rfl⟩
  all_goals cases h; exact ⟨rfl, rfl⟩

/-- A step takes the first event off the schedule and does not look past it. -/
theorem step_sched {s t : State} {e : Event} {l : List Event} (h : step s = .next t) (hs : s.sched = e :: l)
    (l' : List Event) : t.sched = l ∧ step { s with sched := e :: l' } = .next { t with sched := l' } := by
  obtain ⟨q, z, r, sched⟩ := s
  obtain rfl : sched = e :: l := hs
  cases e with
  | zeb p => exact zebStep_sched (s := ⟨q, z, r, l⟩) h l'
  | give => cases h; exact ⟨rfl, rfl⟩
  | read => exact readStep_sched (s := ⟨q, z, r, l⟩) h l'

/-- A run takes as many events off the schedule as it has steps and does not look past them. -/
theorem run_sched {n : Nat} {s t : State} {l rest : List Event} (h : s.run n = .next t) (hs : s.sched = l ++ rest)
    (hl : l.length = n) (rest' : List Event) :
    t.sched = rest ∧ ({ s with sched := l ++ rest' } : State).run n = .next { t with sched := rest' } := by
  induction l generalizing s n with
  | nil => subst hl; cases h; exact ⟨hs, rfl⟩
  | cons e l ih =>
    subst hl
    obtain ⟨u, hu, ht⟩ := run_succ_next.mp h
    obtain ⟨h1, h2⟩ := step_sched hu hs (l ++ rest')
    obtain ⟨h3, h4⟩ := ih ht h1 rfl
    exact ⟨h3, run_succ_next.mpr ⟨_, h2, h4⟩⟩

/-! ### An endless schedule -/

@[simp] theorem driven_zero (s : State) (ev : Nat → Event) : s.driven ev 0 = s := rfl
@[simp] theorem driven_params (s : State) (ev : Nat → Event) (n : Nat) : (s.driven ev n).params = s.params := rfl
@[simp] theorem driven_zeb (s : State) (ev : Nat → Event) (n : Nat) : (s.driven ev n).zeb = s.zeb := rfl
@[simp] theorem driven_reader (s : State) (ev : Nat → Event) (n : Nat) : (s.driven ev n).reader = s.reader := rfl

/-- One more event of an endless schedule: the step of that event, from where the events before it led. -/
theorem driven_run_succ {s t : State} {ev : Nat → Event} {n : Nat} (h : (s.driven ev n).run n = .next t) :
    t.sched = s.sched ∧ (s.driven ev (n + 1)).run (n + 1) = step { t with sched := ev n :: s.sched } := by
  obtain ⟨h1, h2⟩ := run_sched h rfl (by simp) (ev n :: s.sched)
  have hd : s.driven ev (n + 1) =
      { s.driven ev n with sched := (List.range n).map ev ++ ev n :: s.sched } := by
    simp [State.driven, List.range_succ]
  exact ⟨h1, by rw [hd, run_add_of_next h2, run_one]⟩

end Sys2Proof.Machine
end

