-- ==== Sys2Proof/Tests/Slice0.lean ====
section
/-! SUPPORT. Tests of one step each, with results from the spec's examples, and for every statement with hypotheses a
state and operands that meet them. -/

namespace Sys2Proof.Tests

open Sys2Proof Sys2Proof.Machine

/-! ### Helpers -/

/-- Ports that offer nothing but accept a character. -/
def sink : PortIn := ⟨false, none, none, true⟩

/-- A machine with this ZEB, about to take one step of it with these ports. -/
def atPorts (p : PortIn) (z : Zeb) : State := { State.reset with zeb := z, sched := [.zeb p] }

/-- A machine with this reader. -/
def withReader (r : Reader) : State := { State.reset with reader := r }

/-- A machine with this reader, about to take one step of it. -/
def atRead (r : Reader) : State := { State.reset with reader := r, sched := [.read] }

/-- A reader of rows of `2 * bw` nibbles that has read nothing. -/
def fresh (bw ph : Nat) : Reader := giveStream [] bw ph false

/-- What a step leaves in ZEB. -/
def zebAfter (s : State) : Option Zeb :=
  match step s with
  | .next t => some t.zeb
  | .fault _ => none
  | .refused _ => none

/-- What an instruction leaves in the reader. -/
def readerAfter (i : Instr) (s : State) : Option Reader :=
  match exec i s with
  | .next t => some t.reader
  | .fault _ => none
  | .refused _ => none

/-- A row of nibbles in a row buffer. -/
def rowOf (l : List Nibble) : Memory := (List.range l.length).zip l

/-! ### Well-formed streams: each check refuses an ill-formed row (R98, R106) -/

theorem test_wf_accepts : rowsOk 4 true [[.cnt1_3, .hexA, .fill0], [.rowrep], [.hex1, .hex1, .hex3, .fill0]] = true := by
  decide
theorem test_wf_rowrep_first : rowOk 2 true [.rowrep] = false := by decide
theorem test_wf_rowrep_inside : rowOk 4 false [.hexA, .rowrep] = false := by decide
theorem test_wf_pixel_beat : rowOk 4 false [.pix 0x41] = false := by decide
theorem test_wf_count_of_two : rowOk 2 false [.cnt1_2, .hexA] = false := by decide
theorem test_wf_count_order : rowOk 42 false [.cnt1_2, .cnt20_2, .hexA] = false := by decide
theorem test_wf_two_cnt20 : rowOk 40 false [.cnt20_1, .cnt20_1, .hexA] = false := by decide
theorem test_wf_z_after_cnt20 : rowOk 420 false [.cnt20_1, .cnt400, .hexA] = false := by decide
theorem test_wf_three_singles : rowOk 4 false [.hexA, .hexA, .hexA, .fill0] = false := by decide
theorem test_wf_run_not_maximal : rowOk 4 false [.cnt1_3, .hexA, .hexA] = false := by decide
theorem test_wf_marker_after_own : rowOk 4 false [.hexA, .hex0, .fill0] = false := by decide
theorem test_wf_marker_after_count : rowOk 4 false [.cnt1_3, .fill0] = false := by decide
theorem test_wf_marker_on_full_row : rowOk 2 false [.hexA, .hex1, .fill0] = false := by decide
theorem test_wf_marker_not_last : rowOk 4 false [.fill0, .hexA] = false := by decide
theorem test_wf_ends_in_zero : rowOk 2 false [.hexA, .hex0] = false := by decide
theorem test_wf_ends_in_count : rowOk 2 false [.hexA, .cnt1_3] = false := by decide
theorem test_wf_short_row : rowOk 4 false [.hexA, .hex1] = false := by decide
theorem test_wf_empty_row : rowOk 2 false [] = false := by decide

/-! ### Decoding: the words of the tables of R92 to R97, each written out -/

theorem test_decode_hex :
    [0x30, 0x31, 0x32, 0x33, 0x34, 0x35, 0x36, 0x37, 0x38, 0x39, 0x41, 0x42, 0x43, 0x44, 0x45, 0x46].map
      (fun c => decode ⟨.token, c⟩) =
    [.ok .hex0, .ok .hex1, .ok .hex2, .ok .hex3, .ok .hex4, .ok .hex5, .ok .hex6, .ok .hex7, .ok .hex8, .ok .hex9,
      .ok .hexA, .ok .hexB, .ok .hexC, .ok .hexD, .ok .hexE, .ok .hexF] := by decide

theorem test_decode_cnt1 :
    [0x47, 0x48, 0x49, 0x4A, 0x4B, 0x4C, 0x4D, 0x4E, 0x4F, 0x50, 0x51, 0x52, 0x53, 0x54, 0x55, 0x56, 0x57, 0x58,
      0x59].map (fun c => decode ⟨.token, c⟩) =
    [.ok .cnt1_1, .ok .cnt1_2, .ok .cnt1_3, .ok .cnt1_4, .ok .cnt1_5, .ok .cnt1_6, .ok .cnt1_7, .ok .cnt1_8,
      .ok .cnt1_9, .ok .cnt1_10, .ok .cnt1_11, .ok .cnt1_12, .ok .cnt1_13, .ok .cnt1_14, .ok .cnt1_15, .ok .cnt1_16,
      .ok .cnt1_17, .ok .cnt1_18, .ok .cnt1_19] := by decide

theorem test_decode_cnt20 :
    [0x67, 0x68, 0x69, 0x6A, 0x6B, 0x6C, 0x6D, 0x6E, 0x6F, 0x70, 0x71, 0x72, 0x73, 0x74, 0x75, 0x76, 0x77, 0x78,
      0x79].map (fun c => decode ⟨.token, c⟩) =
    [.ok .cnt20_1, .ok .cnt20_2, .ok .cnt20_3, .ok .cnt20_4, .ok .cnt20_5, .ok .cnt20_6, .ok .cnt20_7, .ok .cnt20_8,
      .ok .cnt20_9, .ok .cnt20_10, .ok .cnt20_11, .ok .cnt20_12, .ok .cnt20_13, .ok .cnt20_14, .ok .cnt20_15,
      .ok .cnt20_16, .ok .cnt20_17, .ok .cnt20_18, .ok .cnt20_19] := by decide

theorem test_decode_marks :
    [0b01111010, 0b00101100, 0b00100001, 0b00111010].map (fun c => decode ⟨.token, c⟩) =
      [.ok .cnt400, .ok .fill0, .ok .fillF, .ok .rowrep] := by decide

theorem test_decode_pixel : decode ⟨.pixel, 0x3A⟩ = .ok (.pix 0x3A) := by decide

/-- R105: lowercase `f`, uppercase `Z`, a space and a code with bit 7 set. -/
theorem test_decode_outside :
    [0x66, 0x5A, 0x20, 0xB0].map (fun c => decode ⟨.token, c⟩) =
      [.error (.outsideAlphabet 0x66), .error (.outsideAlphabet 0x5A), .error (.outsideAlphabet 0x20),
        .error (.outsideAlphabet 0xB0)] := by decide

theorem test_table_word : decodeTableWord 8 0x59 = some .cnt1_19 ∧ decodeTableWord 8 0x05 = some (.pix 5) := by decide

/-! ### Level F: the examples of R149, R147, R167 and 95_test_vectors.md -/

theorem test_count_439 : countToken 439 = [0x7A, 0x67, 0x59] := by decide
theorem test_count_21 : countToken 21 = [0x67, 0x47] := by decide
/-- `AAAAAA00` gives `LA,` (90_conflicts.md C1). -/
theorem test_compress_cascade :
    compress [0x41, 0x41, 0x41, 0x41, 0x41, 0x41, 0x30, 0x30] none = [0x4C, 0x41, 0x2C] := by decide
/-- `0000FF` gives `J0!` (R167). -/
theorem test_compress_eff : compress [0x30, 0x30, 0x30, 0x30, 0x46, 0x46] none = [0x4A, 0x30, 0x21] := by decide

/-! ### The stream characters: the examples of R201 to R207 -/

/-- R201: `cnt` = 6, character `A`. -/
theorem test_hexA_counted :
    (readerAfter .hexA (withReader { fresh 4 1 with cnt := 6 })).map (fun r => (r.cur, r.cnt)) =
      some ([0xA, 0xA, 0xA, 0xA, 0xA, 0xA], 0) := by decide
/-- T4: `LA` with byteWidth 3 completes the row without a marker. -/
theorem test_hexA_completes :
    (readerAfter .hexA (withReader { fresh 3 1 with cnt := 6 })).map (fun r => (r.rows, r.cur)) =
      some ([[0xA, 0xA, 0xA, 0xA, 0xA, 0xA]], []) := by decide
/-- R202: `Y` adds 19. -/
theorem test_cnt1_19 : (readerAfter .cnt1_19 (withReader (fresh 2 1))).map (·.cnt) = some 19 := by decide
/-- R202: DEC gives `GG` the sum 2. -/
theorem test_cnt1_1_twice : (readerAfter .cnt1_1 (withReader { fresh 2 1 with cnt := 1, stage := .ones })).map (·.cnt) =
    some 2 := by decide
/-- R203: `g` after `z` gives 420. -/
theorem test_cnt20_1 : (readerAfter .cnt20_1 (withReader { fresh 2 1 with cnt := 400 })).map (·.cnt) = some 420 := by
  decide
/-- R204: `zz` is 800. -/
theorem test_cnt400 : (readerAfter .cnt400 (withReader { fresh 2 1 with cnt := 400 })).map (·.cnt) = some 800 := by
  decide
/-- R205: L = 4, `cur` = [0xA], `,` gives the row `A000`. -/
theorem test_fill0 : (readerAfter .fill0 (withReader { fresh 2 1 with cur := [0xA] })).map (·.rows) =
    some [[0xA, 0x0, 0x0, 0x0]] := by decide
/-- R206: L = 6, `cur` = [0, 0, 0, 0], `!` gives the row `0000FF`. -/
theorem test_fillF : (readerAfter .fillF (withReader { fresh 3 1 with cur := [0, 0, 0, 0] })).map (·.rows) =
    some [[0x0, 0x0, 0x0, 0x0, 0xF, 0xF]] := by decide
/-- R207: after a row `FF`, `:` gives a second row `FF`. -/
theorem test_rowrep : (readerAfter .rowrep (withReader { fresh 1 2 with rows := [[0xF, 0xF]] })).map (·.rows) =
    some [[0xF, 0xF], [0xF, 0xF]] := by decide
/-- R211: `:` as the first row. -/
theorem test_rowrep_first : (readerAfter .rowrep (withReader (fresh 1 2))).map (·.verdict) =
    some (.refused .repFirst) := by decide
/-- R211: DEC-S refuses a second CNT1 character. -/
theorem test_strict_order :
    (readerAfter .cnt1_1 (withReader { fresh 2 1 with strict := true, cnt := 1, stage := .ones })).map (·.verdict) =
      some (.refused .countOrder) := by decide

/-! ### ZEB: the examples of R122, R134, R135, R154 to R163 and R184 -/

/-- R122: SR = 00000101, BC = 3, X = 3, intensity 40. -/
theorem test_samp :
    (zebAfter (atPorts ⟨false, none, some 40, false⟩
      { Zeb.reset with phase := .load, width := 8, height := 1, sr := 0b101, bc := 3, x := 3 })).map
      (fun z => (z.sr, z.bc, z.x)) = some (0b1011, 4, 4) := by decide
/-- R120: intensity 127 gives the bit 0. -/
theorem test_samp_127 :
    (zebAfter (atPorts ⟨false, none, some 127, false⟩
      { Zeb.reset with phase := .load, width := 8, height := 1 })).map (fun z => (z.sr, z.bc)) = some (0, 1) := by decide
/-- R134: the last of the four PAD firings of the example. -/
theorem test_pad :
    (zebAfter (atPorts .quiet
      { Zeb.reset with phase := .load, width := 12, height := 1, x := 12, sr := 0b01111000, bc := 7 })).map
      (fun z => (z.sr, z.bc, z.x)) = some (0b11110000, 8, 12) := by decide
/-- R135: SR = 0xA5, NI = 6, the high nibble. -/
theorem test_pack_high :
    (zebAfter (atPorts .quiet
      { Zeb.reset with phase := .load, width := 32, height := 1, sr := 0xA5, bc := 8, ni := 6 })).map
      (fun z => (z.cur.read 6, z.ni, z.sr, z.bc)) = some (some 0xA, 7, 0xA5, 8) := by decide
/-- R135: the second firing, the low nibble. -/
theorem test_pack_low :
    (zebAfter (atPorts .quiet
      { Zeb.reset with phase := .load, width := 32, height := 1, sr := 0xA5, bc := 8, ni := 7 })).map
      (fun z => (z.cur.read 7, z.ni, z.sr, z.bc)) = some (some 0x5, 8, 0, 0) := by decide
/-- R154: the `:` of the last row. -/
theorem test_rowrep_fires :
    (zebAfter (atPorts sink { Zeb.reset with
      phase := .load, width := 8, height := 2, y := 1, x := 8, ni := 2, pv := true, eq := true,
      cur := rowOf [0xF, 0xF], prev := rowOf [0xF, 0xF] })).map (fun z => (z.phase, z.out)) =
      some (.eor, [(0x3A, true)]) := by decide
/-- R155: CUR = `A000`. -/
theorem test_trail :
    (zebAfter (atPorts .quiet { Zeb.reset with
      phase := .load, width := 16, height := 1, x := 16, ni := 4, ts := 1, ln := 0, cur := rowOf [0xA, 0, 0, 0] })).map
      (fun z => (z.phase, z.tm, z.te, z.si, z.rn)) = some (.scan, .zero, 1, 0, 0) := by decide
/-- R156: CUR = `AAAB`, TE = 4, SI = 1, RC = 0xA, RN = 1. -/
theorem test_acc :
    (zebAfter (atPorts .quiet { Zeb.reset with
      phase := .scan, width := 16, height := 1, te := 4, si := 1, rc := 0xA, rn := 1,
      cur := rowOf [0xA, 0xA, 0xA, 0xB] })).map (fun z => (z.rc, z.rn, z.si)) = some (0xA, 2, 2) := by decide
/-- R157: RC = 0x3, RN = 2, SI = 5, TE = 8, CUR[5] = 0x7. -/
theorem test_lit :
    (zebAfter (atPorts sink { Zeb.reset with
      phase := .scan, width := 32, height := 1, te := 8, si := 5, rc := 0x3, rn := 2,
      cur := rowOf [0, 0, 0, 3, 3, 7, 1, 1] })).map (fun z => (z.rn, z.out)) = some (1, [(0x33, false)]) := by decide
/-- R158: RC = 0xA, RN = 6, SI = 6, TE = 6. -/
theorem test_rle :
    (zebAfter (atPorts .quiet { Zeb.reset with
      phase := .scan, width := 24, height := 1, te := 6, si := 6, rc := 0xA, rn := 6 })).map (·.phase) =
      some .cnt := by decide
/-- R159: RN = 839. -/
theorem test_cntz :
    (zebAfter (atPorts sink { Zeb.reset with phase := .cnt, rn := 839 })).map (fun z => (z.rn, z.out)) =
      some (439, [(0x7A, false)]) := by decide
/-- R160: RN = 39. -/
theorem test_cnt20 :
    (zebAfter (atPorts sink { Zeb.reset with phase := .cnt, rn := 39 })).map (fun z => (z.rn, z.out)) =
      some (19, [(0x67, false)]) := by decide
/-- R161: RN = 19. -/
theorem test_cnt1 :
    (zebAfter (atPorts sink { Zeb.reset with phase := .cnt, rn := 19 })).map (fun z => (z.rn, z.out)) =
      some (0, [(0x59, false)]) := by decide
/-- R162: RC = 0xA after its count. -/
theorem test_repc :
    (zebAfter (atPorts sink { Zeb.reset with phase := .cnt, rn := 0, rc := 0xA, height := 1, si := 6, te := 6 })).map
      (fun z => (z.phase, z.out)) = some (.scan, [(0x41, true)]) := by decide
/-- R163: TM = ZERO, SI = TE = 1, Y = 0, HEIGHT = 1. -/
theorem test_eol :
    (zebAfter (atPorts sink { Zeb.reset with phase := .scan, tm := .zero, si := 1, te := 1, height := 1 })).map
      (fun z => (z.phase, z.out)) = some (.eor, [(0x2C, true)]) := by decide
/-- R184: HEIGHT = 2, Y = 0, CUR = `FF`. -/
theorem test_commit :
    (zebAfter (atPorts .quiet { Zeb.reset with
      phase := .eor, width := 8, height := 2, cur := rowOf [0xF, 0xF] })).map
      (fun z => (z.prev, z.pv, z.eq, z.y, z.phase)) = some (rowOf [0xF, 0xF], true, true, 1, .load) := by decide
/-- R183: START with w = 12, h = 3. -/
theorem test_start :
    (zebAfter (atPorts ⟨false, some ⟨12, 3⟩, none, false⟩ Zeb.reset)).map
      (fun z => (z.width, z.height, z.byteWidth, z.rowLen, z.phase)) = some (12, 3, 2, 4, .load) := by decide
/-- P5 of 95_test_vectors.md: START with w = 0. -/
theorem test_start_bad :
    (zebAfter (atPorts ⟨false, some ⟨0, 5⟩, none, false⟩ Zeb.reset)).map (fun z => (z.phase, z.err)) =
      some (.idle, true) := by decide
/-- R8 and R104: MAXW = 4096 needs 13 bits, so 8191 stands on the port as it is and is refused. -/
theorem test_port_width :
    State.reset.params.ww = 13 ∧ (⟨8191, 1⟩ : Command).onPort State.reset.params = ⟨8191, 1⟩ ∧
      (zebAfter (atPorts ⟨false, some ⟨8191, 1⟩, none, false⟩ Zeb.reset)).map (·.err) = some true := by decide
/-- U7 of 93_implementation_defined.md: ACC of an entry that nothing has written. -/
theorem test_unwritten :
    (match step (atPorts .quiet { Zeb.reset with phase := .scan, width := 8, te := 2 }) with
      | .fault f => some f
      | .next _ => none
      | .refused _ => none) = some .unwritten := by decide

/-! ### States that keep the invariant -/

/-- The end of frame a of program P4 (95_test_vectors.md): 8 by 1, every pixel black. -/
def zDone : Zeb :=
  { Zeb.reset with
    phase := .done, width := 8, height := 1, y := 1, cur := rowOf [0xF, 0xF], prev := rowOf [0xF, 0xF], pv := true,
    eq := true, ln := 0xF, tm := .eff, out := [(0x21, true)], taken := List.replicate 8 0 }

/-- Program P6 (a) before its step 14: 1 by 1, the run `8` closed and not yet emitted. -/
def zScan : Zeb :=
  { Zeb.reset with
    phase := .scan, width := 1, height := 1, x := 1, ni := 2, cur := rowOf [0x8, 0x0], ts := 1, te := 1, tm := .zero,
    si := 1, rc := 0x8, rn := 1, taken := [126] }

/-- A 1 by 1 frame that has just been started. -/
def zLoad : Zeb := acceptStart 1 1 Zeb.reset

theorem reader_inv : Reader.reset.Inv := by
  constructor <;> simp [Reader.reset]

theorem params_ok : State.reset.params.Ok := ⟨by decide, by decide⟩

theorem zDone_inv : zDone.Inv State.reset.params where
  buf := ⟨by decide, by decide, by decide +kernel, by decide +kernel⟩
  eqPv := by decide
  alphabet := by decide +kernel
  idle := by decide
  frame _ :=
    ⟨by decide, by decide, by decide, by decide, by decide, by decide, by decide, by decide, by decide,
      fun _ => by unfold Memory.held; decide, by decide⟩
  load h := by cases h
  packed h := by simp [zDone] at h
  scan h := by simp [zDone] at h
  run h := by cases h
  count h := by cases h
  finished := by decide

theorem zScan_inv : zScan.Inv State.reset.params where
  buf := ⟨by decide, by decide, by decide +kernel, by decide +kernel⟩
  eqPv := by decide
  alphabet := by decide +kernel
  idle := by decide
  frame _ :=
    ⟨by decide, by decide, by decide, by decide, by decide, by decide, by decide, by decide, by decide,
      fun h => absurd h (by decide), by decide⟩
  load h := by cases h
  packed _ := ⟨by decide, by decide, by decide, by unfold Memory.held; decide⟩
  scan _ := ⟨by decide, by decide, by decide, fun _ =>
    ⟨by decide, by decide, fun k h1 h2 => by
      have : k = 1 := by
        have : zScan.rowLen = 2 := by decide
        have : zScan.te = 1 := rfl
        omega
      subst this; decide, by decide⟩⟩
  run _ := ⟨by decide, fun k _ h2 => by
      have : k = 0 := by
        have : zScan.si = 1 := rfl
        omega
      subst this; decide⟩
  count h := by cases h
  finished := by decide

theorem zLoad_inv : zLoad.Inv State.reset.params where
  buf := ⟨by decide, by decide, by decide +kernel, by decide +kernel⟩
  eqPv := by decide
  alphabet := by decide +kernel
  idle := by decide
  frame _ :=
    ⟨by decide, by decide, by decide, by decide, by decide, by decide, by decide, by decide, by decide,
      fun h => absurd h (by decide), by decide⟩
  load _ := ⟨by decide, by decide, by decide, by decide, fun k h => absurd h (Nat.not_lt_zero k),
    fun h => absurd h (by decide), by decide⟩
  packed h := by simp [zLoad, acceptStart] at h
  scan h := by simp [zLoad, acceptStart] at h
  run h := by cases h
  count h := by cases h
  finished := by decide

/-- The same with other values in registers that nothing reads before it writes them. -/
def zStale : Zeb := { zLoad with rc := 5, te := 9, ln := 3 }

theorem zStale_inv : zStale.Inv State.reset.params where
  buf := ⟨by decide, by decide, by decide +kernel, by decide +kernel⟩
  eqPv := by decide
  alphabet := by decide +kernel
  idle := by decide
  frame _ :=
    ⟨by decide, by decide, by decide, by decide, by decide, by decide, by decide, by decide, by decide,
      fun h => absurd h (by decide), by decide⟩
  load _ := ⟨by decide, by decide, by decide, by decide, fun k h => absurd h (Nat.not_lt_zero k),
    fun h => absurd h (by decide), by decide⟩
  packed h := by simp [zStale, zLoad, acceptStart] at h
  scan h := by simp [zStale, zLoad, acceptStart] at h
  run h := by cases h
  count h := by cases h
  finished := by decide

/-- The trace holds of the finished frame. -/
theorem zDone_trace : zDone.Trace where
  prev := by decide
  loading h := by cases h
  packed h := by simp [zDone] at h
  rowsOut _ := by decide
  rowOut h := by simp [zDone] at h
  lastOne _ := ⟨[], 0x21, rfl, by simp⟩
  lastNone h := absurd (Or.inl rfl) h

/-- A machine with this ZEB and this schedule, its reader at rest. -/
def at_ (z : Zeb) (sched : List Event) : State := { State.reset with zeb := z, sched := sched }

theorem at_inv {z : Zeb} (h : z.Inv State.reset.params) (sched : List Event) : (at_ z sched).Inv :=
  ⟨params_ok, h, reader_inv⟩

/-! ### The hypotheses of each statement are met -/

theorem witness_CompressionNeverExpands : (1 : Nat) ≤ 1 := by decide

theorem witness_EqualBitsEqualStreams :
    ∀ x y, x < 3 → y < 2 → ((((fun _ _ => 0) : Nat → Nat → Byte) x y).toNat < 127 ↔
      (((fun _ _ => 126) : Nat → Nat → Byte) x y).toNat < 127) := by
  intro x y _ _; simp

theorem witness_StreamsFollowGrammar : (1 : Nat) ≤ 8 := by decide

theorem witness_PixelTaken :
    (at_ zLoad []).zeb.phase = .load ∧ (at_ zLoad []).zeb.bc < 8 ∧ (at_ zLoad []).zeb.x < (at_ zLoad []).zeb.width := by
  decide

theorem witness_PixelNotTaken :
    ¬ ((at_ zScan []).zeb.phase = .load ∧ (at_ zScan []).zeb.bc < 8 ∧
      (at_ zScan []).zeb.x < (at_ zScan []).zeb.width) := by decide

/-- Row of 4: one nibble more leaves it open, the fourth completes it, a run of 5 is refused. -/
theorem witness_HexReads :
    (Instr.hexA, (0xA : Nibble)) ∈ hexMeanings ∧ (fresh 2 1).verdict = .reading ∧ (fresh 2 1).strict = false ∧
      [0xB, 0xB].length + 1 < 2 * (fresh 2 1).byteWidth ∧ [0xB, 0xB, 0xB].length + 1 = 2 * (fresh 2 1).byteWidth ∧
      2 * (fresh 2 1).byteWidth < ([] : List Nibble).length + 5 := by decide

/-- The counts 1 and 2 are refused, 0 and 3 are not; then as for DEC. -/
theorem witness_StrictHexReads :
    (Instr.hex0, (0x0 : Nibble)) ∈ hexMeanings ∧ (giveStream [] 2 1 true).verdict = .reading ∧
      (giveStream [] 2 1 true).strict = true ∧
      [1, 2].all (fun c => ({ giveStream [] 2 1 true with cnt := c }).cnt = 1 ∨
        ({ giveStream [] 2 1 true with cnt := c }).cnt = 2) ∧
      ({ giveStream [] 2 1 true with cnt := 3 }).cnt ≠ 1 ∧ ({ giveStream [] 2 1 true with cnt := 3 }).cnt ≠ 2 ∧
      ([] : List Nibble).length + 3 < 2 * 2 ∧ [0xB].length + 3 = 2 * 2 ∧ 2 * 2 < [0xB, 0xB].length + 3 := by decide

theorem witness_Cnt1Reads :
    (Instr.cnt1_1, 1) ∈ cnt1Meanings ∧ (Instr.cnt1_19, 19) ∈ cnt1Meanings ∧ (fresh 2 1).verdict = .reading ∧
      (fresh 2 1).strict = false := by decide

theorem witness_Cnt20Reads :
    (Instr.cnt20_1, 20) ∈ cnt20Meanings ∧ (Instr.cnt20_19, 380) ∈ cnt20Meanings ∧ (fresh 2 1).verdict = .reading ∧
      (fresh 2 1).strict = false := by decide

theorem witness_Cnt400Reads : (fresh 2 1).verdict = .reading ∧ (fresh 2 1).strict = false := by decide

theorem witness_StrictCountsRead :
    (giveStream [] 2 1 true).verdict = .reading ∧ (giveStream [] 2 1 true).strict = true ∧
      (Instr.cnt1_2, 2) ∈ cnt1Meanings ∧ (Instr.cnt20_3, 60) ∈ cnt20Meanings := by decide

/-- A marker on an empty row, on a row that lacks one nibble, and after a count. -/
theorem witness_Fill0Reads :
    (fresh 2 1).verdict = .reading ∧ (fresh 2 1).cnt = 0 ∧ (fresh 2 1).cur.length < 2 * (fresh 2 1).byteWidth ∧
      [0xA, 0xA, 0xA].length < 2 * (fresh 2 1).byteWidth ∧ ({ fresh 2 1 with cnt := 1 }).cnt ≠ 0 := by decide

theorem witness_FillFReads :
    (fresh 1 1).verdict = .reading ∧ (fresh 1 1).cnt = 0 ∧ (fresh 1 1).cur.length < 2 * (fresh 1 1).byteWidth ∧
      [0xA].length < 2 * (fresh 1 1).byteWidth ∧ ({ fresh 1 1 with cnt := 400 }).cnt ≠ 0 := by decide

theorem witness_FillOnFullRow :
    (fresh 0 1).verdict = .reading ∧ (fresh 0 1).cnt = 0 ∧ 2 * (fresh 0 1).byteWidth ≤ (fresh 0 1).cur.length := by
  decide

/-- A row before it; then each of the three refusals alone. -/
theorem witness_RowrepReads :
    (fresh 1 2).verdict = .reading ∧ (fresh 1 2).cnt = 0 ∧ (fresh 1 2).cur = [] ∧
      ({ fresh 1 2 with rows := [[0xF, 0xF]] }).rows = [] ++ [[0xF, 0xF]] ∧
      ({ fresh 1 2 with cnt := 1, rows := [[0xF, 0xF]] }).cnt ≠ 0 ∧
      ({ fresh 1 2 with cur := [0x1], rows := [[0xF, 0xF]] }).cur ≠ [] ∧ (fresh 1 2).rows = [] := by decide

theorem witness_ReaderRests :
    (encode .hexA).port = .token ∧ (withReader { fresh 1 1 with verdict := .accepted }).reader.verdict ≠ .reading ∧
      State.reset.reader.verdict ≠ .reading := by decide

theorem witness_StepRunsCharacter :
    (atRead (giveStream [0x41, 0x2C] 2 1 false)).nextEvent = .read ∧
      (atRead (giveStream [0x41, 0x2C] 2 1 false)).reader.verdict = .reading ∧
      (atRead (giveStream [0x41, 0x2C] 2 1 false)).reader.stream = 0x41 :: [0x2C] ∧
      decode ⟨.token, 0x41⟩ = .ok .hexA := by decide

theorem witness_StepRunsPixel :
    (atPorts ⟨false, none, some 126, false⟩ zLoad).nextEvent = .zeb ⟨false, none, some 126, false⟩ ∧
      (⟨false, none, some 126, false⟩ : PortIn).rst = false ∧
      (⟨false, none, some 126, false⟩ : PortIn).pix = some 126 ∧
      (atPorts ⟨false, none, some 126, false⟩ zLoad).zeb.phase = .load ∧
      (atPorts ⟨false, none, some 126, false⟩ zLoad).zeb.bc < 8 ∧
      (atPorts ⟨false, none, some 126, false⟩ zLoad).zeb.x <
        (atPorts ⟨false, none, some 126, false⟩ zLoad).zeb.width ∧ decode ⟨.pixel, 126⟩ = .ok (.pix 126) := by decide

theorem witness_StreamHandedOver :
    ({ State.reset with sched := [.give [0x21] 1 1 true] } : State).nextEvent = .give [0x21] 1 1 true := by decide

theorem witness_BadCharacterRefused :
    (atRead (giveStream [0x66] 2 1 false)).nextEvent = .read ∧
      (atRead (giveStream [0x66] 2 1 false)).reader.verdict = .reading ∧
      (atRead (giveStream [0x66] 2 1 false)).reader.stream = 0x66 :: [] ∧
      ∀ i, (encode i).port = .token → (encode i).code ≠ 0x66 := by
  refine ⟨by decide, by decide, by decide, fun i h => ?_⟩
  cases i <;> first | decide | exact absurd h (by simp [encode])

/-- The end of a stream that is accepted, and of one with a row missing. -/
theorem witness_StreamEnds :
    (atRead (fresh 1 0)).nextEvent = .read ∧ (atRead (fresh 1 0)).reader.verdict = .reading ∧
      (atRead (fresh 1 0)).reader.stream = [] ∧
      ((fresh 1 0).cur = [] ∧ (fresh 1 0).cnt = 0 ∧ (fresh 1 0).rows.length = (fresh 1 0).pixelHeight) ∧
      ¬ ((fresh 1 1).cur = [] ∧ (fresh 1 1).cnt = 0 ∧ (fresh 1 1).rows.length = (fresh 1 1).pixelHeight) := by decide

theorem witness_ResetFires :
    (atPorts ⟨true, some ⟨1, 1⟩, some 0, true⟩ zScan).nextEvent = .zeb ⟨true, some ⟨1, 1⟩, some 0, true⟩ ∧
      (⟨true, some ⟨1, 1⟩, some 0, true⟩ : PortIn).rst = true := by decide

/-- From IDLE and from DONE; both operands at 0, at 1, at MAXW and MAXH, one beyond, at the largest number on the port,
and one that needs more bits than the port has. -/
theorem witness_StartFires :
    (atPorts ⟨false, some ⟨4096, 1⟩, none, false⟩ zDone).nextEvent = .zeb ⟨false, some ⟨4096, 1⟩, none, false⟩ ∧
      (zDone.phase = .idle ∨ zDone.phase = .done) ∧ (Zeb.reset.phase = .idle ∨ Zeb.reset.phase = .done) ∧
      [((0 : Nat), (1 : Nat), (⟨0, 1⟩ : Command)), (1, 0, ⟨1, 0⟩), (4097, 1, ⟨4097, 1⟩), (1, 8191, ⟨1, 8191⟩),
          (0, 1, ⟨8192, 1⟩)].all (fun (w, h, c) =>
        w = c.w % 2 ^ State.reset.params.ww ∧ h = c.h % 2 ^ State.reset.params.hw ∧
          (w = 0 ∨ h = 0 ∨ State.reset.params.maxW < w ∨ State.reset.params.maxH < h)) ∧
      [((1 : Nat), (1 : Nat), (⟨1, 1⟩ : Command)), (4096, 4096, ⟨4096, 4096⟩)].all (fun (w, h, c) =>
        w = c.w % 2 ^ State.reset.params.ww ∧ h = c.h % 2 ^ State.reset.params.hw ∧
          ¬ (w = 0 ∨ h = 0 ∨ State.reset.params.maxW < w ∨ State.reset.params.maxH < h)) := by decide

theorem witness_BadDimRecorded :
    (atPorts ⟨false, some ⟨0, 5⟩, none, false⟩ zDone).nextEvent = .zeb ⟨false, some ⟨0, 5⟩, none, false⟩ ∧
      ((atPorts ⟨false, some ⟨0, 5⟩, none, false⟩ zDone).zeb.phase = .idle ∨
        (atPorts ⟨false, some ⟨0, 5⟩, none, false⟩ zDone).zeb.phase = .done) ∧ 0 = (⟨0, 5⟩ : Command).w % 2 ^ State.reset.params.ww ∧ 5 = (⟨0, 5⟩ : Command).h % 2 ^ State.reset.params.hw ∧
      zDone.err = false ∧
      (zebAfter (atPorts ⟨false, some ⟨0, 5⟩, none, false⟩ zDone)).map (·.err) = some true := by decide

/-- A row whose pixels are exhausted, with `b` bits in SR. -/
def sPad (b : Nat) : State := atPorts .quiet { zLoad with x := 1, bc := b }

/-- BC = 1 and BC = 7. -/
theorem witness_PadFires : ∀ b ∈ [1, 7],
    (sPad b).nextEvent = .zeb .quiet ∧ PortIn.quiet.rst = false ∧ (sPad b).zeb.phase = .load ∧
      (sPad b).zeb.x = (sPad b).zeb.width ∧ 1 ≤ (sPad b).zeb.bc ∧ (sPad b).zeb.bc ≤ 7 := by decide

/-- A full byte in SR and `n` nibbles of the row packed; the second row of a frame if `e`. -/
def sPack (n : Nat) (e : Bool) : State :=
  atPorts .quiet { zLoad with sr := 0xA5, bc := 8, ni := n, pv := e, eq := e, prev := if e then rowOf [0xA, 0x5] else [] }

/-- The first nibble of a first row, and the last nibble of a row that has been equal so far. -/
theorem witness_PackFires : ∀ o ∈ [((0 : Nat), false, (0xA : Nibble)), (1, true, 0x5)],
    (sPack o.1 o.2.1).nextEvent = .zeb .quiet ∧ PortIn.quiet.rst = false ∧ (sPack o.1 o.2.1).zeb.phase = .load ∧
      (sPack o.1 o.2.1).zeb.bc = 8 ∧ (sPack o.1 o.2.1).zeb.ni < (sPack o.1 o.2.1).zeb.rowLen ∧
      ((sPack o.1 o.2.1).zeb.eq = true →
        ((sPack o.1 o.2.1).zeb.prev.read (sPack o.1 o.2.1).zeb.ni).isSome = true) ∧
      o.2.2 = (if (sPack o.1 o.2.1).zeb.ni % 2 = 0 then (sPack o.1 o.2.1).zeb.sr.extractLsb' 4 4
        else (sPack o.1 o.2.1).zeb.sr.extractLsb' 0 4) := by decide

/-- A complete row, equal to the row before it if `e`. -/
def sComplete (e : Bool) : State := atPorts sink { zLoad with x := 1, ni := 2, pv := e, eq := e }

theorem witness_RowrepFires :
    (sComplete true).nextEvent = .zeb sink ∧ sink.rst = false ∧ (sComplete true).zeb.phase = .load ∧
      (sComplete true).zeb.x = (sComplete true).zeb.width ∧ (sComplete true).zeb.bc = 0 ∧
      (sComplete true).zeb.pv = true ∧ (sComplete true).zeb.eq = true ∧ sink.tokReady = true := by decide

theorem witness_TrailFires :
    (sComplete false).nextEvent = .zeb sink ∧ sink.rst = false ∧ (sComplete false).zeb.phase = .load ∧
      (sComplete false).zeb.x = (sComplete false).zeb.width ∧ (sComplete false).zeb.bc = 0 ∧
      ¬ ((sComplete false).zeb.pv = true ∧ (sComplete false).zeb.eq = true) := by decide

/-- The scan of the row `88`, a run of `n` of them held. -/
def sAcc (n : Nat) : State := atPorts sink { zScan with cur := rowOf [8, 8], te := 2, si := n, rn := n }

/-- No run open, and a run that is extended. -/
theorem witness_AccFires : ∀ n ∈ [0, 1],
    (sAcc n).nextEvent = .zeb sink ∧ sink.rst = false ∧ (sAcc n).zeb.phase = .scan ∧
      (sAcc n).zeb.si < (sAcc n).zeb.te ∧ (sAcc n).zeb.te ≤ (sAcc n).zeb.rowLen ∧
      (sAcc n).zeb.cur.read (sAcc n).zeb.si = some 8 ∧ ((sAcc n).zeb.rn = 0 ∨ 8 = (sAcc n).zeb.rc) := by decide

/-- A closed run of `n` at the end of the scan. -/
def sEnd (n : Nat) : State := atPorts sink { zScan with rn := n }

/-- A closed run of `n` before a nibble that differs. -/
def sInner (n : Nat) : State := atPorts sink { zScan with te := 2, rn := n }

/-- RN = 1 and RN = 2, at the end of the scan and before a nibble that differs. -/
theorem witness_LitFires : ∀ n ∈ [1, 2],
    (sEnd n).nextEvent = .zeb sink ∧ sink.rst = false ∧ (sEnd n).zeb.phase = .scan ∧ 1 ≤ (sEnd n).zeb.rn ∧
      (sEnd n).zeb.rn ≤ 2 ∧ sink.tokReady = true ∧ (sEnd n).zeb.si = (sEnd n).zeb.te ∧
      (sInner n).nextEvent = .zeb sink ∧ (sInner n).zeb.phase = .scan ∧ 1 ≤ (sInner n).zeb.rn ∧
      (sInner n).zeb.rn ≤ 2 ∧ (sInner n).zeb.si < (sInner n).zeb.te ∧ (sInner n).zeb.te ≤ (sInner n).zeb.rowLen ∧
      (sInner n).zeb.cur.read (sInner n).zeb.si = some 0 ∧ 0 ≠ (sInner n).zeb.rc := by decide

/-- RN = 3, at the end of the scan and before a nibble that differs. -/
theorem witness_RleFires :
    (sEnd 3).nextEvent = .zeb sink ∧ sink.rst = false ∧ (sEnd 3).zeb.phase = .scan ∧ 3 ≤ (sEnd 3).zeb.rn ∧
      (sEnd 3).zeb.si = (sEnd 3).zeb.te ∧ (sInner 3).zeb.phase = .scan ∧ 3 ≤ (sInner 3).zeb.rn ∧
      (sInner 3).zeb.si < (sInner 3).zeb.te ∧ (sInner 3).zeb.te ≤ (sInner 3).zeb.rowLen ∧
      (sInner 3).zeb.cur.read (sInner 3).zeb.si = some 0 ∧ 0 ≠ (sInner 3).zeb.rc := by decide

/-- A count of `n` still to be emitted. -/
def sCount (n : Nat) : State := atPorts sink { zScan with phase := .cnt, rn := n }

/-- The ends of the three ranges. -/
theorem witness_CountCharactersFire : ∀ n ∈ [400, 399, 20, 19, 1],
    (sCount n).nextEvent = .zeb sink ∧ sink.rst = false ∧ (sCount n).zeb.phase = .cnt ∧ sink.tokReady = true ∧
      (400 ≤ (sCount n).zeb.rn ∨ (20 ≤ (sCount n).zeb.rn ∧ (sCount n).zeb.rn ≤ 399) ∨
        (1 ≤ (sCount n).zeb.rn ∧ (sCount n).zeb.rn ≤ 19)) := by decide

theorem witness_RepcFires :
    (sCount 0).nextEvent = .zeb sink ∧ sink.rst = false ∧ (sCount 0).zeb.phase = .cnt ∧ (sCount 0).zeb.rn = 0 ∧
      sink.tokReady = true := by decide

/-- With a marker and a ready sink, and without one and a sink that is not ready. -/
theorem witness_EolFires :
    (sEnd 0).nextEvent = .zeb sink ∧ sink.rst = false ∧ (sEnd 0).zeb.phase = .scan ∧ (sEnd 0).zeb.rn = 0 ∧
      (sEnd 0).zeb.si = (sEnd 0).zeb.te ∧ ((sEnd 0).zeb.tm ≠ .none → sink.tokReady = true) ∧
      (({ zScan with rn := 0, tm := .none }).tm ≠ .none → PortIn.quiet.tokReady = true) := by decide

/-- The end of a row of a frame of `h` rows. -/
def sCommit (h : Nat) : State := atPorts .quiet { zScan with phase := .eor, height := h }

/-- The last row, and a row before it. -/
theorem witness_CommitFires : ∀ h ∈ [1, 2],
    (sCommit h).nextEvent = .zeb .quiet ∧ PortIn.quiet.rst = false ∧ (sCommit h).zeb.phase = .eor ∧
      ∀ k, k < (sCommit h).zeb.rowLen → ((sCommit h).zeb.cur.read k).isSome = true := by decide

theorem witness_DispatchFollowsGuards :
    sink.rst = false ∧ guardOf sink zScan .lit = true := by decide

/-- Each of the three waits. -/
theorem witness_WaitsChangeNothing :
    (∀ z, (atPorts .quiet z).nextEvent = .zeb .quiet) ∧ PortIn.quiet.rst = false ∧ zDone.waits .quiet ∧
      zLoad.waits .quiet ∧ zScan.waits .quiet :=
  ⟨fun _ => rfl, rfl, .inl ⟨.inr rfl, rfl⟩, .inr (.inl ⟨rfl, by decide, by decide, rfl⟩), .inr (.inr ⟨by decide, rfl⟩)⟩

theorem witness_NeverFaultsNeverStuck :
    (at_ zScan []).Inv ∧ sink.rst = false ∧ ¬ (at_ zScan []).zeb.waits sink :=
  ⟨at_inv zScan_inv [], rfl, fun h => by
    rcases h with ⟨h, _⟩ | ⟨h, _⟩ | ⟨_, h⟩
    · rcases h with h | h <;> cases h
    · cases h
    · cases h⟩

theorem witness_BeatsAreRecorded :
    (atPorts sink zScan).nextEvent = .zeb sink ∧ sink.rst = false ∧ (atPorts sink zScan).zeb.busy = true ∧
      (zebAfter (atPorts sink zScan)).isSome = true := by decide

theorem witness_NoEarlyCharacter : (at_ zScan []).Inv ∧ (at_ zScan []).zeb.tokOffer.isSome = true :=
  ⟨at_inv zScan_inv [], by decide⟩

theorem witness_OnlyItsWritersWrite :
    (atPorts sink zScan).nextEvent = .zeb sink ∧ sink.rst = false ∧ (zebAfter (atPorts sink zScan)).isSome = true ∧
      (∀ op, op = MicroOp.lit ↔ select sink (atPorts sink zScan).zeb = .ok (some op)) :=
  ⟨by decide, rfl, by decide, fun op => by cases op <;> decide⟩

theorem witness_AgentsAreSeparate :
    (zebAfter (atPorts sink zScan)).isSome = true ∧ (zebAfter (atRead (fresh 1 0))).isSome = true := by decide

theorem witness_ResetKeepsInvariant : (⟨1, 1⟩ : Params).Ok := ⟨by decide, by decide⟩

theorem witness_StepKeepsInvariant :
    (at_ zScan [.zeb sink]).Inv ∧ (zebAfter (at_ zScan [.zeb sink])).isSome = true :=
  ⟨at_inv zScan_inv _, by decide⟩

theorem witness_StepKeepsTrace :
    (at_ zDone [.zeb sink]).Inv ∧ (at_ zDone [.zeb sink]).Traced ∧
      (zebAfter (at_ zDone [.zeb sink])).isSome = true :=
  ⟨at_inv zDone_inv _, fun _ => zDone_trace, by decide⟩

/-- Two machines with different stale contents of RC, TE and LN. -/
theorem witness_StaleValuesDoNotMatter :
    (at_ zLoad []).Inv ∧ (at_ zStale []).Inv ∧ (at_ zLoad []).SameLive (at_ zStale []) ∧
      (zebAfter (at_ zLoad [])).isSome = true :=
  ⟨at_inv zLoad_inv [], at_inv zStale_inv [],
    ⟨rfl, by constructor <;> simp [at_, zStale, zLoad, acceptStart, clearErr, Zeb.reset], rfl, rfl⟩, by decide⟩

/-- A machine that has just been reset, and one that has finished a frame. -/
theorem witness_StartForgetsTheFrameBefore :
    (at_ Zeb.reset [.zeb ⟨false, some ⟨8, 2⟩, none, false⟩]).nextEvent = .zeb ⟨false, some ⟨8, 2⟩, none, false⟩ ∧
      Zeb.reset.draws = zDone.draws ∧ ⟨8, 2⟩ = (⟨8, 2⟩ : Command).onPort State.reset.params ∧ 1 ≤ 8 ∧ 8 ≤ State.reset.params.maxW ∧ 2 ≤ State.reset.params.maxH ∧
      Zeb.reset.phase = .idle ∧ zDone.phase = .done := by decide

theorem witness_FramesAreEncoded :
    (at_ zDone []).Inv ∧ (at_ zDone []).Traced ∧ (at_ zDone []).run 0 = .next (at_ zDone []) ∧
      (at_ zDone []).zeb.phase = .done ∧
      ∀ k, k < (at_ zDone []).zeb.width * (at_ zDone []).zeb.height →
        (at_ zDone []).zeb.taken[k]? = some (((fun _ _ => 0) : Nat → Nat → Byte)
          (k % (at_ zDone []).zeb.width) (k / (at_ zDone []).zeb.width)) :=
  ⟨at_inv zDone_inv [], fun _ => zDone_trace, rfl, rfl, by decide⟩

theorem witness_FirstRowNeverRepeats :
    (at_ zDone []).Inv ∧ (at_ zDone []).Traced ∧ (at_ zDone []).zeb.phase ≠ .idle :=
  ⟨at_inv zDone_inv [], fun _ => zDone_trace, by decide⟩

/-- A 1 by 1 frame just started: 19 steps are left at most. -/
theorem witness_EveryFrameEnds :
    (at_ zLoad (List.replicate 19 (.zeb ⟨false, none, some 126, true⟩))).Inv ∧ zLoad.busy = true ∧
      (∀ p ∈ List.replicate 19 (⟨false, none, some 126, true⟩ : PortIn), p.willing) ∧ zLoad.work = 19 :=
  ⟨at_inv zLoad_inv _, by decide, fun p h => by rw [List.eq_of_mem_replicate h]; exact ⟨rfl, rfl, rfl⟩, by decide⟩

theorem witness_ReaderRecoversFrame :
    (at_ zDone (.give zDone.chars 1 1 true :: List.replicate 2 .read)).Inv ∧
      (at_ zDone (.give zDone.chars 1 1 true :: List.replicate 2 .read)).Traced ∧
      zDone.byteWidth = 1 ∧ zDone.pixHeight = 1 ∧ zDone.chars.length + 1 = 2 ∧ zDone.phase = .done :=
  ⟨at_inv zDone_inv _, fun _ => zDone_trace, by decide, by decide, by decide, rfl⟩

/-- An endless schedule with waits: a turn of the reader, a START and no more, a pixel with the sink not ready, quiet
ports, the sink ready and no pixel, over and over. -/
def slowly (n : Nat) : Event :=
  match n % 5 with
  | 0 => .zeb ⟨false, some ⟨1, 1⟩, none, false⟩
  | 1 => .read
  | 2 => .zeb ⟨false, none, some 126, false⟩
  | 3 => .zeb .quiet
  | _ => .zeb sink

theorem slowly_at (n k : Nat) (h : k < 5) : n ≤ 5 * n + k ∧ slowly (5 * n + k) = slowly k := by
  refine ⟨by omega, ?_⟩
  unfold slowly
  rw [show (5 * n + k) % 5 = k % 5 by omega]

theorem slowly_fair (s : State) : s.Fair slowly where
  noReset n p h := by
    unfold slowly at h
    split at h <;> cases h <;> rfl
  pixel n _ _ _ := ⟨_, (slowly_at n 2 (by omega)).1, _, (slowly_at n 2 (by omega)).2, rfl⟩
  sink n _ _ _ := ⟨_, (slowly_at n 4 (by omega)).1, _, (slowly_at n 4 (by omega)).2, rfl⟩
  turns n := ⟨_, (slowly_at n 3 (by omega)).1, _, (slowly_at n 3 (by omega)).2⟩

/-- A step that waits and one that does not; a frame in progress and a START, each under a fair schedule with waits. -/
theorem witness_EveryFairFrameEnds :
    (at_ zScan [.zeb .quiet]).Inv ∧ zScan.busy = true ∧ zScan.waits .quiet ∧ ¬ zScan.waits sink ∧
      (at_ zLoad []).Inv ∧ zLoad.busy = true ∧ (at_ zLoad []).Fair slowly ∧
      (at_ zDone []).Inv ∧ zDone.phase = .done ∧ slowly 0 = .zeb ⟨false, some ⟨1, 1⟩, none, false⟩ ∧
      ⟨1, 1⟩ = (⟨1, 1⟩ : Command).onPort State.reset.params ∧ 1 ≤ State.reset.params.maxW ∧
      1 ≤ State.reset.params.maxH ∧ (at_ zDone []).Fair slowly :=
  ⟨at_inv zScan_inv _, rfl, .inr (.inr ⟨by decide, rfl⟩), witness_NeverFaultsNeverStuck.2.2, at_inv zLoad_inv _,
    by decide, slowly_fair _, at_inv zDone_inv _, rfl, rfl, by decide, params_ok.maxW, params_ok.maxH, slowly_fair _⟩

end Sys2Proof.Tests
end

