-- ==== Sys2Proof/Proofs/Runs.lean ====
section
/-! PROOFS. The runs of a string (00_scope.md rule R14): one more character in front either starts a run of its own or
lengthens the first run, and both keep the three clauses of `Obligations.RunsAreMaximal`. -/

namespace Sys2Proof.Machine

/-- All that a character in front of a string can do to its runs. -/
theorem runs_cons_cases (c : Byte) (s : List Byte) :
    (s.head? ≠ some c ∧ runs (c :: s) = (c, 1) :: runs s) ∨
      ∃ n t, runs s = (c, n) :: t ∧ runs (c :: s) = (c, n + 1) :: t := by
  by_cases h : s.head? = some c
  · obtain ⟨s', rfl⟩ := List.head?_eq_some_iff.mp h
    obtain ⟨n, t, hr⟩ := runs_cons_head c s'
    exact .inr ⟨n, t, hr, runs_cons_more hr⟩
  · exact .inl ⟨h, runs_cons_new h⟩

/-- The first run is a run of the first character. -/
theorem runs_head?_fst (s : List Byte) : (runs s).head?.map Prod.fst = s.head? := by
  cases s with
  | nil => rfl
  | cons c s =>
    obtain ⟨n, t, hr⟩ := runs_cons_head c s
    simp [hr]

theorem runs_flatMap_replicate (s : List Byte) :
    (runs s).flatMap (fun r => List.replicate r.2 r.1) = s := by
  induction s with
  | nil => rfl
  | cons c s ih =>
    obtain ⟨-, hnew⟩ | ⟨n, t, hs, hmore⟩ := runs_cons_cases c s
    · simp [hnew, ih]
    · rw [hs] at ih
      simpa [hmore, List.replicate_succ] using ih

theorem one_le_of_mem_runs (s : List Byte) : ∀ r ∈ runs s, 1 ≤ r.2 := by
  induction s with
  | nil => simp
  | cons c s ih =>
    obtain ⟨-, hnew⟩ | ⟨n, t, hs, hmore⟩ := runs_cons_cases c s
    · simpa [hnew] using ih
    · rw [hs, List.forall_mem_cons] at ih
      rw [hmore, List.forall_mem_cons]
      exact ⟨Nat.le_add_left 1 n, ih.2⟩

theorem runs_isChain_ne (s : List Byte) : (runs s).IsChain (fun a b => a.1 ≠ b.1) := by
  induction s with
  | nil => exact .nil
  | cons c s ih =>
    obtain ⟨hc, hnew⟩ | ⟨n, t, hs, hmore⟩ := runs_cons_cases c s
    · rw [hnew, List.isChain_cons]
      refine ⟨fun r hr hcr => hc ?_, ih⟩
      rw [← runs_head?_fst, Option.mem_def.mp hr, Option.map_some, ← hcr]
    · rw [hs, List.isChain_cons] at ih
      rw [hmore, List.isChain_cons]
      exact ih

/-- Settles O6: each clause by induction on the string, one more character in front (`runs_cons_cases`). -/
theorem runsAreMaximal : Obligations.RunsAreMaximal := fun s =>
  ⟨runs_flatMap_replicate s, one_le_of_mem_runs s, runs_isChain_ne s⟩

end Sys2Proof.Machine
end

