-- ==== Sys2Proof/Proofs/Writers.lean ====
section
/-! PROOFS. What one step of ZEB writes: the two histories (20_memory.md rules R63, R66) and, of every register and row
buffer, which micro-operations write it (10_state.md rules R21 to R44). -/

namespace Sys2Proof.Machine

/-- What a step with an event of ZEB can do: it waits, or it fires the micro-operation that the table selects. -/
theorem step_zeb_next {s t : State} {p : PortIn} (hn : s.nextEvent = .zeb p) (h : step s = .next t) :
    (select p s.zeb = .ok none ∧ t = s.popped) ∨
      ∃ op z, select p s.zeb = .ok (some op) ∧ fire s.params p s.zeb op = .ok z ∧ t = { s.popped with zeb := z } := by
  rw [step_eq, hn] at h
  exact zebStep_next h

/-- A step without a reset never selects RESET. -/
theorem select_ne_reset {p : PortIn} {z : Zeb} {op : MicroOp} (hr : p.rst = false)
    (h : select p z = .ok (some op)) : op ≠ .reset := by
  rintro rfl
  have hrst : p.rst = true := select_some h
  exact Bool.false_ne_true (hr.symm.trans hrst)

/-! ### The histories -/

/-- During a frame a micro-operation appends to OUT what it emits, and SAMP alone appends to the pixel history. -/
theorem fire_histories {q : Params} {p : PortIn} {z t : Zeb} {op : MicroOp} (h : fire q p z op = .ok t)
    (hr : op ≠ .reset) (hs : op ≠ .start) :
    t.out = z.out ++ (emission op z).toList ∧ t.taken = z.taken ++ (if op = .samp then p.pix.toList else []) := by
  cases op
  case reset => exact absurd rfl hr
  case start => exact absurd rfl hs
  case samp =>
    unfold fire at h
    cases hp : p.pix <;> rw [hp] at h <;> cases h <;> simp [emission]
  case pack =>
    obtain ⟨_, e, _, rfl⟩ := firePack_eq_ok.mp h
    simp [emission]
  case acc =>
    obtain ⟨_, v, _, rfl⟩ := fireAcc_eq_ok.mp h
    simp [emission]
  case commit =>
    obtain ⟨d, _, rfl⟩ := fireCommit_eq_ok.mp h
    simp [emission]
  all_goals
    cases h
    simp [emission, fireRowrep, fireLit, fireCntz, fireCnt20, fireCnt1, fireRepc, fireEol]

/-- The character that ZEB offers (R67) is what the step emits if the sink is ready, and a step whose sink is not ready
emits nothing. -/
theorem emission_of_select {p : PortIn} {z : Zeb} {o : Option MicroOp} (hr : p.rst = false)
    (h : select p z = .ok o) :
    (if p.tokReady = true then z.tokOffer else none) = o.bind (emission · z) := by
  obtain ⟨rst, cmd, pix, rdy⟩ := p
  obtain rfl : rst = false := hr
  unfold Zeb.tokOffer
  unfold select at h ⊢
  cases hp : z.phase <;> simp only [hp, Bool.false_eq_true, if_false, Except.ok.injEq] at h ⊢
  case idle | done =>
    subst h
    cases cmd <;> simp [whenReady, emission]
  case load =>
    subst h
    unfold selectLoad
    by_cases hpack : z.bc = 8
    · simp [hpack, emission]
    by_cases hsamp : z.bc < 8 ∧ z.x < z.width
    · cases pix <;> simp [hpack, hsamp, whenReady, emission]
    by_cases hpad : z.x = z.width ∧ 1 ≤ z.bc ∧ z.bc ≤ 7
    · simp [hpack, hpad, emission]
    by_cases hrow : z.x = z.width ∧ z.bc = 0
    · cases z.repeats <;> cases rdy <;> simp [hrow, whenReady, emission]
    · simp [hpack, hsamp, hpad, hrow]
  case scan =>
    unfold selectScan at h ⊢
    split at h <;> rename_i hn
    · rw [if_pos hn]
      split at h
      · cases h; simp [*, emission]
      · rename_i hlt
        rw [if_neg hlt]
        split at h
        · cases h
          cases htm : z.tm <;> cases rdy <;> simp [*, whenReady, emission, TrailMark.char]
        · cases h; simp [*]
    · rw [if_neg hn]
      split at h
      · cases h
      · cases h
        by_cases h2 : z.rn ≤ 2 <;> cases rdy <;> simp [*, whenReady, emission]
      · cases h
        by_cases h2 : z.si < z.te <;> simp [*, emission]
  case cnt =>
    subst h
    cases rdy <;> simp [selectCnt, whenReady]
  case eor =>
    subst h
    simp [emission]

/-- SAMP is selected when ZEB is ready for a pixel and one is offered (R66). -/
theorem samp_selected_iff {p : PortIn} {z : Zeb} {o : Option MicroOp} (hr : p.rst = false)
    (h : select p z = .ok o) : o = some .samp ↔ z.pixReady = true ∧ p.pix.isSome = true := by
  constructor
  · rintro rfl
    obtain ⟨_, hp, hb, hx, i, hi⟩ := select_some h
    simp [Zeb.pixReady, hp, hb, hx, hi]
  · rintro ⟨hz, hi⟩
    simp only [Zeb.pixReady, Bool.and_eq_true, beq_iff_eq, decide_eq_true_eq] at hz
    obtain ⟨⟨hp, hb⟩, hx⟩ := hz
    simpa [select, hr, hp, selectLoad, Nat.ne_of_lt hb, hb, hx, whenReady, hi, eq_comm] using h

/-- Settles O47: what the selected micro-operation appends (`fire_histories`) is what the ports offer and accept. -/
theorem beatsAreRecorded : Obligations.BeatsAreRecorded := by
  intro s t p hn hr hb h
  have hout : ∀ o, select p s.zeb = .ok o →
      (if p.tokReady = true then s.zeb.tokOffer.toList else []) = (o.bind (emission · s.zeb)).toList := fun o hs => by
    rw [← emission_of_select hr hs]
    split <;> rfl
  have htaken : ∀ o, select p s.zeb = .ok o →
      (if s.zeb.pixReady = true then p.pix.toList else []) = if o = some .samp then p.pix.toList else [] :=
    fun o hs => by
      simp only [samp_selected_iff hr hs]
      cases p.pix <;> simp
  obtain ⟨hs, rfl⟩ | ⟨op, z, hs, hf, rfl⟩ := step_zeb_next hn h
  · rw [hout _ hs, htaken _ hs]
    simp [State.popped]
  · have hstart : op ≠ .start := by
      rintro rfl
      obtain ⟨_, hp | hp, _⟩ := select_some hs <;> simp [Zeb.busy, hp] at hb
    rw [hout _ hs, htaken _ hs]
    simpa using fire_histories hf (select_ne_reset hr hs) hstart

/-! ### The writers -/

/-- Settles O49: the step waits, or fires one micro-operation, and each writes only what its rule lists. -/
theorem onlyItsWritersWrite : Obligations.OnlyItsWritersWrite := by
  intro s t p hn hr h fired hfired
  obtain ⟨_, rfl⟩ | ⟨op, z, hs, hf, rfl⟩ := step_zeb_next hn h
  · simp [State.popped]
  have hop : fired op := (hfired op).mpr hs
  cases op
  case reset => exact absurd rfl (select_ne_reset hr hs)
  case start =>
    obtain ⟨_, _, c, hc⟩ := select_some hs
    simp only [fire, hc, Except.ok.injEq] at hf
    obtain ⟨_, hstart⟩ | ⟨_, hstart⟩ := fireStart_cases s.params c s.zeb <;>
      rw [hstart] at hf <;> subst hf <;> simp [hop]
  case samp =>
    obtain ⟨_, _, _, _, i, hi⟩ := select_some hs
    simp only [fire, hi, Except.ok.injEq] at hf
    subst hf
    simp [hop]
  case pack =>
    obtain ⟨_, e, _, rfl⟩ := firePack_eq_ok.mp hf
    simp [hop]
  case acc =>
    obtain ⟨_, v, _, rfl⟩ := fireAcc_eq_ok.mp hf
    simp [hop]
  case commit =>
    obtain ⟨d, _, rfl⟩ := fireCommit_eq_ok.mp hf
    simp [hop]
  all_goals
    cases hf
    simp [hop, fireRowrep, fireLit, fireCntz, fireCnt20, fireCnt1, fireRepc, fireEol]

end Sys2Proof.Machine
end

