-- ==== Sys2Proof/Proofs/ReaderInvariant.lean ====
section
/-! PROOFS. The invariant of the reader (44_token_stream.md rules R200, R208, R209): each of its operations keeps it. -/

namespace Sys2Proof.Machine

theorem Reader.Inv.refuse {r : Reader} (h : r.Inv) (why : ReadRefusal) : (r.refuse why).Inv :=
  ⟨h.rows, h.cur, h.count, by simp⟩

theorem Reader.Inv.complete {r : Reader} (h : r.Inv) (hv : r.verdict = .reading) {row : List Nibble}
    (hrow : row.length = r.rowLen) : (r.complete row).Inv where
  rows := by
    rw [complete_rows, List.forall_mem_append, List.forall_mem_singleton]
    exact ⟨h.rows, hrow⟩
  cur := .inl rfl
  count := h.count
  accepted := by simp [hv]

theorem Reader.Inv.withStream {r : Reader} (h : r.Inv) (cs : List Byte) : ({ r with stream := cs } : Reader).Inv :=
  ⟨h.rows, h.cur, h.count, h.accepted⟩

theorem readHex_inv {r : Reader} (h : r.Inv) (hv : r.verdict = .reading) (d : Nibble) : (readHex d r).Inv := by
  have h0 : ({ r with cnt := 0, stage := .start } : Reader).Inv := ⟨h.rows, h.cur, by simp, by simp [hv]⟩
  have hlen : (r.cur ++ List.replicate r.copies d).length = r.cur.length + r.copies := by simp
  obtain ⟨why, hr⟩ | ⟨hfull, hr⟩ | ⟨hpart, hr⟩ := readHex_cases d r <;> rw [hr]
  · exact h.refuse why
  · exact h0.complete hv (hlen.trans hfull)
  · exact ⟨h0.rows, .inr (hlen.trans_lt hpart), h0.count, by simp [hv]⟩

theorem readCount_inv {r : Reader} (h : r.Inv) (hv : r.verdict = .reading) {c : CountStage} {v : Nat}
    (hc : c ≠ .start) (hpos : 0 < v) : (readCount c v r).Inv := by
  obtain ⟨why, hr⟩ | hr := readCount_cases c v r <;> rw [hr]
  · exact h.refuse why
  · exact ⟨h.rows, h.cur, by simp [hc, hpos.ne'], by simp [hv]⟩

theorem readFill_inv {r : Reader} (h : r.Inv) (hv : r.verdict = .reading) (d : Nibble) : (readFill d r).Inv := by
  obtain ⟨why, hr⟩ | ⟨_, hlt, hr⟩ := readFill_cases d r <;> rw [hr]
  · exact h.refuse why
  · refine h.complete hv ?_
    rw [List.length_append, List.length_replicate]
    omega

theorem readRep_inv {r : Reader} (h : r.Inv) (hv : r.verdict = .reading) : (readRep r).Inv := by
  obtain ⟨why, hr⟩ | ⟨_, _, row, hlast, hr⟩ := readRep_cases r <;> rw [hr]
  · exact h.refuse why
  · exact h.complete hv (h.rows row (List.mem_of_getLast? hlast))

theorem readEnd_inv {r : Reader} (h : r.Inv) : (readEnd r).Inv := by
  obtain ⟨why, hr⟩ | ⟨hcnt, hcur, hrows, hr⟩ := readEnd_cases r <;> rw [hr]
  · exact h.refuse why
  · exact ⟨h.rows, h.cur, h.count, fun _ => ⟨hcur, hcnt, hrows⟩⟩

/-- Every count character adds something and is of a class of its own (R95 to R97). -/
theorem kind_count {i : Instr} {c : CountStage} {v : Nat} (h : i.kind = .count c v) : c ≠ .start ∧ 0 < v := by
  cases i <;> cases h <;> decide

theorem readKind_inv {r : Reader} (h : r.Inv) (hv : r.verdict = .reading) (i : Instr) : (readKind i.kind r).Inv := by
  cases hk : i.kind with
  | hex d => exact readHex_inv h hv d
  | count c v => exact readCount_inv h hv (kind_count hk).1 (kind_count hk).2
  | fill d => exact readFill_inv h hv d
  | rep => exact readRep_inv h hv
  | beat => exact h

theorem giveStream_inv (stream : List Byte) (bw ph : Nat) (strict : Bool) : (giveStream stream bw ph strict).Inv where
  rows := by simp
  cur := .inl rfl
  count := by simp
  accepted := by simp

theorem readStep_inv {s t : State} (h : s.Inv) (ht : readStep s = .next t) : t.Inv := by
  obtain ⟨r, hr, hcases⟩ := readStep_next s
  obtain rfl : { s with reader := r } = t := Host.Outcome.next.inj (hr.symm.trans ht)
  refine ⟨h.params, h.zeb, ?_⟩
  obtain rfl | ⟨hv, ⟨_, rfl⟩ | ⟨c, cs, i, _, _, rfl⟩ | ⟨c, cs, _, _, rfl⟩⟩ := hcases
  · exact h.reader
  · exact readEnd_inv h.reader
  · exact readKind_inv (h.reader.withStream cs) hv i
  · exact (h.reader.withStream cs).refuse _

end Sys2Proof.Machine
end

