-- ==== Sys2Proof/Proofs/ZebInvariant.lean ====
section
/-! PROOFS. The invariants of 10_state.md rule R47: each micro-operation of ZEB keeps them. -/

namespace Sys2Proof.Machine

/-! ### Rows and row buffers -/

theorem rowLen_eq (z : Zeb) : z.rowLen = 2 * ((z.width + 7) / 8) := rfl

theorem bitsIn_eq (z : Zeb) : z.bitsIn = 8 * (z.ni / 2) + z.bc := rfl

/-- A row of a width in range lies inside the row buffers (R34, R35). -/
theorem rowLen_le_maxNib {q : Params} {z : Zeb} (h : z.width ≤ q.maxW) : z.rowLen ≤ q.maxNib := by
  have : (z.width + 7) / 8 ≤ (q.maxW + 7) / 8 := Nat.div_le_div_right (by omega)
  exact Nat.mul_le_mul_left 2 this

theorem held_write {m : Memory} {n : Nat} (h : m.held n) (v : Nibble) : (m.write n v).held (n + 1) := by
  intro k hk
  rw [read_write]
  split
  · rfl
  · exact h k (by omega)

theorem allEq_mono {m : Memory} {a b a' b' : Nat} {v : Nibble} (h : m.allEq a b v) (ha : a ≤ a') (hb : b' ≤ b) :
    m.allEq a' b' v := fun k h1 h2 => h k (ha.trans h1) (h2.trans_le hb)

theorem allEq_empty (m : Memory) (a : Nat) (v : Nibble) : m.allEq a a v := fun k h1 h2 => by omega

/-- One entry more at the end of a run. -/
theorem allEq_succ {m : Memory} {a b : Nat} {v : Nibble} (h : m.allEq a b v) (hb : m.read b = some v) :
    m.allEq a (b + 1) v := fun k h1 h2 => by
  obtain hk | rfl := Nat.lt_succ_iff_lt_or_eq.mp h2
  · exact h k h1 hk
  · exact hb

/-- A write past a run leaves it as it is. -/
theorem allEq_write {m : Memory} {a b : Nat} {v : Nibble} (h : m.allEq a b v) (u : Nibble) :
    (m.write b u).allEq a b v := fun k h1 h2 => by
  rw [read_write_other _ _ h2.ne]
  exact h k h1 h2

theorem bufOk_write {q : Params} {z : Zeb} (h : z.BufOk q) {k : Nat} (hk : k < q.maxNib) (v : Nibble) :
    ({ z with cur := z.cur.write k v } : Zeb).BufOk q where
  curWf := write_wf h.curWf k v
  prevWf := h.prevWf
  curIn := fun e he => by
    obtain rfl | he := mem_write he
    · exact hk
    · exact h.curIn e he
  prevIn := h.prevIn

/-! ### The shift register -/

/-- A bit more in SR is a bit more in its bound (R47 item (b)). -/
theorem shiftIn_lt {sr : Byte} {n : Nat} (h : sr.toNat < 2 ^ n) (b : Bool) : (shiftIn sr b).toNat < 2 ^ (n + 1) := by
  unfold shiftIn
  rw [BitVec.toNat_or]
  refine Nat.or_lt_two_pow ?_ ?_
  · rw [BitVec.toNat_shiftLeft, Nat.shiftLeft_eq]
    exact (Nat.mod_le _ _).trans_lt (by omega)
  · cases b <;> simp

/-! ### Emitted characters -/

theorem inAlphabet_hexChar (v : Nibble) : inAlphabet (hexChar v) = true := by revert v; decide

theorem inAlphabet_count1Char {n : Nat} (h1 : 1 ≤ n) (h2 : n ≤ 19) : inAlphabet (count1Char n) = true := by
  have : ∀ n ≤ 19, 1 ≤ n → inAlphabet (count1Char n) = true := by decide
  exact this n h2 h1

theorem inAlphabet_count20Char {n : Nat} (h1 : 1 ≤ n) (h2 : n ≤ 19) : inAlphabet (count20Char n) = true := by
  have : ∀ n ≤ 19, 1 ≤ n → inAlphabet (count20Char n) = true := by decide
  exact this n h2 h1

theorem inAlphabet_trailMark {m : TrailMark} {c : Byte} (h : m.char = some c) : inAlphabet c = true := by
  cases m <;> cases h <;> decide

/-- What a selected micro-operation emits is a character of the alphabet (30_encoding.md rule R91). -/
theorem emission_inAlphabet {p : PortIn} {z : Zeb} {op : MicroOp} (hs : Selected p z op) :
    ∀ e ∈ emission op z, inAlphabet e.1 = true := by
  intro e he
  cases op <;> simp only [emission, Option.mem_def, Option.some.injEq, reduceCtorEq] at he
  case rowrep => subst he; exact (by decide : inAlphabet chRep = true)
  case cntz => subst he; exact (by decide : inAlphabet ch400 = true)
  case lit | repc => subst he; exact inAlphabet_hexChar _
  case cnt20 =>
    obtain ⟨_, _, h1, h2, _⟩ := hs
    subst he
    exact inAlphabet_count20Char (n := z.rn / 20) (by omega) (by omega)
  case cnt1 =>
    obtain ⟨_, _, h1, h2, _⟩ := hs
    subst he
    exact inAlphabet_count1Char h1 h2
  case eol =>
    obtain ⟨c, hc, rfl⟩ := Option.map_eq_some_iff.mp he
    exact inAlphabet_trailMark hc

theorem emit_inAlphabet {q : Params} {p : PortIn} {z : Zeb} {op : MicroOp} (h : z.Inv q) (hs : Selected p z op) :
    ∀ e ∈ (z.emit (emission op z)).out, inAlphabet e.1 = true := by
  rw [emit_out, List.forall_mem_append]
  exact ⟨h.alphabet, fun e he => emission_inAlphabet hs e (Option.mem_toList.mp he)⟩

/-! ### A state of LOAD -/

/-- The invariant of a state of LOAD. -/
theorem Zeb.Inv.of_load {q : Params} {z : Zeb} (hp : z.phase = .load) (buf : z.BufOk q)
    (eqPv : z.eq = true → z.pv = true) (alphabet : ∀ e ∈ z.out, inAlphabet e.1 = true) (frame : z.FrameOk q)
    (load : z.LoadOk) : z.Inv q where
  buf := buf
  eqPv := eqPv
  alphabet := alphabet
  idle := by simp [hp]
  frame := fun _ => frame
  load := fun _ => load
  packed := by simp [hp]
  scan := by simp [hp]
  run := by simp [hp]
  count := by simp [hp]
  finished := by simp [hp]

/-- START (R183): a refused one changes ERR alone, which no invariant names; an accepted one begins a frame. -/
theorem fireStart_inv {q : Params} {z : Zeb} (h : z.Inv q) (c : Command) : (fireStart q c z).Inv q := by
  obtain ⟨_, hf⟩ | ⟨hdim, hf⟩ := fireStart_cases q c z <;> rw [hf]
  · exact { h with
      buf := { h.buf with }
      frame := fun hp => { h.frame hp with }
      load := fun hp => { h.load hp with }
      packed := fun hp => { h.packed hp with }
      scan := fun hp => { h.scan hp with } }
  · rw [← Bool.not_eq_true, badDim_eq_true] at hdim
    generalize (c.onPort q).w = w at hdim ⊢
    generalize (c.onPort q).h = k at hdim ⊢
    refine .of_load rfl { h.buf with } (by simp) (by simp) ?_ ?_
    · constructor <;> simp <;> omega
    · constructor <;> simp [Memory.held, bitsIn_eq]

/-- SAMP (R122). -/
theorem fireSamp_inv {q : Params} {z : Zeb} (h : z.Inv q) (hp : z.phase = .load) (hb : z.bc < 8)
    (hx : z.x < z.width) (i : Byte) : (fireSamp i z).Inv q := by
  have hf := h.frame (by simp [hp])
  have hl := h.load hp
  have heven := hl.even hb
  have hbits := hl.early hx
  have hlen := rowLen_eq z
  rw [bitsIn_eq] at hbits
  refine .of_load hp { h.buf with } h.eqPv h.alphabet
    { hf with x := hx, bc := hb, sr := shiftIn_lt hf.sr _, taken := ?_ }
    { hl with even := fun _ => heven, early := fun _ => ?_, late := ?_, inRow := ?_ }
  · simp [hf.taken, Nat.add_assoc]
  all_goals
    simp only [bitsIn_eq, fireSamp_x, fireSamp_ni, fireSamp_bc, rowLen_eq, fireSamp_width]
    omega

/-- PAD (R134). -/
theorem firePad_inv {q : Params} {z : Zeb} (h : z.Inv q) (hp : z.phase = .load) (hx : z.x = z.width)
    (h1 : 1 ≤ z.bc) (h7 : z.bc ≤ 7) : (firePad z).Inv q := by
  have hf := h.frame (by simp [hp])
  have hl := h.load hp
  have heven := hl.even (by omega)
  have hlate := hl.late
  have hrow := hl.inRow
  rw [bitsIn_eq] at hlate hrow
  rw [rowLen_eq] at hrow
  refine .of_load hp { h.buf with } h.eqPv h.alphabet
    { hf with bc := by simp; omega, sr := shiftIn_lt hf.sr _ }
    { hl with even := fun _ => heven, early := fun hlt => absurd hx hlt.ne, late := ?_, inRow := ?_ }
  all_goals
    simp only [bitsIn_eq, firePad_x, firePad_ni, firePad_bc, rowLen_eq, firePad_width]
    omega

/-- The tail tracker after PACK (R153): the trailing run goes on, or the new nibble begins one. -/
theorem tsNext_tail {z : Zeb} (h : z.LoadOk) (v : Nibble) :
    tsNext z v < z.ni + 1 ∧ (z.cur.write z.ni v).allEq (tsNext z v) (z.ni + 1) v ∧
      (tsNext z v = 0 ∨ (z.cur.write z.ni v).read (tsNext z v - 1) ≠ some v) := by
  unfold tsNext
  split
  · rename_i hnew
    refine ⟨by omega, allEq_succ (allEq_empty _ _ _) (by simp), ?_⟩
    obtain h0 | hpos := Nat.eq_zero_or_pos z.ni
    · exact .inl h0
    · obtain ⟨hts, hall, _⟩ := h.tail hpos
      have hlast : z.cur.read (z.ni - 1) = some z.ln := hall _ (by omega) (by omega)
      have hne : v ≠ z.ln := hnew.resolve_left (by omega)
      rw [read_write_other _ _ (by omega), hlast]
      exact .inr (by simpa using hne.symm)
  · rename_i hold
    obtain ⟨hpos, rfl⟩ : z.ni ≠ 0 ∧ v = z.ln := by simpa using hold
    obtain ⟨hts, hall, hbefore⟩ := h.tail (by omega)
    refine ⟨by omega, allEq_succ (allEq_write hall _) (by simp), hbefore.imp_right fun hb => ?_⟩
    rwa [read_write_other _ _ (by omega)]

/-- The comparator after PACK (R152): the rows agree so far if they agreed before and the new nibble is PREV's. -/
theorem eqNext_same {z : Zeb} (h : z.LoadOk) {v : Nibble} {e : Bool} (he : eqNext z v = .ok e) :
    e = true ↔ z.pv = true ∧ ∀ k, k < z.ni + 1 → (z.cur.write z.ni v).read k = z.prev.read k := by
  have hbelow : ∀ k, k < z.ni → (z.cur.write z.ni v).read k = z.cur.read k :=
    fun k hk => read_write_other _ _ hk.ne
  obtain ⟨hne, rfl⟩ | ⟨heq, _, u, hu, rfl⟩ := eqNext_eq_ok.mp he
  · refine iff_of_false (by simp) fun ⟨hpv, hall⟩ => ?_
    have : z.eq = true := h.same.mpr ⟨hpv, fun k hk => by rw [← hbelow k hk, hall k (by omega)]⟩
    simp [hne] at this
  · obtain ⟨hpv, hall⟩ := h.same.mp heq
    rw [beq_iff_eq]
    constructor
    · rintro rfl
      refine ⟨hpv, fun k hk => ?_⟩
      obtain hk | rfl := Nat.lt_succ_iff_lt_or_eq.mp hk
      · rw [hbelow k hk, hall k hk]
      · rw [read_write_self, hu]
    · rintro ⟨_, hnew⟩
      have := hnew z.ni (by omega)
      rw [read_write_self, hu] at this
      exact (Option.some.inj this).symm

/-- PACK (R135, R152, R153): SR and BC stay with the high nibble and are cleared with the low one. -/
theorem firePack_inv {q : Params} {z t : Zeb} (h : z.Inv q) (hp : z.phase = .load) (hb : z.bc = 8)
    (hf : firePack z = .ok t) : t.Inv q := by
  have hfr := h.frame (by simp [hp])
  have hl := h.load hp
  obtain ⟨hni, e, he, rfl⟩ := firePack_eq_ok.mp hf
  have hbits : 8 * ((z.ni + 1) / 2) + (if z.ni % 2 = 1 then 0 else z.bc) = z.bitsIn := by
    rw [bitsIn_eq]
    split <;> omega
  refine .of_load hp
    { bufOk_write h.buf (hni.trans_le (rowLen_le_maxNib hfr.width.2)) (nibbleMux z.sr z.ni) with } ?_ h.alphabet
    { hfr with ni := hni, bc := ?_, sr := ?_ }
    { even := fun hlt => ?_
      early := fun hx => hbits.trans (hl.early hx)
      late := hl.late.trans_eq hbits.symm
      inRow := hbits.trans_le hl.inRow
      held := held_write hl.held _
      tail := fun _ => tsNext_tail hl _
      same := eqNext_same hl he }
  · exact fun htrue => ((eqNext_same hl he).mp htrue).1
  · show (if z.ni % 2 = 1 then 0 else z.bc) ≤ 8
    split <;> omega
  · show (if z.ni % 2 = 1 then (0 : Byte) else z.sr).toNat < 2 ^ (if z.ni % 2 = 1 then 0 else z.bc)
    split
    · decide
    · exact hfr.sr
  · change (if z.ni % 2 = 1 then 0 else z.bc) < 8 at hlt
    show (z.ni + 1) % 2 = 0
    split at hlt <;> omega

/-! ### A packed row -/

/-- A complete row is packed (R168): NI is even, and the row's bits fill it. -/
theorem packed_of_rowComplete {q : Params} {z : Zeb} (h : z.Inv q) (hp : z.phase = .load) (hx : z.x = z.width)
    (hb : z.bc = 0) : z.PackedOk := by
  have hf := h.frame (by simp [hp])
  have hl := h.load hp
  have hni : z.ni = z.rowLen := by
    have heven := hl.even (by omega)
    have hlate := hl.late
    have hle := hf.ni
    rw [bitsIn_eq] at hlate
    rw [rowLen_eq] at hle ⊢
    omega
  exact ⟨hx, hb, hni, hni ▸ hl.held⟩

/-- `z` with these values in what the micro-operations of the compressor write (R154 to R163): each of them gives a state
of this form, and so leaves everything else of `z` as it is. -/
abbrev Zeb.scanned (z : Zeb) (phase : Phase) (out : List (Byte × Bool)) (te : Nat) (tm : TrailMark) (si : Nat)
    (rc : Nibble) (rn : Nat) : Zeb :=
  { z with phase := phase, out := out, te := te, tm := tm, si := si, rc := rc, rn := rn }

/-- Once the row is packed, the invariant of a micro-operation of the compressor is that of the scan, the run and the
count. -/
theorem Zeb.Inv.scanned {q : Params} {z : Zeb} {ph : Phase} {out : List (Byte × Bool)} {te : Nat} {tm : TrailMark}
    {si : Nat} {rc : Nibble} {rn : Nat} (h : z.Inv q) (hidle : z.phase ≠ .idle) (hdone : z.phase ≠ .done)
    (packed : z.PackedOk) (hph : ph = .scan ∨ ph = .cnt ∨ ph = .eor) (alphabet : ∀ e ∈ out, inAlphabet e.1 = true)
    (scan : ph = .scan ∨ ph = .cnt → (z.scanned ph out te tm si rc rn).ScanOk)
    (run : ph = .scan → (z.scanned ph out te tm si rc rn).RunOk)
    (count : ph = .cnt → (z.scanned ph out te tm si rc rn).CountOk) : (z.scanned ph out te tm si rc rn).Inv q where
  buf := { h.buf with }
  eqPv := h.eqPv
  alphabet := alphabet
  idle := by rintro rfl; simp at hph
  frame := fun _ =>
    { h.frame hidle with
      yDone := iff_of_false (mt (h.frame hidle).yDone.mp hdone) (by rintro rfl; simp at hph) }
  load := by rintro rfl; simp at hph
  packed := fun _ => { packed with }
  scan := scan
  run := run
  count := count
  finished := by rintro rfl; simp at hph

/-- ROWREP (R154). -/
theorem fireRowrep_inv {q : Params} {p : PortIn} {z : Zeb} (h : z.Inv q) (hs : Selected p z .rowrep) :
    (fireRowrep z).Inv q := by
  have hout := emit_inAlphabet h hs
  obtain ⟨_, hp, hx, hb, _⟩ := hs
  exact h.scanned (by simp [hp]) (by simp [hp]) (packed_of_rowComplete h hp hx hb) (by simp) hout
    (by simp) (by simp) (by simp)

/-- A marker stands for the nibble it was made from (R41, R155). -/
theorem trailMark_nibble {v : Nibble} (h : trailMark v ≠ .none) : (trailMark v).nibble = some v := by
  revert v; decide

/-- TRAIL (R155): the tail tracker gives TE. -/
theorem fireTrail_inv {q : Params} {z : Zeb} (h : z.Inv q) (hp : z.phase = .load) (hx : z.x = z.width)
    (hb : z.bc = 0) : (fireTrail z).Inv q := by
  have hpk := packed_of_rowComplete h hp hx hb
  have hw := (h.frame (by simp [hp])).width
  have hlen := rowLen_eq z
  have hni := hpk.ni
  obtain ⟨hts, hall, hbefore⟩ := (h.load hp).tail (by omega)
  rw [hni] at hts hall
  refine h.scanned (by simp [hp]) (by simp [hp]) hpk (by simp) h.alphabet (fun _ => ⟨Nat.zero_le _, ?_, ?_, ?_⟩)
    (fun _ => ⟨le_rfl, allEq_empty _ _ _⟩) (by simp)
  · show trailEnd z ≤ z.rowLen
    unfold trailEnd
    split <;> omega
  · exact fun hm => if_pos hm
  · intro hm
    have hte : trailEnd z = z.ts := if_neg hm
    show trailEnd z < z.rowLen ∧ _ = some z.ln ∧ z.cur.allEq (trailEnd z) z.rowLen z.ln ∧
      (trailEnd z = 0 ∨ z.cur.read (trailEnd z - 1) ≠ some z.ln)
    rw [hte]
    exact ⟨hts, trailMark_nibble hm, hall, hbefore⟩

/-- ACC (R156): the run takes CUR[SI] in. -/
theorem fireAcc_inv {q : Params} {z t : Zeb} (h : z.Inv q) (hp : z.phase = .scan) (hlt : z.si < z.te)
    (hrun : z.rn = 0 ∨ z.si < z.rowLen ∧ z.cur.read z.si = some z.rc) (hf : fireAcc z = .ok t) : t.Inv q := by
  obtain ⟨_, v, hv, rfl⟩ := fireAcc_eq_ok.mp hf
  obtain ⟨hle, hall⟩ := h.run hp
  have hsc := h.scan (.inl hp)
  have hold : z.cur.allEq (z.si - z.rn) z.si v := by
    obtain h0 | ⟨_, hrc⟩ := hrun
    · rw [h0]
      exact allEq_empty _ _ _
    · obtain rfl : z.rc = v := Option.some.inj (hrc.symm.trans hv)
      exact hall
  refine h.scanned (by simp [hp]) (by simp [hp]) (h.packed (.inl hp)) (.inl hp) h.alphabet
    (fun _ => { hsc with si := hlt }) (fun _ => ⟨Nat.succ_le_succ hle, ?_⟩) (by simp [hp])
  show z.cur.allEq (z.si + 1 - (z.rn + 1)) (z.si + 1) v
  rw [Nat.add_sub_add_right]
  exact allEq_succ hold hv

/-- LIT (R157): the run loses one nibble. -/
theorem fireLit_inv {q : Params} {p : PortIn} {z : Zeb} (h : z.Inv q) (hs : Selected p z .lit) :
    (fireLit z).Inv q := by
  have hout := emit_inAlphabet h hs
  obtain ⟨_, hp, _⟩ := hs
  obtain ⟨hle, hall⟩ := h.run hp
  exact h.scanned (by simp [hp]) (by simp [hp]) (h.packed (.inl hp)) (.inl hp) hout
    (fun _ => { h.scan (.inl hp) with })
    (fun _ => ⟨(Nat.sub_le _ _).trans hle, allEq_mono hall (Nat.sub_le_sub_left (Nat.sub_le _ _) _) le_rfl⟩)
    (by simp [hp])

/-- RLE (R158): the run held in RC and RN is the run to be counted. -/
theorem fireRle_inv {q : Params} {z : Zeb} (h : z.Inv q) (hp : z.phase = .scan) (h3 : 3 ≤ z.rn) :
    (fireRle z).Inv q := by
  obtain ⟨hle, hall⟩ := h.run hp
  exact h.scanned (by simp [hp]) (by simp [hp]) (h.packed (.inl hp)) (by simp) h.alphabet
    (fun _ => { h.scan (.inl hp) with }) (by simp) (fun _ => ⟨z.rn, h3, hle, le_rfl, hall⟩)

/-- CNTZ, CNT20 and CNT1 (R159 to R161): what is left to count does not grow. -/
theorem countDown_inv {q : Params} {p : PortIn} {z : Zeb} {op : MicroOp} (h : z.Inv q) (hp : z.phase = .cnt)
    (hs : Selected p z op) {n : Nat} (hn : n ≤ z.rn) : ({ z.emit (emission op z) with rn := n } : Zeb).Inv q := by
  obtain ⟨m, h3, hsi, hle, hall⟩ := h.count hp
  exact h.scanned (by simp [hp]) (by simp [hp]) (h.packed (.inr (.inl hp))) (.inr (.inl hp)) (emit_inAlphabet h hs)
    (fun _ => { h.scan (.inr hp) with }) (by simp [hp]) (fun _ => ⟨m, h3, hsi, hn.trans hle, hall⟩)

/-- REPC (R162): the scan goes on with an empty run. -/
theorem fireRepc_inv {q : Params} {p : PortIn} {z : Zeb} (h : z.Inv q) (hs : Selected p z .repc) :
    (fireRepc z).Inv q := by
  have hout := emit_inAlphabet h hs
  obtain ⟨_, hp, hn, _⟩ := hs
  refine h.scanned (by simp [hp]) (by simp [hp]) (h.packed (.inr (.inl hp))) (by simp) hout
    (fun _ => { h.scan (.inr hp) with }) (fun _ => ?_) (by simp)
  show z.rn ≤ z.si ∧ z.cur.allEq (z.si - z.rn) z.si z.rc
  rw [hn]
  exact ⟨Nat.zero_le _, allEq_empty _ _ _⟩

/-- EOL (R163). -/
theorem fireEol_inv {q : Params} {p : PortIn} {z : Zeb} (h : z.Inv q) (hs : Selected p z .eol) :
    (fireEol z).Inv q := by
  have hout := emit_inAlphabet h hs
  obtain ⟨_, hp, _⟩ := hs
  exact h.scanned (by simp [hp]) (by simp [hp]) (h.packed (.inl hp)) (by simp) hout (by simp) (by simp) (by simp)

/-! ### The end of a row, and reset -/

/-- COMMIT (R184): PREV holds the row, and the next row or DONE begins. -/
theorem fireCommit_inv {q : Params} {z t : Zeb} (h : z.Inv q) (hp : z.phase = .eor) (hf : fireCommit z = .ok t) :
    t.Inv q := by
  obtain ⟨d, hd, rfl⟩ := fireCommit_eq_ok.mp hf
  have hfr := h.frame (by simp [hp])
  have hpk := h.packed (by simp [hp])
  have hy : z.y < z.height := hfr.y.lt_of_ne (mt hfr.yDone.mp (by simp [hp]))
  have hbuf : ({ z with prev := d } : Zeb).BufOk q :=
    { h.buf with
      prevWf := copyRow_wf h.buf.prevWf hd
      prevIn := copyRow_below (rowLen_le_maxNib hfr.width.2) h.buf.prevIn hd }
  have hheld : d.held z.rowLen := fun k hk => by
    rw [copyRow_read hd, if_pos hk]
    exact hpk.held k hk
  have hframe : ({ z with prev := d, pv := true, eq := true, y := z.y + 1, x := 0, ni := 0,
                          phase := if z.y + 1 = z.height then .done else .load } : Zeb).FrameOk q :=
    { hfr with
      x := Nat.zero_le _
      y := hy
      yDone := by by_cases hlast : z.y + 1 = z.height <;> simp [hlast]
      ni := Nat.zero_le _
      pv := by simp
      prev := fun _ => hheld
      taken := by simp [hfr.taken, hpk.x, Nat.succ_mul] }
  by_cases hlast : z.y + 1 = z.height
  · simp only [if_pos hlast] at hframe ⊢
    exact
      { buf := { hbuf with }
        eqPv := fun _ => rfl
        alphabet := h.alphabet
        idle := by simp
        frame := fun _ => hframe
        load := by simp
        packed := by simp
        scan := by simp
        run := by simp
        count := by simp
        finished := fun _ => ⟨rfl, rfl, hpk.bc⟩ }
  · simp only [if_neg hlast] at hframe ⊢
    refine .of_load rfl { hbuf with } (fun _ => rfl) h.alphabet hframe ?_
    constructor <;> simp [Memory.held, bitsIn_eq, hpk.bc]

/-- RESET (R250): in IDLE nothing is claimed of the values it leaves open. -/
theorem fireReset_inv (q : Params) (z : Zeb) : (fireReset q z).Inv q := by
  constructor <;> simp [fireReset]
  constructor <;> simp

/-! ### Every step -/

/-- Every micro-operation that is selected and answers keeps the invariants of R47. -/
theorem fire_inv {q : Params} {p : PortIn} {z t : Zeb} {op : MicroOp} (h : z.Inv q) (hs : Selected p z op)
    (hf : fire q p z op = .ok t) : t.Inv q := by
  cases op
  case reset => cases hf; exact fireReset_inv q z
  case start =>
    obtain ⟨_, _, c, hc⟩ := hs
    simp only [fire, hc, Except.ok.injEq] at hf
    exact hf ▸ fireStart_inv h c
  case samp =>
    obtain ⟨_, hp, hb, hx, i, hi⟩ := hs
    simp only [fire, hi, Except.ok.injEq] at hf
    exact hf ▸ fireSamp_inv h hp hb hx i
  case pad => obtain ⟨_, hp, hx, h1, h7⟩ := hs; cases hf; exact firePad_inv h hp hx h1 h7
  case pack => obtain ⟨_, hp, hb⟩ := hs; exact firePack_inv h hp hb hf
  case rowrep => cases hf; exact fireRowrep_inv h hs
  case trail => obtain ⟨_, hp, hx, hb, _⟩ := hs; cases hf; exact fireTrail_inv h hp hx hb
  case acc => obtain ⟨_, hp, hlt, hrun⟩ := hs; exact fireAcc_inv h hp hlt hrun hf
  case lit => cases hf; exact fireLit_inv h hs
  case rle => obtain ⟨_, hp, h3, _⟩ := hs; cases hf; exact fireRle_inv h hp h3
  case cntz => have ⟨_, hp, _⟩ := hs; cases hf; exact countDown_inv h hp hs (Nat.sub_le _ _)
  case cnt20 => have ⟨_, hp, _⟩ := hs; cases hf; exact countDown_inv h hp hs (Nat.mod_le _ _)
  case cnt1 => have ⟨_, hp, _⟩ := hs; cases hf; exact countDown_inv h hp hs (Nat.zero_le _)
  case repc => cases hf; exact fireRepc_inv h hs
  case eol => cases hf; exact fireEol_inv h hs
  case commit => obtain ⟨_, hp⟩ := hs; exact fireCommit_inv h hp hf

theorem zebStep_inv {p : PortIn} {s t : State} (h : s.Inv) (ht : zebStep p s = .next t) : t.Inv := by
  obtain ⟨_, rfl⟩ | ⟨op, z, hs, hf, rfl⟩ := zebStep_next ht
  · exact h
  · exact ⟨h.params, fire_inv h.zeb (select_some hs) hf, h.reader⟩

/-- Settles O52: the agent that the next event names keeps its invariant, and the other agent is not touched. -/
theorem stepKeepsInvariant : Obligations.StepKeepsInvariant := by
  intro s t h ht
  have hpop : s.popped.Inv := ⟨h.params, h.zeb, h.reader⟩
  rw [step_eq] at ht
  cases hn : s.nextEvent with
  | zeb p => rw [hn] at ht; exact zebStep_inv hpop ht
  | give stream bw ph strict => rw [hn] at ht; cases ht; exact ⟨h.params, h.zeb, giveStream_inv stream bw ph strict⟩
  | read => rw [hn] at ht; exact readStep_inv hpop ht

end Sys2Proof.Machine
end

