-- ==== Sys2Proof/Proofs/Stale.lean ====
section
/-! PROOFS. Unspecified and stale values never matter (10_state.md rule R47 item (i), 43_sequencer.md rule R190): two
machines that agree on what is live select the same micro-operation and go on agreeing. -/

namespace Sys2Proof.Machine

section
variable {q : Params} {p : PortIn} {a b : Zeb}

/-! ### What two such states share -/

theorem Zeb.SameLive.refl (z : Zeb) : z.SameLive z := by
  constructor <;> simp

theorem Zeb.SameLive.rowLen_eq (h : a.SameLive b) (hp : a.phase ≠ .idle) : a.rowLen = b.rowLen := by
  obtain ⟨hw, _⟩ := h.frame hp
  simp [Zeb.rowLen, Zeb.byteWidth, hw]

theorem Zeb.SameLive.lastRow_eq (h : a.SameLive b) (hp : a.phase ≠ .idle) : a.lastRow = b.lastRow := by
  obtain ⟨_, hh, hy, _⟩ := h.frame hp
  simp [Zeb.lastRow, hh, hy]

theorem Zeb.SameLive.scanEnds_eq (h : a.SameLive b) (hp : a.phase = .scan ∨ a.phase = .cnt) :
    a.scanEnds = b.scanEnds := by
  obtain ⟨hte, htm, hsi, _⟩ := h.scan hp
  simp [Zeb.scanEnds, hte, htm, hsi]

/-- The two hold the same row from when it is packed. -/
theorem Zeb.SameLive.cur_eq (h : a.SameLive b) (hi : a.Inv q)
    (hp : a.phase = .scan ∨ a.phase = .cnt ∨ a.phase = .eor) {k : Nat} (hk : k < a.rowLen) :
    a.cur.read k = b.cur.read k := by
  obtain ⟨_, _, _, _, _, _, _, hcur⟩ := h.frame (by rintro hidle; simp [hidle] at hp)
  exact hcur k ((hi.packed hp).ni ▸ hk)

theorem Zeb.SameLive.closed_eq (h : a.SameLive b) (hi : a.Inv q) (hp : a.phase = .scan) (hn : 1 ≤ a.rn) :
    a.closed = b.closed := by
  obtain ⟨hte, _, hsi, _⟩ := h.scan (.inl hp)
  have hrc := h.run (.inl ⟨hp, hn⟩)
  unfold Zeb.closed
  rw [← hte, ← hsi, ← hrc]
  by_cases hlt : a.si < a.te
  · have hk : a.si < a.rowLen := hlt.trans_le (hi.scan (.inl hp)).te
    simp only [readRow, ← h.rowLen_eq (by simp [hp]), ← h.cur_eq hi (.inl hp) hk]
  · simp [hlt]

/-- The two select the same micro-operation. -/
theorem select_sameLive (h : a.SameLive b) (hi : a.Inv q) : select p a = select p b := by
  unfold select
  rw [← h.phase]
  cases hp : a.phase with
  | idle | done | eor => rfl
  | load =>
    obtain ⟨hw, _, _, hx, _, hb, _⟩ := h.frame (by simp [hp])
    simp [selectLoad, Zeb.repeats, hw, hx, hb, h.pv, h.eq]
  | scan =>
    obtain ⟨hte, htm, hsi, hrn⟩ := h.scan (.inl hp)
    by_cases hn : a.rn = 0
    · simp [selectScan, ← hte, ← htm, ← hsi, ← hrn, hn]
    · have hc := h.closed_eq hi hp (by omega)
      simp [selectScan, ← hte, ← hsi, ← hrn, hn, ← hc]
  | cnt =>
    obtain ⟨_, _, _, hrn⟩ := h.scan (.inr hp)
    simp [selectCnt, hrn]

/-- The two emit the same character. -/
theorem emission_sameLive {op : MicroOp} (h : a.SameLive b) (hs : Selected p a op) :
    emission op a = emission op b := by
  cases op <;> simp only [emission, Option.some.injEq, Prod.mk.injEq]
  case rowrep =>
    obtain ⟨_, hp, _⟩ := hs
    simp [h.lastRow_eq (by simp [hp])]
  case lit =>
    obtain ⟨_, hp, hn, _⟩ := hs
    obtain ⟨_, _, _, hrn⟩ := h.scan (.inl hp)
    simp [h.lastRow_eq (by simp [hp]), h.scanEnds_eq (.inl hp), hrn, h.run (.inl ⟨hp, hn⟩)]
  case cnt20 | cnt1 =>
    obtain ⟨_, hp, _⟩ := hs
    obtain ⟨_, _, _, hrn⟩ := h.scan (.inr hp)
    simp [hrn]
  case repc =>
    obtain ⟨_, hp, _⟩ := hs
    simp [h.lastRow_eq (by simp [hp]), h.scanEnds_eq (.inr hp), h.run (.inr hp)]
  case eol =>
    obtain ⟨_, hp, _⟩ := hs
    obtain ⟨_, htm, _⟩ := h.scan (.inl hp)
    rw [h.lastRow_eq (by simp [hp]), htm]

/-! ### The micro-operations -/

/-- RESET reads nothing of the state but how many free values have been drawn (R250). -/
theorem fireReset_eq (h : a.SameLive b) : fireReset q a = fireReset q b := by
  simp [fireReset, h.draws]

/-- An accepted START writes every register that LOAD reads before writing it (R183). -/
theorem acceptStart_sameLive (h : a.SameLive b) (w k : Nat) : (acceptStart w k a).SameLive (acceptStart w k b) := by
  constructor <;> simp [h.draws]

theorem fireStart_sameLive (h : a.SameLive b) (c : Command) : (fireStart q c a).SameLive (fireStart q c b) := by
  unfold fireStart
  split
  · exact { h with err := rfl }
  · exact acceptStart_sameLive h _ _

/-- A bit more in the shift register (SAMP, PAD). -/
theorem fireSamp_sameLive (h : a.SameLive b) (hp : a.phase = .load) (i : Byte) :
    (fireSamp i a).SameLive (fireSamp i b) := by
  obtain ⟨hw, hh, hy, hx, hsr, hb, hni, hcur⟩ := h.frame (by simp [hp])
  exact
    { h with
      taken := congrArg (· ++ [i]) h.taken
      frame := fun _ => ⟨hw, hh, hy, congrArg (· + 1) hx, congrArg (shiftIn · (thr i)) hsr, congrArg (· + 1) hb, hni,
        hcur⟩ }

theorem firePad_sameLive (h : a.SameLive b) (hp : a.phase = .load) : (firePad a).SameLive (firePad b) := by
  obtain ⟨hw, hh, hy, hx, hsr, hb, hni, hcur⟩ := h.frame (by simp [hp])
  exact
    { h with
      frame := fun _ => ⟨hw, hh, hy, hx, congrArg (shiftIn · false) hsr, congrArg (· + 1) hb, hni, hcur⟩ }

theorem eqNext_sameLive (h : a.SameLive b) (hi : a.Inv q) (hp : a.phase = .load) (hni : a.ni < a.rowLen)
    (v : Nibble) : eqNext a v = eqNext b v := by
  obtain ⟨_, _, _, _, _, _, hn, _⟩ := h.frame (by simp [hp])
  unfold eqNext
  rw [← h.eq]
  split
  · rename_i heq
    simp only [readRow, ← h.rowLen_eq (by simp [hp]), ← hn, h.prev (hi.eqPv heq) _ hni]
  · rfl

theorem tsNext_sameLive (h : a.SameLive b) (hp : a.phase = .load) (v : Nibble) : tsNext a v = tsNext b v := by
  obtain ⟨_, _, _, _, _, _, hn, _⟩ := h.frame (by simp [hp])
  unfold tsNext
  rw [← hn]
  obtain h0 | hpos := Nat.eq_zero_or_pos a.ni
  · simp [h0]
  · obtain ⟨hts, hln⟩ := h.tail hp hpos
    rw [hts, hln]

theorem firePack_sameLive {a' : Zeb} (h : a.SameLive b) (hi : a.Inv q) (hp : a.phase = .load)
    (hf : firePack a = .ok a') : ∃ b', firePack b = .ok b' ∧ a'.SameLive b' := by
  obtain ⟨hlt, e, he, rfl⟩ := firePack_eq_ok.mp hf
  obtain ⟨hw, hh, hy, hx, hsr, hb, hni, hcur⟩ := h.frame (by simp [hp])
  have hlen := h.rowLen_eq (by simp [hp])
  have hts := tsNext_sameLive h hp (nibbleMux a.sr a.ni)
  rw [eqNext_sameLive h hi hp hlt] at he
  rw [hlen, hni] at hlt
  rw [hsr, hni] at he hts
  refine ⟨_, firePack_eq_ok.mpr ⟨hlt, e, he, rfl⟩, ?_⟩
  refine
    { h with
      eq := rfl
      frame := fun _ => ⟨hw, hh, hy, hx, ?_, ?_, congrArg (· + 1) hni, fun k hk => ?_⟩
      tail := fun _ _ => ⟨?_, ?_⟩ }
  · simp [hni, hsr]
  · simp [hni, hb]
  · simp only [read_write, hni, hsr]
    split
    · rfl
    · exact hcur k (by simp only at hk; omega)
  · simp [hsr, hni, hts]
  · simp [hsr, hni]

/-- The micro-operations of the compressor go on differing at most in RC, and in that only while no run is held. -/
theorem Zeb.SameLive.scanned {ph ph' : Phase} {out out' : List (Byte × Bool)} {te te' : Nat} {tm tm' : TrailMark}
    {si si' : Nat} {rc rc' : Nibble} {rn rn' : Nat} (h : a.SameLive b) (hidle : a.phase ≠ .idle)
    (phase : ph = ph') (hph : ph = .scan ∨ ph = .cnt ∨ ph = .eor) (hout : out = out')
    (scan : ph = .scan ∨ ph = .cnt → te = te' ∧ tm = tm' ∧ si = si' ∧ rn = rn')
    (run : (ph = .scan ∧ 1 ≤ rn) ∨ ph = .cnt → rc = rc') :
    (a.scanned ph out te tm si rc rn).SameLive (b.scanned ph' out' te' tm' si' rc' rn') :=
  { h with
    phase := phase
    out := hout
    frame := fun _ => h.frame hidle
    tail := by rintro rfl; simp at hph
    scan := scan
    run := run }

theorem emit_sameLive {op : MicroOp} (h : a.SameLive b) (hs : Selected p a op) :
    (a.emit (emission op a)).out = (b.emit (emission op b)).out := by
  rw [emit_out, emit_out, h.out, emission_sameLive h hs]

theorem fireRowrep_sameLive (h : a.SameLive b) (hs : Selected p a .rowrep) :
    (fireRowrep a).SameLive (fireRowrep b) := by
  have hout := emit_sameLive h hs
  obtain ⟨_, hp, _⟩ := hs
  exact h.scanned (by simp [hp]) rfl (by simp) hout (by simp) (by simp)

/-- TRAIL reads LN and TS of a packed row, which the row's last PACK has written (R153, R155). -/
theorem fireTrail_sameLive (h : a.SameLive b) (hi : a.Inv q) (hp : a.phase = .load) (hx : a.x = a.width)
    (hb : a.bc = 0) : (fireTrail a).SameLive (fireTrail b) := by
  have hw := (hi.frame (by simp [hp])).width
  have hni := (packed_of_rowComplete hi hp hx hb).ni
  have hlen := rowLen_eq a
  obtain ⟨hts, hln⟩ := h.tail hp (by omega)
  have hte : trailEnd a = trailEnd b := by
    unfold trailEnd
    rw [hln, hts, h.rowLen_eq (by simp [hp])]
  exact h.scanned (by simp [hp]) rfl (by simp) h.out (fun _ => ⟨hte, congrArg trailMark hln, rfl, rfl⟩) (by simp)

theorem fireAcc_sameLive {a' : Zeb} (h : a.SameLive b) (hi : a.Inv q) (hp : a.phase = .scan)
    (hf : fireAcc a = .ok a') : ∃ b', fireAcc b = .ok b' ∧ a'.SameLive b' := by
  obtain ⟨hlt, v, hv, rfl⟩ := fireAcc_eq_ok.mp hf
  obtain ⟨hte, htm, hsi, hrn⟩ := h.scan (.inl hp)
  rw [h.cur_eq hi (.inl hp) hlt, hsi] at hv
  rw [h.rowLen_eq (by simp [hp]), hsi] at hlt
  exact ⟨_, fireAcc_eq_ok.mpr ⟨hlt, v, hv, rfl⟩,
    h.scanned (by simp [hp]) h.phase (.inl hp) h.out
      (fun _ => ⟨hte, htm, congrArg (· + 1) hsi, congrArg (· + 1) hrn⟩) (fun _ => rfl)⟩

theorem fireLit_sameLive (h : a.SameLive b) (hs : Selected p a .lit) : (fireLit a).SameLive (fireLit b) := by
  have hout := emit_sameLive h hs
  obtain ⟨_, hp, hn, _⟩ := hs
  obtain ⟨hte, htm, hsi, hrn⟩ := h.scan (.inl hp)
  exact h.scanned (by simp [hp]) h.phase (.inl hp) hout (fun _ => ⟨hte, htm, hsi, congrArg (· - 1) hrn⟩)
    (fun _ => h.run (.inl ⟨hp, hn⟩))

theorem fireRle_sameLive (h : a.SameLive b) (hp : a.phase = .scan) (h3 : 3 ≤ a.rn) :
    (fireRle a).SameLive (fireRle b) :=
  h.scanned (by simp [hp]) rfl (by simp) h.out (fun _ => h.scan (.inl hp)) (fun _ => h.run (.inl ⟨hp, by omega⟩))

/-- CNTZ, CNT20 and CNT1: what is left to count is a function of RN. -/
theorem countDown_sameLive {op : MicroOp} (h : a.SameLive b) (hp : a.phase = .cnt) (hs : Selected p a op)
    (f : Nat → Nat) :
    ({ a.emit (emission op a) with rn := f a.rn } : Zeb).SameLive { b.emit (emission op b) with rn := f b.rn } := by
  obtain ⟨hte, htm, hsi, hrn⟩ := h.scan (.inr hp)
  exact h.scanned (by simp [hp]) h.phase (.inr (.inl hp)) (emit_sameLive h hs)
    (fun _ => ⟨hte, htm, hsi, congrArg f hrn⟩) (fun _ => h.run (.inr hp))

theorem fireRepc_sameLive (h : a.SameLive b) (hs : Selected p a .repc) : (fireRepc a).SameLive (fireRepc b) := by
  have hout := emit_sameLive h hs
  obtain ⟨_, hp, _⟩ := hs
  exact h.scanned (by simp [hp]) rfl (by simp) hout (fun _ => h.scan (.inr hp)) (fun _ => h.run (.inr hp))

theorem fireEol_sameLive (h : a.SameLive b) (hs : Selected p a .eol) : (fireEol a).SameLive (fireEol b) := by
  have hout := emit_sameLive h hs
  obtain ⟨_, hp, _⟩ := hs
  exact h.scanned (by simp [hp]) rfl (by simp) hout (by simp) (by simp)

/-- COMMIT copies the row, which the two share, over the entries of PREV that are read (R184). -/
theorem fireCommit_sameLive {a' : Zeb} (h : a.SameLive b) (hi : a.Inv q) (hp : a.phase = .eor)
    (hf : fireCommit a = .ok a') : ∃ b', fireCommit b = .ok b' ∧ a'.SameLive b' := by
  obtain ⟨d, hd, rfl⟩ := fireCommit_eq_ok.mp hf
  obtain ⟨hw, hh, hy, hx, hsr, hb, hni, hcur⟩ := h.frame (by simp [hp])
  have hlen := h.rowLen_eq (by simp [hp])
  have hrow : ∀ k, k < a.rowLen → a.cur.read k = b.cur.read k := fun k hk => h.cur_eq hi (by simp [hp]) hk
  obtain ⟨d', hd'⟩ : ∃ d', copyRow b.rowLen b.cur b.prev = .ok d' :=
    copyRow_isOk fun k hk => hrow k (hlen ▸ hk) ▸ copyRow_held hd k (hlen ▸ hk)
  refine ⟨_, fireCommit_eq_ok.mpr ⟨d', hd', rfl⟩, ?_⟩
  exact
    { h with
      phase := by simp [hy, hh]
      pv := rfl
      eq := rfl
      frame := fun _ => ⟨hw, hh, congrArg (· + 1) hy, rfl, hsr, hb, rfl, fun k hk => absurd hk (Nat.not_lt_zero k)⟩
      prev := fun _ k hk => by
        show d.read k = d'.read k
        have hk : k < a.rowLen := hk
        rw [copyRow_read hd, copyRow_read hd', if_pos hk, if_pos (hlen ▸ hk), hrow k hk]
      tail := fun _ hpos => absurd hpos (by simp)
      scan := by simp; split <;> simp
      run := by simp; split <;> simp }

/-! ### Every step -/

/-- What a selected micro-operation does in one of the two states, it does in the other. -/
theorem fire_sameLive {a' : Zeb} {op : MicroOp} (h : a.SameLive b) (hi : a.Inv q) (hs : Selected p a op)
    (hf : fire q p a op = .ok a') : ∃ b', fire q p b op = .ok b' ∧ a'.SameLive b' := by
  cases op
  case reset =>
    cases hf
    exact ⟨_, rfl, fireReset_eq h ▸ Zeb.SameLive.refl _⟩
  case start =>
    obtain ⟨_, _, c, hc⟩ := hs
    simp only [fire, hc, Except.ok.injEq] at hf ⊢
    exact ⟨_, rfl, hf ▸ fireStart_sameLive h c⟩
  case samp =>
    obtain ⟨_, hp, _, _, i, hpix⟩ := hs
    simp only [fire, hpix, Except.ok.injEq] at hf ⊢
    exact ⟨_, rfl, hf ▸ fireSamp_sameLive h hp i⟩
  case pack => obtain ⟨_, hp, _⟩ := hs; exact firePack_sameLive h hi hp hf
  case acc => obtain ⟨_, hp, _⟩ := hs; exact fireAcc_sameLive h hi hp hf
  case commit => obtain ⟨_, hp⟩ := hs; exact fireCommit_sameLive h hi hp hf
  all_goals cases hf; refine ⟨_, rfl, ?_⟩
  case pad => obtain ⟨_, hp, _⟩ := hs; exact firePad_sameLive h hp
  case rowrep => exact fireRowrep_sameLive h hs
  case trail => obtain ⟨_, hp, hx, hb, _⟩ := hs; exact fireTrail_sameLive h hi hp hx hb
  case lit => exact fireLit_sameLive h hs
  case rle => obtain ⟨_, hp, h3, _⟩ := hs; exact fireRle_sameLive h hp h3
  case cntz => have ⟨_, hp, _⟩ := hs; exact countDown_sameLive h hp hs (· - unit400)
  case cnt20 => have ⟨_, hp, _⟩ := hs; exact countDown_sameLive h hp hs (· % unit20)
  case cnt1 => have ⟨_, hp, _⟩ := hs; exact countDown_sameLive h hp hs (fun _ => 0)
  case repc => exact fireRepc_sameLive h hs
  case eol => exact fireEol_sameLive h hs

end

theorem zebStep_sameLive {p : PortIn} {a b a' : State} (hi : a.Inv) (h : a.SameLive b)
    (ha : zebStep p a = .next a') : ∃ b', zebStep p b = .next b' ∧ a'.SameLive b' := by
  have hsel : select p a.zeb = select p b.zeb := select_sameLive h.zeb hi.zeb
  obtain ⟨hs, rfl⟩ | ⟨op, z, hs, hf, rfl⟩ := zebStep_next ha
  · exact ⟨b, by simp [zebStep, ← hsel, hs], h⟩
  · obtain ⟨z', hf', hz⟩ := fire_sameLive h.zeb hi.zeb (select_some hs) hf
    rw [hsel] at hs
    rw [h.params] at hf'
    exact ⟨_, zebStep_of_fire hs hf', ⟨h.params, hz, h.reader, h.sched⟩⟩

/-- A step of the reader neither reads nor writes ZEB. -/
theorem readStep_withZeb {s t : State} (h : readStep s = .next t) (z : Zeb) :
    readStep { s with zeb := z } = .next { t with zeb := z } := by
  unfold readStep at *
  obtain ⟨_, hf⟩ | ⟨_, _, hf⟩ | ⟨_, _, i, hv, _, hd, hf⟩ | ⟨_, _, _, _, _, hf⟩ := fetchToken_cases s.reader <;>
    simp only [hf] at h ⊢
  case inr.inr.inl =>
    rw [exec_token (decodeToken_kind hd)] at h ⊢
    simp only [readToken, hv, if_true] at h ⊢
    cases h; rfl
  all_goals cases h; rfl

theorem readStep_sameLive {a b a' : State} (h : a.SameLive b) (ha : readStep a = .next a') :
    ∃ b', readStep b = .next b' ∧ a'.SameLive b' := by
  have hb : b = { a with zeb := b.zeb } := by
    obtain ⟨hq, _, hr, hl⟩ := h
    rw [hq, hr, hl]
  obtain ⟨r, hr, _⟩ := readStep_next a
  obtain rfl : { a with reader := r } = a' := Host.Outcome.next.inj (hr.symm.trans ha)
  rw [hb]
  exact ⟨_, readStep_withZeb ha _, ⟨rfl, h.zeb, rfl, rfl⟩⟩

/-- Settles O54: the two machines have the same next event, and the agent it names does the same in both. -/
theorem staleValuesDoNotMatter : Obligations.StaleValuesDoNotMatter := by
  intro a b a' hi _ h ha
  have hipop : a.popped.Inv := ⟨hi.params, hi.zeb, hi.reader⟩
  have hpop : a.popped.SameLive b.popped := ⟨h.params, h.zeb, h.reader, congrArg List.tail h.sched⟩
  have hev : b.nextEvent = a.nextEvent := by rw [State.nextEvent, State.nextEvent, h.sched]
  rw [step_eq] at ha ⊢
  rw [hev]
  cases hn : a.nextEvent with
  | zeb p => rw [hn] at ha; exact zebStep_sameLive hipop hpop ha
  | give stream bw ph strict =>
    rw [hn] at ha
    cases ha
    exact ⟨_, rfl, ⟨hpop.params, hpop.zeb, rfl, hpop.sched⟩⟩
  | read => rw [hn] at ha; exact readStep_sameLive hpop ha

end Sys2Proof.Machine
end

section
/-! PROOFS. The ports of ZEB (20_memory.md rules R64 to R67): the guards of the micro-operations and the dispatch table
say the same, so the outputs, which are read off the table, follow the guards; a character is offered only when its row is
complete (rule R78 item (b)); and a pixel beat is taken by the instruction it is, or not at all. -/

namespace Sys2Proof.Machine

/-! ### The guards and the dispatch table -/

/-- "CUR[SI] = RC" (R156): the entry is in the row and holds RC. -/
theorem extends_eq_true {z : Zeb} : z.extends = true ↔ z.si < z.rowLen ∧ z.cur.read z.si = some z.rc := by
  unfold Zeb.extends
  cases hr : readRow z.rowLen z.cur z.si with
  | error f =>
    simp only [Bool.false_eq_true, false_iff]
    intro hv
    rw [readRow_eq_ok.mpr hv] at hr
    cases hr
  | ok v =>
    obtain ⟨hl, hv⟩ := readRow_eq_ok.mp hr
    simp [hl, hv]

/-- "Closed" as a condition is its test without a fault (R168). -/
theorem isClosed_eq_true {z : Zeb} : z.isClosed = true ↔ z.closed = .ok true := by
  unfold Zeb.isClosed
  cases z.closed <;> simp

/-- "Row complete" (R168). -/
theorem rowComplete_eq_true {z : Zeb} : z.rowComplete = true ↔ z.phase = .load ∧ z.x = z.width ∧ z.bc = 0 := by
  simp [Zeb.rowComplete, and_assoc]

/-- The row equals the previous row, as the guards of ROWREP and TRAIL spell it (R154, R155). -/
theorem pv_and_eq (z : Zeb) : (z.pv && z.eq) = z.repeats := rfl

/-- `pix_ready` (R64, R122). -/
theorem pixReady_eq_true {z : Zeb} : z.pixReady = true ↔ z.phase = .load ∧ z.bc < 8 ∧ z.x < z.width := by
  simp [Zeb.pixReady, and_assoc]

/-- RESET apart, the guard of a micro-operation holds exactly when its row of the dispatch table does (R182). -/
theorem guardOf_eq_true {p : PortIn} {z : Zeb} {op : MicroOp} (hr : p.rst = false) :
    guardOf p z op = true ↔ Selected p z op := by
  cases op
  case start | samp => simp [guardOf, Selected, hr, Option.isSome_iff_exists, and_assoc]
  case rowrep | trail => simp [guardOf, Selected, hr, rowComplete_eq_true, pv_and_eq, and_assoc]
  case acc => simp [guardOf, Selected, hr, extends_eq_true, and_assoc]
  case lit | rle => simp [guardOf, Selected, hr, isClosed_eq_true, and_assoc]
  all_goals simp [guardOf, Selected, hr, and_assoc]

/-- The dispatch table selects a micro-operation whose row holds: the rows of one PHASE exclude each other (R182). -/
theorem select_of_selected {p : PortIn} {z : Zeb} {op : MicroOp} (h : Selected p z op) :
    select p z = .ok (some op) := by
  unfold select
  cases op
  case reset =>
    have hr : p.rst = true := h
    simp [hr]
  case start =>
    obtain ⟨hr, hp | hp, c, hc⟩ := h <;> simp [hr, hp, hc, whenReady]
  case samp =>
    obtain ⟨hr, hp, hb, hx, i, hi⟩ := h
    simp [hr, hp, selectLoad, hb, hb.ne, hx, hi, whenReady]
  case pad =>
    obtain ⟨hr, hp, hx, h1, h7⟩ := h
    have hb : z.bc ≠ 8 := by omega
    simp [hr, hp, selectLoad, hb, hx, h1, h7]
  case pack =>
    obtain ⟨hr, hp, hb⟩ := h
    simp [hr, hp, selectLoad, hb]
  case rowrep =>
    obtain ⟨hr, hp, hx, hb, hrep, ht⟩ := h
    simp [hr, hp, selectLoad, hb, hx, hrep, ht, whenReady]
  case trail =>
    obtain ⟨hr, hp, hx, hb, hrep⟩ := h
    simp [hr, hp, selectLoad, hb, hx, hrep]
  case acc =>
    obtain ⟨hr, hp, hs, hn | ⟨hl, hv⟩⟩ := h
    · simp [hr, hp, selectScan, hn, hs]
    · have hc : z.closed = .ok false := closed_eq_ok.mpr (.inr (.inr ⟨hs, hl, z.rc, hv, by simp⟩))
      by_cases hn : z.rn = 0 <;> simp [hr, hp, selectScan, hn, hc, hs]
  case lit =>
    obtain ⟨hr, hp, h1, h2, hc, ht⟩ := h
    have hn : z.rn ≠ 0 := by omega
    simp [hr, hp, selectScan, hn, hc, h2, ht, whenReady]
  case rle =>
    obtain ⟨hr, hp, h3, hc⟩ := h
    have hn : z.rn ≠ 0 := by omega
    have h2 : ¬ z.rn ≤ 2 := by omega
    simp [hr, hp, selectScan, hn, hc, h2]
  case eol =>
    obtain ⟨hr, hp, hn, hs, ht⟩ := h
    simp [hr, hp, selectScan, hn, hs, ht, whenReady]
  case cntz =>
    obtain ⟨hr, hp, h400, ht⟩ := h
    simp [hr, hp, selectCnt, h400, ht, whenReady]
  case cnt20 =>
    obtain ⟨hr, hp, h20, h399, ht⟩ := h
    have h400 : ¬ 400 ≤ z.rn := by omega
    simp [hr, hp, selectCnt, h400, h20, ht, whenReady]
  case cnt1 =>
    obtain ⟨hr, hp, h1, h19, ht⟩ := h
    have h400 : ¬ 400 ≤ z.rn := by omega
    have h20 : ¬ 20 ≤ z.rn := by omega
    simp [hr, hp, selectCnt, h400, h20, h1, ht, whenReady]
  case repc =>
    obtain ⟨hr, hp, hn, ht⟩ := h
    simp [hr, hp, selectCnt, hn, ht, whenReady]
  case commit =>
    obtain ⟨hr, hp⟩ := h
    simp [hr, hp]

/-- The dispatch table selects exactly the micro-operation whose row holds (R182). -/
theorem select_eq_some {p : PortIn} {z : Zeb} {op : MicroOp} :
    select p z = .ok (some op) ↔ Selected p z op :=
  ⟨select_some, select_of_selected⟩

/-! ### The token port -/

/-- What ZEB offers is what the micro-operation emits whose row holds for a ready sink (R67). -/
theorem tokOffer_eq_some {z : Zeb} {e : Byte × Bool} :
    z.tokOffer = some e ↔ ∃ op, Selected ⟨false, none, none, true⟩ z op ∧ emission op z = some e := by
  simp only [← select_eq_some]
  unfold Zeb.tokOffer
  split <;> simp [*]

/-- A micro-operation that emits a character is ROWREP, at a complete row, or one of the scan or the count. -/
theorem phase_of_emission {p : PortIn} {z : Zeb} {op : MicroOp} {e : Byte × Bool} (hs : Selected p z op)
    (he : emission op z = some e) :
    (z.phase = .load ∧ z.x = z.width ∧ z.bc = 0) ∨ z.phase = .scan ∨ z.phase = .cnt := by
  cases op
  case rowrep =>
    obtain ⟨_, hp, hx, hb, _⟩ := hs
    exact .inl ⟨hp, hx, hb⟩
  case lit | eol =>
    obtain ⟨_, hp, _⟩ := hs
    exact .inr (.inl hp)
  case cntz | cnt20 | cnt1 | repc =>
    obtain ⟨_, hp, _⟩ := hs
    exact .inr (.inr hp)
  all_goals cases he

/-- Settles O46: each output is read off the dispatch table, whose rows are the guards. -/
theorem outputPortsFollowGuards : Obligations.OutputPortsFollowGuards := by
  intro z
  refine ⟨by simp [Zeb.cmdReady], ?_, fun e => ?_⟩
  · simp [guardOf_eq_true, Selected, pixReady_eq_true]
  · simp only [guardOf_eq_true, tokOffer_eq_some]

/-- Settles O48: a character is offered by a micro-operation of a complete row (`phase_of_emission`), and the invariant
says what a complete row has taken. -/
theorem noEarlyCharacter : Obligations.NoEarlyCharacter := by
  intro s hi hoffer
  obtain ⟨e, he⟩ := Option.isSome_iff_exists.mp hoffer
  obtain ⟨op, hs, hem⟩ := tokOffer_eq_some.mp he
  have hphase := phase_of_emission hs hem
  have hpacked : s.zeb.PackedOk := by
    obtain ⟨hp, hx, hb⟩ | hp | hp := hphase
    · exact packed_of_rowComplete hi.zeb hp hx hb
    · exact hi.zeb.packed (.inl hp)
    · exact hi.zeb.packed (.inr (.inl hp))
  have hframe : s.zeb.FrameOk s.params := hi.zeb.frame fun hidle => by simp [hidle] at hphase
  refine ⟨hpacked.x, hpacked.bc, hpacked.ni, ?_⟩
  rw [hframe.taken, hpacked.x, Nat.succ_mul]

/-! ### The pixel port -/

/-- PIX means `execPix` (R122). -/
theorem exec_pix (i : Byte) (s : State) : exec (.pix i) s = execPix i s := rfl

/-- Settles O12: PIX asks for `pix_ready`, which is the guard of SAMP apart from the beat. -/
theorem pixelNotTaken : Obligations.PixelNotTaken := by
  intro s i hguard
  have hready : ¬ s.zeb.pixReady = true := fun h => hguard (pixReady_eq_true.mp h)
  rw [exec_pix, execPix, if_neg hready]

/-- Settles O25: SAMP is selected, and its effect is the meaning of the beat (`exec_pix_of_selected`). -/
theorem stepRunsPixel : Obligations.StepRunsPixel := by
  intro s p c i hn hr hc hp hb hx hd
  have hs : Selected p s.popped.zeb .samp := ⟨hr, hp, hb, hx, c, hc⟩
  obtain rfl : Instr.pix c = i := Except.ok.inj hd
  obtain ⟨c', hc', he⟩ := exec_pix_of_selected hs
  obtain rfl : c = c' := Option.some.inj (hc.symm.trans hc')
  have hf : fire s.params p s.zeb .samp = .ok (fireSamp c s.zeb) := by simp [fire, hc]
  rw [step_eq, hn, he]
  exact zebStep_of_fire (select_of_selected hs) hf

end Sys2Proof.Machine
end

