-- ==== Sys2Proof/Proofs/Alphabet.lean ====
section
/-! PROOFS. The token alphabet (30_encoding.md rules R90 to R99, R105): the opcode table and `encode` name the same
word for every instruction, so decoding and encoding agree in both directions. -/

namespace Sys2Proof.Machine

/-! ### Decoding and encoding -/

/-- The opcode table lists the words that `encode` gives. -/
theorem encode_instr_of_mem_tokenTable : ∀ r ∈ tokenTable, encode r.instr = ⟨.token, r.code⟩ := by decide

/-- The decoder answers with a row of the table. -/
theorem exists_row_of_decodeToken {c : Byte} {i : Instr} (h : decodeToken c = .ok i) :
    ∃ r ∈ tokenTable, r.code = c ∧ r.instr = i := by
  unfold decodeToken at h
  cases hf : tokenTable.find? (fun r => r.code == c) with
  | none => simp [hf] at h
  | some r => exact ⟨r, List.mem_of_find?_eq_some hf, by simpa using List.find?_some hf, by simpa [hf] using h⟩

/-- A code that decodes is the word of its instruction. -/
theorem encode_of_decodeToken {c : Byte} {i : Instr} (h : decodeToken c = .ok i) : encode i = ⟨.token, c⟩ := by
  obtain ⟨r, hr, rfl, rfl⟩ := exists_row_of_decodeToken h
  exact encode_instr_of_mem_tokenTable r hr

theorem decode_encode (i : Instr) : decode (encode i) = .ok i := by
  cases i <;> rfl

/-- Settles O1: an instruction's word decodes to it (`decode_encode`), and on each port a word that decodes is the word of
its instruction. -/
theorem decodesExactlyEncodings : Obligations.DecodesExactlyEncodings := by
  rintro ⟨port, c⟩ i
  refine ⟨fun h => ?_, fun h => h ▸ decode_encode i⟩
  cases port with
  | token => exact (encode_of_decodeToken h).symm
  | pixel => cases h; rfl

/-- Settles O3: each word is a row of the opcode table, an intensity, or a code that no row has. -/
theorem decodesWrittenWords : Obligations.DecodesWrittenWords := by
  unfold Obligations.DecodesWrittenWords
  decide

/-! ### The class and value of a code -/

/-- The class and value of a stream character's code (R91 to R97), `none` outside the alphabet. -/
def codeKind (c : Byte) : Option TokenKind := (decodeToken c).toOption.map Instr.kind

theorem codeKind_of_ok {c : Byte} {i : Instr} (h : decodeToken c = .ok i) : codeKind c = some i.kind := by
  rw [codeKind, h]; rfl

theorem codeKind_of_error {c : Byte} {e : DecodeError} (h : decodeToken c = .error e) : codeKind c = none := by
  rw [codeKind, h]; rfl

/-- A code with a class is the code of an instruction of that class. -/
theorem exists_of_codeKind {c : Byte} {k : TokenKind} (h : codeKind c = some k) :
    ∃ i, decodeToken c = .ok i ∧ i.kind = k := by
  cases hd : decodeToken c with
  | ok i => exact ⟨i, rfl, Option.some.inj ((codeKind_of_ok hd).symm.trans h)⟩
  | error e => exact absurd ((codeKind_of_error hd).symm.trans h) (by simp)

theorem codeKind_hexChar (v : Nibble) : codeKind (hexChar v) = some (.hex v) := by revert v; decide

theorem codeKind_count1Char {n : Nat} (h1 : 1 ≤ n) (h2 : n ≤ 19) : codeKind (count1Char n) = some (.count .ones n) := by
  have : ∀ n ≤ 19, 1 ≤ n → codeKind (count1Char n) = some (.count .ones n) := by decide
  exact this n h2 h1

theorem codeKind_count20Char {q : Nat} (h1 : 1 ≤ q) (h2 : q ≤ 19) :
    codeKind (count20Char q) = some (.count .twenties (20 * q)) := by
  have : ∀ q ≤ 19, 1 ≤ q → codeKind (count20Char q) = some (.count .twenties (20 * q)) := by decide
  exact this q h2 h1

theorem codeKind_ch400 : codeKind ch400 = some (.count .fourHundreds 400) := by decide
theorem codeKind_chZ : codeKind chZ = some (.fill 0x0) := by decide
theorem codeKind_chF : codeKind chF = some (.fill 0xF) := by decide
theorem codeKind_chRep : codeKind chRep = some .rep := by decide

/-- Settles O4: each character has its class and value, so an instruction of that class decodes from it. -/
theorem charactersReadBack : Obligations.CharactersReadBack :=
  ⟨fun v => exists_of_codeKind (codeKind_hexChar v), fun _ h1 h2 => exists_of_codeKind (codeKind_count1Char h1 h2),
    fun _ h1 h2 => exists_of_codeKind (codeKind_count20Char h1 h2)⟩

/-- The codes of the table lie in the ranges of R99. -/
theorem code_mem_ranges : ∀ r ∈ tokenTable, r.code.toNat = 0x21 ∨ r.code.toNat = 0x2C ∨
    (0x30 ≤ r.code.toNat ∧ r.code.toNat ≤ 0x3A) ∨ (0x41 ≤ r.code.toNat ∧ r.code.toNat ≤ 0x59) ∨
    (0x67 ≤ r.code.toNat ∧ r.code.toNat ≤ 0x7A) := by decide

theorem codeKind_eq_none {c : Byte} (h : ∀ r ∈ tokenTable, r.code ≠ c) : codeKind c = none := by
  cases hd : decodeToken c with
  | ok i =>
    obtain ⟨r, hr, hc, -⟩ := exists_row_of_decodeToken hd
    exact absurd hc (h r hr)
  | error e => exact codeKind_of_error hd

theorem eq_hexChar_of_digit {c : Byte} (h1 : 0x30 ≤ c.toNat) (h2 : c.toNat ≤ 0x39) :
    c = hexChar (BitVec.ofNat 4 (c.toNat - 0x30)) := by
  refine BitVec.eq_of_toNat_eq ?_
  rw [hexChar_toNat, BitVec.toNat_ofNat, if_pos (by omega)]
  omega

theorem eq_hexChar_of_letter {c : Byte} (h1 : 0x41 ≤ c.toNat) (h2 : c.toNat ≤ 0x46) :
    c = hexChar (BitVec.ofNat 4 (c.toNat - 0x37)) := by
  refine BitVec.eq_of_toNat_eq ?_
  rw [hexChar_toNat, BitVec.toNat_ofNat, if_neg (by omega)]
  omega

theorem eq_count1Char {c : Byte} (h : 0x46 ≤ c.toNat) : c = count1Char (c.toNat - 0x46) := by
  refine BitVec.eq_of_toNat_eq ?_
  rw [count1Char, base1, BitVec.toNat_ofNat]
  omega

theorem eq_count20Char {c : Byte} (h : 0x66 ≤ c.toNat) : c = count20Char (c.toNat - 0x66) := by
  refine BitVec.eq_of_toNat_eq ?_
  rw [count20Char, base20, BitVec.toNat_ofNat]
  omega

/-- Settles O2: a code in a range is a character that ZEB computes or one of the four marks, each of its class and value;
in no range stands no code of the table (`code_mem_ranges`). -/
theorem alphabetByRanges : Obligations.AlphabetByRanges := by
  intro c
  have hkind : (match decodeToken c with | .ok i => some i.kind | .error _ => none) = codeKind c := by
    rw [codeKind]
    cases decodeToken c <;> rfl
  refine hkind.trans ?_
  split_ifs with hF hZ hdigit hrep hletter hone htwenty hz
  · rw [BitVec.eq_of_toNat_eq (y := chF) hF]; exact codeKind_chF
  · rw [BitVec.eq_of_toNat_eq (y := chZ) hZ]; exact codeKind_chZ
  · exact (congrArg codeKind (eq_hexChar_of_digit hdigit.1 hdigit.2)).trans (codeKind_hexChar _)
  · rw [BitVec.eq_of_toNat_eq (y := chRep) hrep]; exact codeKind_chRep
  · exact (congrArg codeKind (eq_hexChar_of_letter hletter.1 hletter.2)).trans (codeKind_hexChar _)
  · exact (congrArg codeKind (eq_count1Char (by omega))).trans (codeKind_count1Char (by omega) (by omega))
  · exact (congrArg codeKind (eq_count20Char (by omega))).trans (codeKind_count20Char (by omega) (by omega))
  · rw [BitVec.eq_of_toNat_eq (y := ch400) hz]; exact codeKind_ch400
  · refine codeKind_eq_none fun r hr hc => ?_
    have := hc ▸ code_mem_ranges r hr
    omega

/-! ### A character outside the alphabet -/

/-- A step of the reader that finds a character outside the alphabet refuses the stream (R211). -/
theorem readStep_bad {s : State} {r : Reader} (h : fetchToken s.reader = .bad r) :
    readStep s = .next { s with reader := r } := by
  rw [readStep, h]

/-- Settles O27: a code that is no instruction's word does not decode (`encode_of_decodeToken`), so of what the reader can
find only the refused character is left. -/
theorem badCharacterRefused : Obligations.BadCharacterRefused := by
  intro s c cs hn hv hs hbad
  have hfetch : fetchToken s.popped.reader =
      .bad (({ s.reader with stream := cs }).refuse (.outsideAlphabet c)) := by
    obtain ⟨hv', _⟩ | ⟨_, hs', _⟩ | ⟨c', cs', i, _, hs', hd, _⟩ | ⟨c', cs', _, hs', _, hf⟩ :=
      fetchToken_cases s.reader
    · exact absurd hv hv'
    · cases hs.symm.trans hs'
    · cases hs.symm.trans hs'
      have hword := encode_of_decodeToken hd
      exact absurd (congrArg PortWord.code hword) (hbad i (congrArg PortWord.port hword))
    · cases hs.symm.trans hs'
      exact hf
  rw [step_eq, hn]
  exact readStep_bad hfetch

end Sys2Proof.Machine
end

