-- ==== Sys2Proof/Proofs/Grammar.lean ====
section
/-! PROOFS. The grammar of the stream (30_encoding.md rules R98 and R106). A string of characters moves the checker of
one row from one state to another (`RowScan.Reads`): the count token, the maximal run, the items of a row, its marker and
its end in turn, and then the rows of a Bitmap. -/

namespace Sys2Proof

/-! ### What a string of characters does to the checker of a row -/

/-- The characters of a sequence of instructions. -/
def codes (cs : List Instr) : List Byte := cs.map (fun i => (encode i).code)

theorem codes_append (cs ds : List Instr) : codes (cs ++ ds) = codes cs ++ codes ds := List.map_append

/-- The characters `s` are accepted in the state `r` of the checker and bring it to `r'`, whatever follows them. -/
def RowScan.Reads (r r' : RowScan) (s : List Byte) : Prop :=
  ∃ cs, s = codes cs ∧ ∀ L rest, rowTailOk L r (cs ++ rest) = rowTailOk L r' rest

theorem RowScan.Reads.nil (r : RowScan) : r.Reads r [] := ⟨[], rfl, fun _ _ => rfl⟩

theorem RowScan.Reads.append {r r' r'' : RowScan} {s t : List Byte} (hs : r.Reads r' s) (ht : r'.Reads r'' t) :
    r.Reads r'' (s ++ t) := by
  obtain ⟨cs, rfl, hcs⟩ := hs
  obtain ⟨ds, rfl, hds⟩ := ht
  exact ⟨cs ++ ds, (codes_append cs ds).symm, fun L rest => by rw [List.append_assoc, hcs, hds]⟩

/-- The string is the characters of a sequence that the checker accepts as the rest of a row from `r`. -/
def RowScan.Accepts (L : Nat) (r : RowScan) (s : List Byte) : Prop := ∃ cs, s = codes cs ∧ rowTailOk L r cs = true

theorem RowScan.Reads.accepts {L : Nat} {r r' : RowScan} {s t : List Byte} (hs : r.Reads r' s) (ht : r'.Accepts L t) :
    r.Accepts L (s ++ t) := by
  obtain ⟨cs, rfl, hcs⟩ := hs
  obtain ⟨ds, rfl, hds⟩ := ht
  exact ⟨cs ++ ds, (codes_append cs ds).symm, (hcs L ds).trans hds⟩

theorem RowScan.Accepts.nil {L : Nat} {r : RowScan} (h : r.endOk L = true) : r.Accepts L [] := ⟨[], rfl, h⟩

/-- A row that the checker accepts from its start is not `:` alone. -/
theorem RowScan.Accepts.rowOk {L : Nat} {s : List Byte} (h : RowScan.init.Accepts L s) (first : Bool) :
    ∃ cs, s = codes cs ∧ rowOk L first cs = true := by
  obtain ⟨cs, hs, hcs⟩ := h
  have hne : cs ≠ [.rowrep] := by rintro rfl; exact Bool.false_ne_true hcs
  exact ⟨cs, hs, (if_neg hne).trans hcs⟩

end Sys2Proof

namespace Sys2Proof.Machine

/-! ### The runs of a string -/

/-- A string begins with a run that what follows does not continue. -/
theorem exists_leading_run {α : Type} (c : α) (s : List α) :
    ∃ n t, c :: s = List.replicate (n + 1) c ++ t ∧ t.head? ≠ some c := by
  induction s with
  | nil => exact ⟨0, [], rfl, by simp⟩
  | cons d s ih =>
    by_cases hd : d = c
    · subst hd
      obtain ⟨n, t, hs, ht⟩ := ih
      exact ⟨n + 1, t, by rw [hs, List.replicate_succ (n := n + 1), List.cons_append], ht⟩
    · exact ⟨0, d :: s, rfl, by simpa using hd⟩

/-- Induction on the maximal runs of a string (00_scope.md rule R14). -/
theorem run_induction {α : Type} {motive : List α → Prop} (nil : motive [])
    (run : ∀ c n t, t.head? ≠ some c → motive t → motive (List.replicate (n + 1) c ++ t)) (s : List α) : motive s := by
  match s with
  | [] => exact nil
  | c :: s =>
    obtain ⟨n, t, hs, ht⟩ := exists_leading_run c s
    have hlen : t.length < s.length + 1 := by
      have := congrArg List.length hs
      simp only [List.length_cons, List.length_append, List.length_replicate] at this
      omega
    exact hs ▸ run c n t ht (run_induction nil run t)
termination_by s.length

theorem getLast?_run_append {α : Type} (c : α) (n : Nat) (t : List α) :
    (List.replicate (n + 1) c ++ t).getLast? = t.getLast?.or (some c) := by
  simp [List.getLast?_append, List.getLast?_replicate]

/-- The trailing run of a string that ends in `c`. -/
theorem exists_trailing_run {α : Type} {c : α} {s : List α} (h : s.getLast? = some c) :
    ∃ m t, s = t ++ List.replicate (m + 1) c ∧ t.getLast? ≠ some c := by
  obtain ⟨s', hs'⟩ := List.head?_eq_some_iff.mp ((List.head?_reverse (l := s)).trans h)
  obtain ⟨m, t, ht, hne⟩ := exists_leading_run c s'
  refine ⟨m, t.reverse, ?_, by rwa [List.getLast?_reverse]⟩
  rw [← s.reverse_reverse, hs', ht, List.reverse_append, List.reverse_replicate]

/-- A character that ends no run of the string before it is a run of its own (R148). -/
theorem rle_concat {c : Byte} {s : List Byte} (h : s.getLast? ≠ some c) : rle (s ++ [c]) = rle s ++ [c] := by
  induction s using run_induction with
  | nil => exact rle_singleton c
  | run d n t ht ih =>
    rw [getLast?_run_append] at h
    have htc : t.getLast? ≠ some c := fun htc => h (by rw [htc]; rfl)
    have hhead : (t ++ [c]).head? ≠ some d := by
      cases t with
      | nil => simpa [eq_comm] using h
      | cons e t => exact ht
    rw [List.append_assoc, rle_replicate_append hhead (by omega), rle_replicate_append ht (by omega), ih htc,
      List.append_assoc]

/-! ### The characters of a row -/

/-- A code with a class is one character of it. -/
theorem exists_codes_of_codeKind {c : Byte} {k : TokenKind} (h : codeKind c = some k) :
    ∃ i : Instr, i.kind = k ∧ [c] = codes [i] := by
  obtain ⟨i, hd, hk⟩ := exists_of_codeKind h
  exact ⟨i, hk, by simp [codes, encode_of_decodeToken hd]⟩

theorem reads_hexChar {r : RowScan} {d : Nibble} (hc : r.countOk = true) (hr : r.runOk d = true) :
    r.Reads (r.item d) [hexChar d] := by
  obtain ⟨i, hk, hs⟩ := exists_codes_of_codeKind (codeKind_hexChar d)
  exact ⟨[i], hs, fun L rest => by simp [rowTailOk, hk, hc, hr]⟩

theorem reads_count {r : RowScan} {b : Byte} {c : CountStage} {v : Nat} (hb : codeKind b = some (.count c v))
    (ha : r.stage.allows c = true) : r.Reads { r with cnt := r.cnt + v, stage := c } [b] := by
  obtain ⟨i, hk, hs⟩ := exists_codes_of_codeKind hb
  exact ⟨[i], hs, fun L rest => by simp [rowTailOk, hk, ha]⟩

/-! ### The count token (R149, R106 items (b) and (c)) -/

section
variable (len : Nat) (last : Option Nibble) (k : Nat)

/-- Any number of `z`. -/
theorem reads_ch400s (n cnt : Nat) {p : CountStage} (hp : p = .start ∨ p = .fourHundreds) :
    ∃ p', (p' = .start ∨ p' = .fourHundreds) ∧
      RowScan.Reads ⟨len, cnt, p, last, k⟩ ⟨len, cnt + 400 * n, p', last, k⟩ (List.replicate n ch400) := by
  induction n generalizing cnt p with
  | zero => exact ⟨p, hp, .nil _⟩
  | succ n ih =>
    obtain ⟨p', hp', hr⟩ := ih (cnt + 400) (.inr rfl)
    have hz := reads_count (r := ⟨len, cnt, p, last, k⟩) codeKind_ch400 (by rcases hp with rfl | rfl <;> rfl)
    have hsum : cnt + 400 * (n + 1) = cnt + 400 + 400 * n := by omega
    exact ⟨p', hp', hsum ▸ hz.append hr⟩

/-- At most one CNT20 character, after any number of `z`. -/
theorem reads_c20 {q : Nat} (hq : q ≤ 19) (cnt : Nat) {p : CountStage} (hp : p = .start ∨ p = .fourHundreds) :
    ∃ p', p' ≠ .ones ∧ RowScan.Reads ⟨len, cnt, p, last, k⟩ ⟨len, cnt + 20 * q, p', last, k⟩ (c20 q) := by
  unfold c20
  split
  case isTrue h0 => exact ⟨p, by rcases hp with rfl | rfl <;> simp, h0 ▸ .nil _⟩
  case isFalse h0 =>
    exact ⟨.twenties, by simp, reads_count (r := ⟨len, cnt, p, last, k⟩) (codeKind_count20Char (by omega) hq)
      (by rcases hp with rfl | rfl <;> rfl)⟩

/-- At most one CNT1 character, after anything but a CNT1 character. -/
theorem reads_c1 {m : Nat} (hm : m ≤ 19) (cnt : Nat) {p : CountStage} (hp : p ≠ .ones) :
    ∃ p', RowScan.Reads ⟨len, cnt, p, last, k⟩ ⟨len, cnt + m, p', last, k⟩ (c1 m) := by
  unfold c1
  split
  case isTrue h0 => exact ⟨p, h0 ▸ .nil _⟩
  case isFalse h0 =>
    have hallow : CountStage.allows p .ones = true := by simpa [CountStage.allows] using hp
    exact ⟨.ones, reads_count (r := ⟨len, cnt, p, last, k⟩) (codeKind_count1Char (by omega) hm) hallow⟩

/-- The count token leaves the count it spells pending. -/
theorem reads_countToken (n : Nat) :
    ∃ p, RowScan.Reads ⟨len, 0, .start, last, k⟩ ⟨len, n, p, last, k⟩ (countToken n) := by
  obtain ⟨p, hp, h400⟩ := reads_ch400s len last k (n / 400) 0 (.inl rfl)
  obtain ⟨p', hp', h20⟩ := reads_c20 len last k (q := n % 400 / 20) (by omega) (0 + 400 * (n / 400)) hp
  obtain ⟨p'', h1⟩ := reads_c1 len last k (m := n % 20) (by omega) (0 + 400 * (n / 400) + 20 * (n % 400 / 20)) hp'
  have hsum : 0 + 400 * (n / 400) + 20 * (n % 400 / 20) + n % 20 = n := by omega
  rw [hsum] at h1
  exact ⟨p'', (h400.append h20).append h1⟩

/-! ### Runs and items (R148, R106 items (a) and (g)) -/

theorem runToken_of_three_le {n : Nat} (c : Byte) (h : 3 ≤ n) : runToken (c, n) = countToken n ++ [c] := if_pos h

theorem runToken_of_lt_three {n : Nat} (c : Byte) (h : n < 3) : runToken (c, n) = List.replicate n c :=
  if_neg (Nat.not_le.mpr h)

/-- A maximal run is accepted: it differs from the item before it, and it is counted from 3 on. -/
theorem reads_runToken {d : Nibble} (hd : last ≠ some d) {n : Nat} (hn : 1 ≤ n) :
    ∃ k', RowScan.Reads ⟨len, 0, .start, last, k⟩ ⟨len + n, 0, .start, some d, k'⟩ (runToken (hexChar d, n)) := by
  have hrun (cnt : Nat) (p : CountStage) : RowScan.runOk ⟨len, cnt, p, last, k⟩ d = true := by simp [RowScan.runOk, hd]
  by_cases h3 : 3 ≤ n
  · obtain ⟨p, hcount⟩ := reads_countToken len last k n
    have hhex := reads_hexChar (r := ⟨len, n, p, last, k⟩) (by simp [RowScan.countOk, h3]) (hrun n p)
    have hitem : RowScan.item ⟨len, n, p, last, k⟩ d = ⟨len + n, 0, .start, some d, 0⟩ :=
      if_neg (Nat.ne_of_gt hn)
    rw [hitem] at hhex
    rw [runToken_of_three_le _ h3]
    exact ⟨0, hcount.append hhex⟩
  · have hone : RowScan.Reads ⟨len, 0, .start, last, k⟩ ⟨len + 1, 0, .start, some d, 1⟩ [hexChar d] := by
      simpa [RowScan.item, hd] using reads_hexChar rfl (hrun 0 .start)
    have htwo : RowScan.Reads ⟨len + 1, 0, .start, some d, 1⟩ ⟨len + 2, 0, .start, some d, 2⟩ [hexChar d] := by
      simpa [RowScan.item] using
        reads_hexChar (r := ⟨len + 1, 0, .start, some d, 1⟩) (d := d) rfl (by simp [RowScan.runOk])
    rw [runToken_of_lt_three _ (Nat.lt_of_not_le h3)]
    obtain rfl | rfl : n = 1 ∨ n = 2 := by omega
    · exact ⟨1, hone⟩
    · exact ⟨2, hone.append htwo⟩

/-- The items of a row without its trailing run: all its characters are spelled, and the last one is the last item's. -/
theorem reads_rle (s : List Nibble) (h : ∀ d ∈ s.head?, last ≠ some d) :
    ∃ k', RowScan.Reads ⟨len, 0, .start, last, k⟩ ⟨len + s.length, 0, .start, s.getLast?.or last, k'⟩
      (rle (s.map hexChar)) := by
  induction s using run_induction generalizing len last k with
  | nil => exact ⟨k, .nil _⟩
  | run d n t ht ih =>
    obtain ⟨k₁, hrun⟩ := reads_runToken len last k (h d (by simp [List.replicate_succ])) (Nat.le_add_left 1 n)
    obtain ⟨k₂, hrest⟩ := ih (len + (n + 1)) (some d) k₁ (fun e he hde => ht (hde ▸ he))
    have hhead : (t.map hexChar).head? ≠ some (hexChar d) := by
      rw [List.head?_map]
      simpa [hexChar_inj] using ht
    have hlen : len + (List.replicate (n + 1) d ++ t).length = len + (n + 1) + t.length := by simp; omega
    rw [List.map_append, List.map_replicate, rle_replicate_append hhead (Nat.le_add_left 1 n), hlen,
      getLast?_run_append, Option.or_assoc, Option.some_or]
    exact ⟨k₂, hrun.append hrest⟩

end

/-! ### One row -/

theorem accepts_fill {L : Nat} {r : RowScan} {c : Byte} {d : Nibble} (hc : codeKind c = some (.fill d))
    (h : r.fillOk L d = true) : r.Accepts L [c] := by
  obtain ⟨i, hk, hs⟩ := exists_codes_of_codeKind hc
  exact ⟨[i], hs, by simp [rowTailOk, hk, h]⟩

theorem getLast?_map_hexChar_ne {s : List Nibble} {d : Nibble} (h : s.getLast? ≠ some d) :
    (s.map hexChar).getLast? ≠ some (hexChar d) := by
  rw [List.getLast?_map]
  simpa [hexChar_inj] using h

/-- A row whose trailing run of `d` is replaced by its marker: the run is not empty and it is maximal (R106 items (d) and
(f)). -/
theorem accepts_marked {s : List Nibble} {d : Nibble} {c : Byte} (hs : s.getLast? ≠ some d)
    (hc : codeKind c = some (.fill d)) (hne : ∀ v, hexChar v ≠ c) (m : Nat) :
    RowScan.init.Accepts (s ++ List.replicate (m + 1) d).length (rle (s.map hexChar ++ [c])) := by
  obtain ⟨k, hitems⟩ := reads_rle 0 none 0 s (by simp)
  have hlast : (s.map hexChar).getLast? ≠ some c := fun h => by
    obtain ⟨v, _, hv⟩ := List.mem_map.mp (List.mem_of_getLast? h)
    exact hne v hv
  rw [rle_concat hlast]
  refine hitems.accepts (accepts_fill hc ?_)
  simpa [RowScan.fillOk] using hs

/-- A row that ends in another character has no marker (R106 item (h)). -/
theorem accepts_unmarked {s : List Nibble} (h0 : s.getLast? ≠ some 0x0) (hF : s.getLast? ≠ some 0xF) :
    RowScan.init.Accepts s.length (rle (s.map hexChar)) := by
  obtain ⟨k, hitems⟩ := reads_rle 0 none 0 s (by simp)
  refine List.append_nil (rle (s.map hexChar)) ▸ hitems.accepts (.nil ?_)
  simpa [RowScan.endOk] using ⟨h0, hF⟩

/-- What steps 2 and 3 write for a row (R147, R148) is accepted as the row. -/
theorem accepts_rle_trail (s : List Nibble) : RowScan.init.Accepts s.length (rle (trail (s.map hexChar))) := by
  by_cases h0 : s.getLast? = some 0x0
  · obtain ⟨m, t, rfl, ht⟩ := exists_trailing_run h0
    rw [List.map_append, List.map_replicate, trail_zero (getLast?_map_hexChar_ne ht) (Nat.le_add_left 1 m)]
    exact accepts_marked ht codeKind_chZ hexChar_ne_chZ m
  by_cases hF : s.getLast? = some 0xF
  · obtain ⟨m, t, rfl, ht⟩ := exists_trailing_run hF
    rw [List.map_append, List.map_replicate, trail_eff (getLast?_map_hexChar_ne ht) (Nat.le_add_left 1 m)]
    exact accepts_marked ht codeKind_chF hexChar_ne_chF m
  rw [trail_other (getLast?_map_hexChar_ne h0) (getLast?_map_hexChar_ne hF)]
  exact accepts_unmarked h0 hF

/-- The compressed form of a row is a row of the grammar, `:` only where there is a row before it (R146, R106 item (e)). -/
theorem compress_rowOk {L : Nat} {bits : List Bool} (hL : (packNib bits).length = L) (s : Option (List Byte)) :
    ∃ cs, compress (pack bits) s = codes cs ∧ rowOk L s.isNone cs = true := by
  unfold compress
  split
  case isTrue hs => exact ⟨[.rowrep], rfl, by simp [rowOk, hs]⟩
  case isFalse => exact (hL ▸ accepts_rle_trail (packNib bits)).rowOk _

/-! ### The rows of a frame -/

theorem packNib_length (bits : List Bool) : (packNib bits).length = 2 * ((bits.length + 7) / 8) := by
  simp [packNib, ceil8]

/-- The stream of a Bitmap is one row of the grammar after the other, the first one without a row before it exactly when
the compressor's state is empty (R180). -/
theorem encodeBitmap_rowsOk {L : Nat} (rows : List (List Bool)) (hL : ∀ bits ∈ rows, (packNib bits).length = L)
    (s : Option (List Byte)) :
    ∃ css : List (List Instr), css.length = rows.length ∧ rowsOk L s.isNone css = true ∧
      encodeBitmap s rows = codes css.flatten := by
  induction rows generalizing s with
  | nil => exact ⟨[], rfl, rfl, rfl⟩
  | cons bits rows ih =>
    obtain ⟨hbits, hrows⟩ := List.forall_mem_cons.mp hL
    obtain ⟨cs, hcs, hok⟩ := compress_rowOk hbits s
    obtain ⟨css, hlen, hoks, hcss⟩ := ih hrows (some (pack bits))
    refine ⟨cs :: css, by simp [hlen], ?_, ?_⟩
    · rw [rowsOk, hok]
      exact hoks
    · rw [encodeBitmap, hcs, hcss, List.flatten_cons, codes_append]

/-- Settles O10: every row of the Bitmap has the grid's width, and the compressed rows are rows of the grammar
(`encodeBitmap_rowsOk`). -/
theorem streamsFollowGrammar : Obligations.StreamsFollowGrammar := by
  intro w h g _
  have hL : ∀ bits ∈ sample w h g, (packNib bits).length = 2 * ((w + 7) / 8) := by
    intro bits hb
    obtain ⟨y, _, rfl⟩ := List.mem_map.mp hb
    rw [packNib_length, rowBits_length]
  obtain ⟨css, hlen, hok, hcodes⟩ := encodeBitmap_rowsOk (sample w h g) hL none
  exact ⟨css, hlen.trans (sample_length w h g), hok, (encodeBitmap_sample w g h).symm.trans hcodes⟩

end Sys2Proof.Machine
end

