-- ==== Sys2Proof/Proofs/Sampler.lean ====
section
/-! PROOFS. The Bit Sampler (40_thresholder.md rules R120 and R122): a pixel beat that is taken. -/

namespace Sys2Proof.Machine

/-- The bit thr(i) is 1 exactly for the intensities below 127 (R120). -/
theorem thr_eq_true {i : Byte} : thr i = true ↔ i.toNat < 127 := decide_eq_true_iff

/-- `SR <- {SR[6:0], b}` with the bit that the intensity gives (R120, R122). -/
theorem shiftIn_thr (sr i : Byte) : shiftIn sr (thr i) = (sr <<< 1) ||| (if i.toNat < 127 then 1 else 0) := by
  simp only [shiftIn, thr_eq_true]

/-- A beat offered while `pix_ready` = 1 is taken by SAMP (R66, R122). -/
theorem exec_pix_of_ready {s : State} (h : s.zeb.pixReady = true) (i : Byte) :
    exec (.pix i) s = .next { s with zeb := fireSamp i s.zeb } := by
  rw [exec_pix, execPix, if_pos h]

/-- Settles O11: the guard is `pix_ready`, so SAMP takes the beat; the pixel history grows by the intensity. -/
theorem pixelTaken : Obligations.PixelTaken := by
  intro s i hp hb hx
  have hready : s.zeb.pixReady = true := pixReady_eq_true.mpr ⟨hp, hb, hx⟩
  refine ⟨s.zeb.taken ++ [i], ?_⟩
  rw [exec_pix_of_ready hready, fireSamp, shiftIn_thr]

end Sys2Proof.Machine
end

