-- ==== Sys2Proof/Proofs/Packer.lean ====
section
/-! PROOFS. The Row Packer (41_packer.md rules R133 to R135): the bits of a packed row, what a shift into SR and the nibble
mux do to single bits, and the steps in which PAD and PACK fire. -/

namespace Sys2Proof.Machine

/-! ### The bits of a packed row -/

/-- Bit `i` from the left of the nibble at position `a` is bit `a + i` of the bit-string (R131, R133). -/
theorem getMsbD_nibbleAt (bits : List Bool) (a : Nat) {i : Nat} (hi : i < 4) :
    (nibbleAt bits a).getMsbD i = bits.getD (a + i) false := by
  have hbits : ∀ b0 b1 b2 b3 : Bool, ∀ i < 4,
      (BitVec.ofNat 4 (b0.toNat * 8 + b1.toNat * 4 + b2.toNat * 2 + b3.toNat)).getMsbD i =
        [b0, b1, b2, b3].getD i false := by decide
  rw [nibbleAt, hbits _ _ _ _ i hi]
  obtain rfl | rfl | rfl | rfl : i = 0 ∨ i = 1 ∨ i = 2 ∨ i = 3 := by omega
  all_goals rfl

theorem getD_packNib {bits : List Bool} {k : Nat} (hk : k < 2 * ((bits.length + 7) / 8)) :
    (packNib bits).getD k 0 = nibbleAt bits (4 * k) := by
  have hk : k < 2 * ceil8 bits.length := hk
  simp [packNib, hk]

/-- Settles O5: the nibbles are those at the multiples of 4, bit by bit (`getMsbD_nibbleAt`). -/
theorem packedRowBits : Obligations.PackedRowBits := by
  intro bits
  refine ⟨packNib_length bits, rfl, fun k i hk hi => ?_⟩
  rw [getD_packNib hk, getMsbD_nibbleAt bits (4 * k) hi]

/-! ### Bits of SR -/

/-- A padding bit leaves the shift as it is (R134). -/
theorem shiftIn_false (sr : Byte) : shiftIn sr false = sr <<< 1 := by simp [shiftIn]

theorem getLsbD_shiftIn_zero (sr : Byte) (b : Bool) : (shiftIn sr b).getLsbD 0 = b := by
  cases b <;> simp [shiftIn]

theorem getLsbD_shiftIn_succ (sr : Byte) (b : Bool) {n : Nat} (hn : n + 1 < 8) :
    (shiftIn sr b).getLsbD (n + 1) = sr.getLsbD n := by
  have hlt : n < 8 := by omega
  cases b <;> simp [shiftIn, hn, BitVec.getLsbD_eq_getElem hlt]

/-- The nibble mux passes the high half of SR for an even NI and the low half for an odd one (R135). -/
theorem getMsbD_nibbleMux (sr : Byte) (ni : Nat) {i : Nat} (hi : i < 4) :
    (nibbleMux sr ni).getMsbD i = sr.getLsbD (7 - (4 * (ni % 2) + i)) := by
  have hmsb (v : Nibble) : v.getMsbD i = v.getLsbD (3 - i) := by simp [BitVec.getMsbD, hi]
  rw [nibbleMux, hmsb]
  split
  case isTrue heven =>
    have hpos : 7 - (4 * (ni % 2) + i) = 4 + (3 - i) := by omega
    rw [hpos, BitVec.getLsbD_extractLsb', decide_eq_true (by omega), Bool.true_and]
  case isFalse hodd =>
    have hpos : 7 - (4 * (ni % 2) + i) = 0 + (3 - i) := by omega
    rw [hpos, BitVec.getLsbD_extractLsb', decide_eq_true (by omega), Bool.true_and]

/-! ### PAD and PACK -/

/-- A step with an event of ZEB whose selected micro-operation answers. -/
theorem step_of_selected {s : State} {p : PortIn} {op : MicroOp} {z : Zeb} (hn : s.nextEvent = .zeb p)
    (hs : Selected p s.zeb op) (hf : fire s.params p s.zeb op = .ok z) : step s = .next { s.popped with zeb := z } := by
  rw [step_eq, hn]
  exact zebStep_of_fire (s := s.popped) (select_of_selected hs) hf

/-- Settles O32: PAD is selected, and its shift takes in a 0. -/
theorem padFires : Obligations.PadFires := by
  intro s p hn hr hp hx h1 h7
  rw [step_of_selected (op := .pad) hn ⟨hr, hp, hx, h1, h7⟩ rfl, firePad, shiftIn_false]

/-- The comparator answers where PREV has the entry that it reads (R152). -/
theorem eqNext_of_read {z : Zeb} (v : Nibble) (hni : z.ni < z.rowLen)
    (hprev : z.eq = true → (z.prev.read z.ni).isSome = true) :
    eqNext z v = .ok (z.eq && z.prev.read z.ni == some v) := by
  rw [eqNext_eq_ok]
  cases heq : z.eq with
  | false => exact .inl ⟨rfl, rfl⟩
  | true =>
    obtain ⟨u, hu⟩ := Option.isSome_iff_exists.mp (hprev heq)
    exact .inr ⟨rfl, hni, u, hu, by simp [hu]⟩

/-- Settles O33: PACK is selected, and it answers because the comparator does (`eqNext_of_read`). -/
theorem packFires : Obligations.PackFires := by
  rintro s p v hn hr hp hb hni hprev rfl
  have heq := eqNext_of_read (nibbleMux s.zeb.sr s.zeb.ni) hni hprev
  exact ⟨_, read_write s.zeb.cur s.zeb.ni _,
    step_of_selected (op := .pack) hn ⟨hr, hp, hb⟩ (firePack_eq_ok.mpr ⟨hni, _, heq, rfl⟩)⟩

end Sys2Proof.Machine
end

