-- ==== Sys2Proof/Proofs/Trace.lean ====
section
/-! PROOFS. What the row buffers, SR and the histories hold during a frame (41_packer.md rule R137; 42_compressor.md rules
R164, R165; 43_sequencer.md rule R190): each micro-operation of ZEB keeps it. The bits of a row go from the pixel history
through SR into CUR; a packed row goes out as its compressed form, of which each character emitted is the first of what
the scan has still to emit. -/

namespace Sys2Proof.Machine

/-! ### The pixels taken -/

/-- A row of which all pixels have been taken does not change with the pixels after it. -/
theorem rowBits_rasterGrid_append {w y : Nat} {px : List Byte} (h : (y + 1) * w ≤ px.length) (more : List Byte) :
    rowBits w (rasterGrid w (px ++ more)) y = rowBits w (rasterGrid w px) y := by
  refine List.map_congr_left fun x hx => ?_
  have hx : x < w := List.mem_range.mp hx
  rw [Nat.succ_mul] at h
  rw [rasterGrid, rasterGrid, List.getD_append _ _ _ _ (by omega)]

theorem rowState_rasterGrid_append {w y : Nat} {px : List Byte} (h : y * w ≤ px.length) (more : List Byte) :
    rowState w (rasterGrid w (px ++ more)) y = rowState w (rasterGrid w px) y := by
  cases y with
  | zero => rfl
  | succ y => exact congrArg (fun bits => some (pack bits)) (rowBits_rasterGrid_append h more)

/-- Nor does the stream of the rows of which all pixels have been taken. -/
theorem encodeRows_rasterGrid_append {w h : Nat} {px : List Byte} (hlen : h * w ≤ px.length) (more : List Byte) :
    encodeRows w (rasterGrid w (px ++ more)) h = encodeRows w (rasterGrid w px) h := by
  induction h with
  | zero => rfl
  | succ h ih =>
    have hle : h * w ≤ px.length := (Nat.mul_le_mul_right w (Nat.le_succ h)).trans hlen
    rw [encodeRows_succ, encodeRows_succ, packedRow, packedRow, rowBits_rasterGrid_append hlen,
      rowState_rasterGrid_append hle, ih hle]

/-- The row being sampled is the row of the grid once its last pixel has been taken. -/
theorem rowSoFar_eq_rowBits {z : Zeb} (h : z.taken.length = z.y * z.width + z.width) :
    z.rowSoFar = rowBits z.width z.grid z.y := by
  refine List.ext_getElem ?_ fun x h1 h2 => ?_
  · simp [Zeb.rowSoFar, h]
  · have hx : x < z.width := by simpa using h2
    have hlt : z.y * z.width + x < z.taken.length := by omega
    simp [Zeb.rowSoFar, rowBits, Zeb.grid, rasterGrid, hlt]

theorem rowSoFar_length {z : Zeb} (h : z.taken.length = z.y * z.width + z.x) : z.rowSoFar.length = z.x := by
  simp [Zeb.rowSoFar, h]

theorem rowSoFar_fireSamp {z : Zeb} (h : z.y * z.width ≤ z.taken.length) (i : Byte) :
    (fireSamp i z).rowSoFar = z.rowSoFar ++ [thr i] := by
  simp [Zeb.rowSoFar, List.drop_append_of_le_length h]

/-- A nibble of which all bits are there does not change with the bits after it. -/
theorem nibbleAt_append {bits : List Bool} {a : Nat} (h : a + 4 ≤ bits.length) (more : List Bool) :
    nibbleAt (bits ++ more) a = nibbleAt bits a := by
  refine BitVec.eq_of_getMsbD_eq fun i hi => ?_
  rw [getMsbD_nibbleAt _ _ hi, getMsbD_nibbleAt _ _ hi, List.getD_append _ _ _ _ (by omega)]

/-! ### The shift register -/

/-- SR holds the last BC bits of `f`, and the bit that is shifted in is the next one. -/
theorem shiftIn_holds {sr : Byte} {bc : Nat} {b : Bool} {f : Nat → Bool} (hbc : bc < 8)
    (h : ∀ j, j < bc → sr.getLsbD (bc - 1 - j) = f j) (hb : b = f bc) (j : Nat) (hj : j < bc + 1) :
    (shiftIn sr b).getLsbD (bc + 1 - 1 - j) = f j := by
  obtain hj | rfl := Nat.lt_succ_iff_lt_or_eq.mp hj
  · have hpos : bc + 1 - 1 - j = bc - 1 - j + 1 := by omega
    rw [hpos, getLsbD_shiftIn_succ _ _ (by omega), h j hj]
  · rw [Nat.add_sub_cancel, Nat.sub_self, getLsbD_shiftIn_zero, hb]

/-- A full SR passes the next nibble of the row (R135, R137). -/
theorem nibbleMux_eq_nibbleAt {sr : Byte} {ni : Nat} {bits : List Bool}
    (h : ∀ j, j < 8 → sr.getLsbD (7 - j) = bits.getD (8 * (ni / 2) + j) false) :
    nibbleMux sr ni = nibbleAt bits (4 * ni) := by
  refine BitVec.eq_of_getMsbD_eq fun i hi => ?_
  have hpos : 8 * (ni / 2) + (4 * (ni % 2) + i) = 4 * ni + i := by omega
  rw [getMsbD_nibbleMux _ _ hi, getMsbD_nibbleAt _ _ hi, h _ (by omega), hpos]

/-! ### The marks of `tok_last` -/

/-- Exactly the last character of the frame is marked (R164): the two clauses of the trace. -/
structure Zeb.Marked (z : Zeb) : Prop where
  ended : z.streamEnded → ∃ front c, z.out = front ++ [(c, true)] ∧ ∀ e ∈ front, e.2 = false
  notEnded : ¬ z.streamEnded → ∀ e ∈ z.out, e.2 = false

theorem Zeb.Trace.marked {z : Zeb} (h : z.Trace) : z.Marked := ⟨h.lastOne, h.lastNone⟩

/-- After the last character nothing is emitted, and a character ends the stream exactly when it is marked. -/
theorem Zeb.Marked.emit {z t : Zeb} {e : Option (Byte × Bool)} (h : z.Marked) (hout : t.out = z.out ++ e.toList)
    (hnone : z.streamEnded → e = none) (hlast : t.streamEnded ↔ z.streamEnded ∨ ∃ c, e = some (c, true)) :
    t.Marked := by
  cases e with
  | none =>
    have hout : t.out = z.out := by simpa using hout
    have hlast : t.streamEnded ↔ z.streamEnded := by simpa using hlast
    exact ⟨fun ht => hout ▸ h.ended (hlast.mp ht), fun ht => hout ▸ h.notEnded (mt hlast.mpr ht)⟩
  | some e =>
    obtain ⟨c, b⟩ := e
    have hz : ¬ z.streamEnded := fun hz => by simpa using hnone hz
    have hlast : t.streamEnded ↔ b = true := by simpa [hz] using hlast
    have hfront := h.notEnded hz
    refine ⟨fun ht => ⟨z.out, c, by simpa [hlast.mp ht] using hout, hfront⟩, fun ht => ?_⟩
    rw [hout, List.forall_mem_append]
    exact ⟨hfront, by simpa using mt hlast.mpr ht⟩

theorem not_streamEnded_of_load {z : Zeb} (hp : z.phase = .load) : ¬ z.streamEnded := by
  simp [Zeb.streamEnded, hp]

theorem not_streamEnded_of_cnt {z : Zeb} (hp : z.phase = .cnt) : ¬ z.streamEnded := by
  simp [Zeb.streamEnded, hp]

theorem streamEnded_of_eor {z : Zeb} (hp : z.phase = .eor) : z.streamEnded ↔ z.lastRow = true := by
  simp [Zeb.streamEnded, hp]

theorem streamEnded_of_scan {z : Zeb} (hp : z.phase = .scan) :
    z.streamEnded ↔ z.lastRow = true ∧ z.rn = 0 ∧ z.scanEnds = true := by
  simp [Zeb.streamEnded, hp]

theorem not_streamEnded_of_run {z : Zeb} (hp : z.phase = .scan) (hn : z.rn ≠ 0) : ¬ z.streamEnded := by
  simp [streamEnded_of_scan hp, hn]

/-! ### A state of LOAD -/

/-- The trace of a state of LOAD. -/
theorem Zeb.Trace.of_load {z : Zeb} (hp : z.phase = .load)
    (prev : z.pv = true → ∀ k, k < z.rowLen →
      z.prev.read k = some (nibbleAt (rowBits z.width z.grid (z.y - 1)) (4 * k)))
    (cur : ∀ k, k < z.ni → z.cur.read k = some (nibbleAt z.rowSoFar (4 * k)))
    (sr : ∀ j, j < z.bc → z.sr.getLsbD (z.bc - 1 - j) = z.rowSoFar.getD (8 * (z.ni / 2) + j) false)
    (rowsOut : z.chars = encodeRows z.width z.grid z.y) (marks : ∀ e ∈ z.out, e.2 = false) : z.Trace where
  prev := prev
  loading := fun _ => ⟨cur, sr⟩
  packed := by simp [hp]
  rowsOut := fun _ => rowsOut
  rowOut := by simp [hp]
  lastOne := fun h => absurd h (not_streamEnded_of_load hp)
  lastNone := fun _ => marks

/-- START (R183): a refused one changes ERR alone, which the trace does not name; an accepted one begins with nothing taken
and nothing emitted. -/
theorem fireStart_trace {q : Params} {z : Zeb} (h : z.phase ≠ .idle → z.Trace) (c : Command)
    (hp : (fireStart q c z).phase ≠ .idle) : (fireStart q c z).Trace := by
  obtain ⟨_, hf⟩ | ⟨_, hf⟩ := fireStart_cases q c z <;> rw [hf] at hp ⊢
  · exact { h hp with }
  · exact .of_load rfl (by simp) (by simp) (by simp) rfl (by simp)

/-- SAMP (R122): the pixel joins the row, and its bit joins SR. -/
theorem fireSamp_trace {q : Params} {z : Zeb} (hi : z.Inv q) (h : z.Trace) (hp : z.phase = .load) (hb : z.bc < 8)
    (hx : z.x < z.width) (i : Byte) : (fireSamp i z).Trace := by
  have hfr := hi.frame (by simp [hp])
  have hl := hi.load hp
  have heven := hl.even hb
  have hbits := hl.early hx
  rw [bitsIn_eq] at hbits
  obtain ⟨hcur, hsr⟩ := h.loading hp
  have htaken : z.y * z.width ≤ z.taken.length := hfr.taken ▸ Nat.le_add_right _ _
  have hrow := rowSoFar_fireSamp htaken i
  have hlen := rowSoFar_length hfr.taken
  refine .of_load hp (fun hpv k hk => ?_) (fun k hk => ?_) (shiftIn_holds hb (fun j hj => ?_) ?_) ?_
    (h.lastNone (not_streamEnded_of_load hp))
  · have hy : 1 ≤ z.y := hfr.pv.mp hpv
    have hrows : (z.y - 1 + 1) * z.width ≤ z.taken.length := by rwa [Nat.sub_add_cancel hy]
    rw [fireSamp_prev, h.prev hpv k hk]
    exact congrArg (fun bits => some (nibbleAt bits (4 * k))) (rowBits_rasterGrid_append hrows [i]).symm
  · have hk : k < z.ni := hk
    rw [fireSamp_cur, hcur k hk, hrow, nibbleAt_append (by omega)]
  · rw [hsr j hj, hrow, fireSamp_ni, List.getD_append _ _ _ _ (by omega)]
  · have hpos : 8 * (z.ni / 2) + z.bc = z.rowSoFar.length := by omega
    rw [hrow, fireSamp_ni, hpos]
    simp
  · exact (h.rowsOut (.inl hp)).trans (encodeRows_rasterGrid_append htaken [i]).symm

/-- PAD (R134): past the row's pixels its bits are 0. -/
theorem firePad_trace {q : Params} {z : Zeb} (hi : z.Inv q) (h : z.Trace) (hp : z.phase = .load) (hb : z.bc ≤ 7) :
    (firePad z).Trace := by
  obtain ⟨hcur, hsr⟩ := h.loading hp
  have hlen := rowSoFar_length (hi.frame (by simp [hp])).taken
  have hlate := (hi.load hp).late
  rw [bitsIn_eq] at hlate
  have hpast : z.rowSoFar.length ≤ 8 * (z.ni / 2) + z.bc := by omega
  exact .of_load hp h.prev hcur (shiftIn_holds (by omega) hsr (List.getD_eq_default z.rowSoFar false hpast).symm)
    (h.rowsOut (.inl hp)) (h.lastNone (not_streamEnded_of_load hp))

/-- PACK (R135): the nibble that the mux passes is the next one of the row. -/
theorem firePack_trace {z t : Zeb} (h : z.Trace) (hp : z.phase = .load) (hb : z.bc = 8)
    (hf : firePack z = .ok t) : t.Trace := by
  obtain ⟨_, e, _, rfl⟩ := firePack_eq_ok.mp hf
  obtain ⟨hcur, hsr⟩ := h.loading hp
  rw [hb] at hsr
  refine .of_load hp h.prev (fun k hk => ?_) (fun j hj => ?_) (h.rowsOut (.inl hp))
    (h.lastNone (not_streamEnded_of_load hp))
  · show (z.cur.write z.ni _).read k = some (nibbleAt z.rowSoFar (4 * k))
    obtain hk | rfl := Nat.lt_succ_iff_lt_or_eq.mp hk
    · rw [read_write_other _ _ hk.ne, hcur k hk]
    · rw [read_write_self, nibbleMux_eq_nibbleAt hsr]
  · have hj : j < if z.ni % 2 = 1 then 0 else z.bc := hj
    have heven : ¬ z.ni % 2 = 1 := fun hodd => by simp [hodd] at hj
    have hhalf : (z.ni + 1) / 2 = z.ni / 2 := by omega
    rw [if_neg heven, hb] at hj
    show (if z.ni % 2 = 1 then 0 else z.sr).getLsbD ((if z.ni % 2 = 1 then 0 else z.bc) - 1 - j) =
      z.rowSoFar.getD (8 * ((z.ni + 1) / 2) + j) false
    rw [if_neg heven, if_neg heven, hb, hhalf, hsr j hj]

/-! ### A packed row -/

/-- Row `y` of the grid is packed in CUR: the clause of the trace for SCAN, CNT and EOR (R137). -/
def Zeb.RowPacked (z : Zeb) : Prop :=
  ∀ k, k < z.rowLen → z.cur.read k = some (nibbleAt (rowBits z.width z.grid z.y) (4 * k))

/-- A complete row is packed. -/
theorem Zeb.Trace.rowPacked_of_rowComplete {q : Params} {z : Zeb} (hi : z.Inv q) (h : z.Trace) (hp : z.phase = .load)
    (hx : z.x = z.width) (hb : z.bc = 0) : z.RowPacked := by
  have htaken := (hi.frame (by simp [hp])).taken
  rw [hx] at htaken
  rw [Zeb.RowPacked, ← (packed_of_rowComplete hi hp hx hb).ni, ← rowSoFar_eq_rowBits htaken]
  exact (h.loading hp).1

theorem pending_of_eor {z : Zeb} (hp : z.phase = .eor) : z.pending = [] := by simp [Zeb.pending, hp]

/-- The trace of a micro-operation of the compressor: the row is packed, what was emitted and what is still to come are
its compressed form, and the marks are right. -/
theorem Zeb.Trace.scanned {z : Zeb} {ph : Phase} {out : List (Byte × Bool)} {te : Nat} {tm : TrailMark} {si : Nat}
    {rc : Nibble} {rn : Nat} (h : z.Trace) (hrow : z.RowPacked) (hph : ph = .scan ∨ ph = .cnt ∨ ph = .eor)
    (rowOut : (z.scanned ph out te tm si rc rn).chars ++ (z.scanned ph out te tm si rc rn).pending =
      encodeRows z.width z.grid (z.y + 1))
    (marked : (z.scanned ph out te tm si rc rn).Marked) : (z.scanned ph out te tm si rc rn).Trace where
  prev := h.prev
  loading := by rintro rfl; simp at hph
  packed := fun _ => hrow
  rowsOut := by rintro (rfl | rfl) <;> simp at hph
  rowOut := fun _ => rowOut
  lastOne := marked.ended
  lastNone := marked.notEnded

/-- A micro-operation of the scan or the count: what it emits is the first of what was still to be emitted (R165). -/
theorem Zeb.Trace.emitted {z t : Zeb} {ph : Phase} {out : List (Byte × Bool)} {te : Nat} {tm : TrailMark} {si : Nat}
    {rc : Nibble} {rn : Nat} {e : Option (Byte × Bool)} (h : z.Trace) (hp : z.phase = .scan ∨ z.phase = .cnt)
    (ht : t = z.scanned ph out te tm si rc rn) (hph : ph = .scan ∨ ph = .cnt ∨ ph = .eor)
    (hout : out = z.out ++ e.toList) (hpending : z.pending = e.toList.map Prod.fst ++ t.pending)
    (hnone : z.streamEnded → e = none) (hlast : t.streamEnded ↔ z.streamEnded ∨ ∃ c, e = some (c, true)) :
    t.Trace := by
  subst ht hout
  have hp : z.phase = .scan ∨ z.phase = .cnt ∨ z.phase = .eor := hp.imp_right .inl
  refine h.scanned (h.packed hp) hph ?_ (h.marked.emit rfl hnone hlast)
  rw [← h.rowOut hp, hpending, ← List.append_assoc]
  exact congrArg (· ++ _) List.map_append

/-! ### The characters of CUR -/

theorem curChars_self (z : Zeb) (a : Nat) : z.curChars a a = [] := by simp [Zeb.curChars]

theorem curChars_append (z : Zeb) {a b c : Nat} (hab : a ≤ b) (hbc : b ≤ c) :
    z.curChars a b ++ z.curChars b c = z.curChars a c := by
  obtain ⟨m, rfl⟩ := Nat.exists_eq_add_of_le hab
  obtain ⟨n, rfl⟩ := Nat.exists_eq_add_of_le hbc
  have hsum : a + m + n - a = m + n := by omega
  simp [Zeb.curChars, hsum, ← List.range'_append_1]

theorem curChars_allEq {z : Zeb} {a b : Nat} {v : Nibble} (h : z.cur.allEq a b v) :
    z.curChars a b = List.replicate (b - a) (hexChar v) := by
  refine List.eq_replicate_iff.mpr ⟨by simp [Zeb.curChars], fun c hc => ?_⟩
  obtain ⟨k, hk, rfl⟩ := List.mem_map.mp hc
  obtain ⟨h1, h2⟩ := List.mem_range'_1.mp hk
  rw [h k h1 (by omega), Option.getD_some]

/-- The entry at SI is the first character from there on. -/
theorem curChars_cons {z : Zeb} {a b : Nat} {v : Nibble} (h : z.cur.read a = some v) (hab : a < b) :
    z.curChars a b = hexChar v :: z.curChars (a + 1) b := by
  have hone : z.cur.allEq a (a + 1) v := allEq_succ (allEq_empty _ _ _) h
  rw [← curChars_append z (Nat.le_succ a) hab, curChars_allEq hone]
  simp

/-- The last character before `b`. -/
theorem curChars_getLast?_ne {z : Zeb} {b : Nat} {v : Nibble} (hheld : z.cur.held b)
    (h : b = 0 ∨ z.cur.read (b - 1) ≠ some v) : (z.curChars 0 b).getLast? ≠ some (hexChar v) := by
  obtain rfl | ⟨b, rfl⟩ : b = 0 ∨ ∃ b', b = b' + 1 := by cases b <;> simp
  · simp [curChars_self]
  · obtain ⟨u, hu⟩ := Option.isSome_iff_exists.mp (hheld b (Nat.lt_succ_self b))
    have hne : u ≠ v := by simpa [hu] using h
    rw [← curChars_append z (Nat.zero_le b) (Nat.le_succ b), curChars_cons hu (Nat.lt_succ_self b), curChars_self]
    simpa [hexChar_inj] using hne

theorem curChars_eq_packedRow {z : Zeb} (h : z.RowPacked) :
    z.curChars 0 z.rowLen = packedRow z.width z.grid z.y := by
  have hlen : 2 * ceil8 (rowBits z.width z.grid z.y).length = z.rowLen := by rw [rowBits_length]; rfl
  rw [packedRow, pack, packNib, hlen, List.map_map, Zeb.curChars, List.range_eq_range']
  refine List.map_congr_left fun k hk => ?_
  have hk : k < z.rowLen := by simpa using hk
  rw [h k hk]
  rfl

/-- Two rows are packed alike exactly when all their nibbles agree. -/
theorem packedRow_eq_iff {w : Nat} {g : Nat → Nat → Byte} {y y' : Nat} :
    packedRow w g y = packedRow w g y' ↔
      ∀ k, k < 2 * ceil8 w → nibbleAt (rowBits w g y) (4 * k) = nibbleAt (rowBits w g y') (4 * k) := by
  simp [packedRow, pack, packNib, hexChar_inj]

/-! ### The end of LOAD -/

/-- The row equals the previous row (R146, R152) exactly when the compressor's state is the row (R150). -/
theorem repeats_iff_rowState {q : Params} {z : Zeb} (hi : z.Inv q) (h : z.Trace) (hp : z.phase = .load)
    (hx : z.x = z.width) (hb : z.bc = 0) :
    z.repeats = true ↔ rowState z.width z.grid z.y = some (packedRow z.width z.grid z.y) := by
  have hsame := (hi.load hp).same
  have hpv := (hi.frame (by simp [hp])).pv
  have hrow := h.rowPacked_of_rowComplete hi hp hx hb
  rw [(packed_of_rowComplete hi hp hx hb).ni] at hsame
  rw [Zeb.repeats, Bool.and_eq_true, hsame, rowState]
  split
  case isTrue h0 => simp [hpv, h0]
  case isFalse h0 =>
    have hpv : z.pv = true := hpv.mpr (by omega)
    rw [Option.some_inj, packedRow_eq_iff]
    simp only [hpv, true_and]
    refine forall₂_congr fun k hk => ?_
    rw [hrow k hk, h.prev hpv k hk, Option.some_inj, eq_comm]

theorem chars_append_compress {z : Zeb} (h : z.Trace) (hp : z.phase = .load) :
    z.chars ++ compress (packedRow z.width z.grid z.y) (rowState z.width z.grid z.y) =
      encodeRows z.width z.grid (z.y + 1) := by
  rw [encodeRows_succ, h.rowsOut (.inl hp)]

/-- ROWREP (R154): the row is `:`. -/
theorem fireRowrep_trace {q : Params} {z : Zeb} (hi : z.Inv q) (h : z.Trace) (hp : z.phase = .load)
    (hx : z.x = z.width) (hb : z.bc = 0) (hrep : z.repeats = true) : (fireRowrep z).Trace := by
  have hcompress := chars_append_compress h hp
  rw [compress, if_pos ((repeats_iff_rowState hi h hp hx hb).mp hrep)] at hcompress
  refine h.scanned (h.rowPacked_of_rowComplete hi hp hx hb) (by simp) ?_ (h.marked.emit rfl (fun he => ?_) ?_)
  · rw [← hcompress, pending_of_eor rfl]
    simp [Zeb.chars, emission]
  · exact absurd he (not_streamEnded_of_load hp)
  · rw [streamEnded_of_eor rfl]
    simp [not_streamEnded_of_load hp, emission, Zeb.lastRow]

/-- Step 2 on the row in CUR (R147, R155): the tail tracker splits off the trailing run. -/
theorem trail_curChars {z : Zeb} (hheld : z.cur.held z.rowLen) (hts : z.ts < z.rowLen)
    (hall : z.cur.allEq z.ts z.rowLen z.ln) (hbefore : z.ts = 0 ∨ z.cur.read (z.ts - 1) ≠ some z.ln) :
    trail (z.curChars 0 z.rowLen) = z.curChars 0 (trailEnd z) ++ (trailMark z.ln).char.toList := by
  have hsplit : z.curChars 0 z.rowLen = z.curChars 0 z.ts ++ List.replicate (z.rowLen - z.ts) (hexChar z.ln) := by
    rw [← curChars_append z (Nat.zero_le _) hts.le, curChars_allEq hall]
  have hfront := curChars_getLast?_ne (fun k hk => hheld k (hk.trans hts)) hbefore
  have hrun : 1 ≤ z.rowLen - z.ts := by omega
  have hlast := getLast?_append_replicate (hexChar z.ln) (z.curChars 0 z.ts) hrun
  rw [← hsplit] at hlast
  by_cases h0 : z.ln = 0x0
  · have hm : trailMark z.ln = .zero := if_pos h0
    rw [h0] at hsplit hfront
    rw [trailEnd, hm, if_neg (by simp), hsplit, trail_zero hfront hrun]
    rfl
  by_cases hF : z.ln = 0xF
  · have hm : trailMark z.ln = .eff := (if_neg h0).trans (if_pos hF)
    rw [hF] at hsplit hfront
    rw [trailEnd, hm, if_neg (by simp), hsplit, trail_eff hfront hrun]
    rfl
  · have hm : trailMark z.ln = .none := (if_neg h0).trans (if_neg hF)
    have hne (v : Nibble) (hv : z.ln ≠ v) : (z.curChars 0 z.rowLen).getLast? ≠ some (hexChar v) := by
      rw [hlast]
      simpa [hexChar_inj] using hv
    rw [trailEnd, hm, if_pos rfl, trail_other (hne _ h0) (hne _ hF)]
    exact (List.append_nil _).symm

/-- TRAIL (R155): the scan has the compressed row before it. -/
theorem fireTrail_trace {q : Params} {z : Zeb} (hi : z.Inv q) (h : z.Trace) (hp : z.phase = .load)
    (hx : z.x = z.width) (hb : z.bc = 0) (hrep : z.repeats = false) : (fireTrail z).Trace := by
  have hpk := packed_of_rowComplete hi hp hx hb
  have hrow := h.rowPacked_of_rowComplete hi hp hx hb
  have hw := (hi.frame (by simp [hp])).width
  have hlen := rowLen_eq z
  obtain ⟨hts, hall, hbefore⟩ := (hi.load hp).tail (by have := hpk.ni; omega)
  rw [hpk.ni] at hts hall
  have hnew : ¬ rowState z.width z.grid z.y = some (packedRow z.width z.grid z.y) := by
    rw [← repeats_iff_rowState hi h hp hx hb, hrep]
    simp
  have hcompress := chars_append_compress h hp
  rw [compress, if_neg hnew, ← curChars_eq_packedRow hrow, trail_curChars hpk.held hts hall hbefore] at hcompress
  refine h.scanned hrow (by simp) ?_ (h.marked.emit (e := none) (by simp) (fun _ => rfl) ?_)
  · exact hcompress
  · have hopen : ¬ (0 = trailEnd z ∧ trailMark z.ln = .none) := fun ⟨h0, hm⟩ => by
      rw [trailEnd, if_pos hm] at h0
      omega
    rw [streamEnded_of_scan rfl]
    simpa [Zeb.scanEnds, not_streamEnded_of_load hp] using fun _ => hopen

/-! ### The scan and the count -/

/-- The characters of the row that no run has taken in, and the marker. -/
def Zeb.rest (z : Zeb) : List Byte := z.curChars z.si z.te ++ z.tm.char.toList

theorem pending_of_scan {z : Zeb} (hp : z.phase = .scan) :
    z.pending = rle (List.replicate z.rn (hexChar z.rc) ++ z.rest) := by
  simp [Zeb.pending, hp, Zeb.rest]

theorem pending_of_cnt {z : Zeb} (hp : z.phase = .cnt) :
    z.pending = countToken z.rn ++ [hexChar z.rc] ++ rle z.rest := by
  simp [Zeb.pending, hp, Zeb.rest]

theorem char_ne_hexChar {tm : TrailMark} {c : Byte} (h : tm.char = some c) (v : Nibble) : hexChar v ≠ c := by
  cases tm <;> cases h
  case zero => exact hexChar_ne_chZ v
  case eff => exact hexChar_ne_chF v

/-- Where the run is closed (R168), what follows does not continue it. -/
theorem head?_rest_ne_of_closed {z : Zeb} (h : z.closed = .ok true) : z.rest.head? ≠ some (hexChar z.rc) := by
  obtain ⟨hs, _⟩ | ⟨_, hb⟩ | ⟨hlt, _, v, hv, hb⟩ := closed_eq_ok.mp h
  · rw [Zeb.rest, hs, curChars_self, List.nil_append]
    cases hc : z.tm.char with
    | none => simp
    | some c => simpa [eq_comm] using char_ne_hexChar hc z.rc
  · cases hb
  · rw [Zeb.rest, curChars_cons hv hlt]
    simpa [hexChar_inj] using hb.symm

/-- ACC (R156): the run takes in the first character of the rest. -/
theorem fireAcc_trace {z t : Zeb} (h : z.Trace) (hp : z.phase = .scan) (hlt : z.si < z.te)
    (hrun : z.rn = 0 ∨ z.si < z.rowLen ∧ z.cur.read z.si = some z.rc) (hf : fireAcc z = .ok t) : t.Trace := by
  obtain ⟨_, v, hv, ht⟩ := fireAcc_eq_ok.mp hf
  have hold : List.replicate z.rn (hexChar z.rc) = List.replicate z.rn (hexChar v) := by
    obtain h0 | ⟨_, hrc⟩ := hrun
    · simp [h0]
    · rw [Option.some.inj (hrc.symm.trans hv)]
  have hrest : z.rest = hexChar v :: (z.curChars (z.si + 1) z.te ++ z.tm.char.toList) := by
    rw [Zeb.rest, curChars_cons hv hlt, List.cons_append]
  have hpending : t.pending = rle (List.replicate (z.rn + 1) (hexChar v) ++
      (z.curChars (z.si + 1) z.te ++ z.tm.char.toList)) := by
    subst ht
    exact pending_of_scan hp
  have hz : ¬ z.streamEnded := by
    rw [streamEnded_of_scan hp]
    simp [Zeb.scanEnds, hlt.ne]
  have hends : ¬ t.streamEnded := by
    subst ht
    exact not_streamEnded_of_run hp (Nat.succ_ne_zero _)
  refine h.emitted (e := none) (.inl hp) ht (.inl hp) (List.append_nil _).symm ?_ (fun _ => rfl) (by simp [hz, hends])
  rw [hpending, pending_of_scan hp, hold, hrest, List.replicate_succ', List.append_assoc]
  rfl

/-- LIT (R157): the run of 1 or 2 gives its first character. -/
theorem fireLit_trace {z : Zeb} (h : z.Trace) (hp : z.phase = .scan) (h1 : 1 ≤ z.rn) (h2 : z.rn ≤ 2)
    (hc : z.closed = .ok true) : (fireLit z).Trace := by
  have hpending : (fireLit z).pending = rle (List.replicate (z.rn - 1) (hexChar z.rc) ++ z.rest) := pending_of_scan hp
  have hends : (fireLit z).streamEnded ↔ z.lastRow = true ∧ z.rn - 1 = 0 ∧ z.scanEnds = true := streamEnded_of_scan hp
  have hz := not_streamEnded_of_run hp (by omega)
  refine h.emitted (.inl hp) rfl (.inl hp) rfl ?_ (fun he => absurd he hz) ?_
  · rw [hpending, pending_of_scan hp, rle_literal (head?_rest_ne_of_closed hc) h1 h2]
    rfl
  · have hone : z.rn - 1 = 0 ↔ z.rn = 1 := by omega
    rw [hends, hone]
    simp [hz, emission, and_comm, and_left_comm]

/-- RLE (R158): the run of 3 or more is counted. -/
theorem fireRle_trace {z : Zeb} (h : z.Trace) (hp : z.phase = .scan) (h3 : 3 ≤ z.rn)
    (hc : z.closed = .ok true) : (fireRle z).Trace := by
  have hz := not_streamEnded_of_run hp (by omega)
  refine h.emitted (e := none) (.inl hp) rfl (.inr (.inl rfl)) (List.append_nil _).symm ?_ (fun _ => rfl) ?_
  · rw [pending_of_scan hp, rle_counted (head?_rest_ne_of_closed hc) h3, pending_of_cnt rfl]
    rfl
  · simp [hz, not_streamEnded_of_cnt (z := fireRle z) rfl]

/-- CNTZ, CNT20 and CNT1 (R159 to R161): a character of the count is never the last one, and what is left of the count is
what is left of its token (R149). -/
theorem countDown_trace {z : Zeb} {op : MicroOp} {c : Byte} {n : Nat} (h : z.Trace) (hp : z.phase = .cnt)
    (he : emission op z = some (c, false)) (hcount : countToken z.rn = c :: countToken n) :
    ({ z.emit (emission op z) with rn := n } : Zeb).Trace := by
  have hz := not_streamEnded_of_cnt hp
  rw [he]
  refine h.emitted (.inr hp) rfl (.inr (.inl hp)) rfl ?_ (fun he => absurd he hz) ?_
  · rw [pending_of_cnt hp, pending_of_cnt (by simpa using hp), hcount]
    rfl
  · simp [hz, not_streamEnded_of_cnt, hp]

/-- REPC (R162): the character of the run, after its count. -/
theorem fireRepc_trace {z : Zeb} (h : z.Trace) (hp : z.phase = .cnt) (hn : z.rn = 0) : (fireRepc z).Trace := by
  have hpending : (fireRepc z).pending = rle (List.replicate z.rn (hexChar z.rc) ++ z.rest) := pending_of_scan rfl
  have hends : (fireRepc z).streamEnded ↔ z.lastRow = true ∧ z.rn = 0 ∧ z.scanEnds = true := streamEnded_of_scan rfl
  have hz := not_streamEnded_of_cnt hp
  refine h.emitted (.inr hp) rfl (.inl rfl) rfl ?_ (fun he => absurd he hz) ?_
  · rw [hpending, pending_of_cnt hp, hn]
    rfl
  · rw [hends]
    simp [hz, hn, emission, and_comm]

/-- EOL (R163): the marker is all that is left, and without one the stream has ended before it. -/
theorem fireEol_trace {z : Zeb} (h : z.Trace) (hp : z.phase = .scan) (hn : z.rn = 0) (hs : z.si = z.te) :
    (fireEol z).Trace := by
  have hpending : z.pending = z.tm.char.toList := by
    rw [pending_of_scan hp, hn, Zeb.rest, hs, curChars_self]
    cases z.tm.char with
    | none => rfl
    | some c => exact rle_singleton c
  have hdone : (fireEol z).pending = [] := pending_of_eor rfl
  have hz := streamEnded_of_scan hp
  have hends : (fireEol z).streamEnded ↔ z.lastRow = true := streamEnded_of_eor rfl
  refine h.emitted (.inl hp) rfl (by simp) rfl ?_ (fun he => ?_) ?_
  · rw [hpending, hdone, emission]
    cases z.tm.char <;> rfl
  · obtain ⟨_, _, hends⟩ := hz.mp he
    have htm : z.tm = .none := by simpa [Zeb.scanEnds, hs] using hends
    simp [emission, htm, TrailMark.char]
  · rw [hz, hends]
    cases htm : z.tm <;> simp [Zeb.scanEnds, emission, TrailMark.char, hn, hs, htm]

/-! ### The end of a row, and every step -/

/-- COMMIT (R184): PREV has the row, of which nothing is left to emit. -/
theorem fireCommit_trace {q : Params} {z t : Zeb} (hi : z.Inv q) (h : z.Trace) (hp : z.phase = .eor)
    (hf : fireCommit z = .ok t) : t.Trace := by
  obtain ⟨d, hd, rfl⟩ := fireCommit_eq_ok.mp hf
  have heor : z.phase = .scan ∨ z.phase = .cnt ∨ z.phase = .eor := .inr (.inr hp)
  have hprev : ∀ k, k < z.rowLen → d.read k = some (nibbleAt (rowBits z.width z.grid z.y) (4 * k)) := fun k hk => by
    rw [copyRow_read hd, if_pos hk, h.packed heor k hk]
  have hout : z.chars = encodeRows z.width z.grid (z.y + 1) := by
    have hrow := h.rowOut heor
    rwa [pending_of_eor hp, List.append_nil] at hrow
  have hz := streamEnded_of_eor hp
  have hbc := (hi.packed heor).bc
  by_cases hlast : z.y + 1 = z.height
  · have hz : z.streamEnded := hz.mpr (by simpa [Zeb.lastRow] using hlast)
    simp only [if_pos hlast]
    exact
      { prev := fun _ => hprev
        loading := by simp
        packed := by simp
        rowsOut := fun _ => hout
        rowOut := by simp
        lastOne := fun _ => h.lastOne hz
        lastNone := fun ht => absurd (.inl rfl) ht }
  · have hz : ¬ z.streamEnded := fun he => hlast (by simpa [Zeb.lastRow] using hz.mp he)
    simp only [if_neg hlast]
    exact .of_load rfl (fun _ => hprev) (by simp) (by simp [hbc]) hout (h.lastNone hz)

/-- Every micro-operation that is selected and answers keeps the trace. -/
theorem fire_trace {q : Params} {p : PortIn} {z t : Zeb} {op : MicroOp} (hi : z.Inv q) (h : z.phase ≠ .idle → z.Trace)
    (hs : Selected p z op) (hf : fire q p z op = .ok t) (ht : t.phase ≠ .idle) : t.Trace := by
  cases op
  case reset => cases hf; exact absurd rfl ht
  case start =>
    obtain ⟨_, _, c, hc⟩ := hs
    simp only [fire, hc, Except.ok.injEq] at hf
    subst hf
    exact fireStart_trace h c ht
  case samp =>
    obtain ⟨_, hp, hb, hx, i, hpix⟩ := hs
    simp only [fire, hpix, Except.ok.injEq] at hf
    exact hf ▸ fireSamp_trace hi (h (by simp [hp])) hp hb hx i
  case pack => obtain ⟨_, hp, hb⟩ := hs; exact firePack_trace (h (by simp [hp])) hp hb hf
  case acc => obtain ⟨_, hp, hlt, hrun⟩ := hs; exact fireAcc_trace (h (by simp [hp])) hp hlt hrun hf
  case commit => obtain ⟨_, hp⟩ := hs; exact fireCommit_trace hi (h (by simp [hp])) hp hf
  all_goals cases hf; obtain ⟨_, hp, hs⟩ := hs; have h := h (by simp [hp])
  case pad => obtain ⟨_, _, h7⟩ := hs; exact firePad_trace hi h hp h7
  case rowrep => obtain ⟨hx, hb, hrep, _⟩ := hs; exact fireRowrep_trace hi h hp hx hb hrep
  case trail => obtain ⟨hx, hb, hrep⟩ := hs; exact fireTrail_trace hi h hp hx hb hrep
  case lit => obtain ⟨h1, h2, hc, _⟩ := hs; exact fireLit_trace h hp h1 h2 hc
  case rle => obtain ⟨h3, hc⟩ := hs; exact fireRle_trace h hp h3 hc
  case cntz => exact countDown_trace h hp rfl (countToken_ge_400 hs.1)
  case cnt20 => obtain ⟨h20, h399, _⟩ := hs; exact countDown_trace h hp rfl (countToken_ge_20 h20 h399)
  case cnt1 => obtain ⟨h1, h19, _⟩ := hs; exact countDown_trace h hp rfl (countToken_small h1 h19)
  case repc => exact fireRepc_trace h hp hs.1
  case eol => obtain ⟨hn, hsi, _⟩ := hs; exact fireEol_trace h hp hn hsi

/-- A step of the reader leaves ZEB alone. -/
theorem readStep_zeb {s t : State} (h : readStep s = .next t) : t.zeb = s.zeb := by
  obtain ⟨r, hr, _⟩ := readStep_next s
  obtain rfl : { s with reader := r } = t := Host.Outcome.next.inj (hr.symm.trans h)
  rfl

/-- Settles O53: the step waits, or fires one micro-operation, and each keeps the trace (`fire_trace`); the other events
leave ZEB alone. -/
theorem stepKeepsTrace : Obligations.StepKeepsTrace := by
  intro s t hi h ht
  cases hn : s.nextEvent with
  | zeb p =>
    obtain ⟨_, rfl⟩ | ⟨op, z, hs, hf, rfl⟩ := step_zeb_next hn ht
    · exact h
    · exact fire_trace hi.zeb h (select_some hs) hf
  | give stream bw ph strict =>
    rw [step_eq, hn] at ht
    cases ht
    exact h
  | read =>
    rw [step_eq, hn] at ht
    rw [State.Traced, readStep_zeb ht]
    exact h

end Sys2Proof.Machine
end

