-- ==== Sys2Proof/Proofs/Compressor.lean ====
section
/-! PROOFS. The Row Compressor (42_compressor.md): the count token spells its count character by character (rule R149); a
maximal run, a trailing run and so a row never grow (rule R166); and the steps in which the micro-operations of the grammar
state machine fire (rules R154 to R163). -/

namespace Sys2Proof.Machine

/-! ### The count token (R149) -/

/-- The string is at most one of the characters that `meanings` lists, and it adds `v` to the count. -/
def SpelledByOne (meanings : List (Instr × Nat)) (v : Nat) (s : List Byte) : Prop :=
  ∃ es : List (Instr × Nat), es.length ≤ 1 ∧ (∀ e ∈ es, e ∈ meanings) ∧ s = es.map (fun e => (encode e.1).code) ∧
    (es.map Prod.snd).sum = v

theorem SpelledByOne.nil (meanings : List (Instr × Nat)) : SpelledByOne meanings 0 [] := ⟨[], by simp⟩

theorem SpelledByOne.singleton {meanings : List (Instr × Nat)} {i : Instr} {v : Nat} {c : Byte}
    (hi : (i, v) ∈ meanings) (hc : decodeToken c = .ok i) : SpelledByOne meanings v [c] :=
  ⟨[(i, v)], by simp [hi, encode_of_decodeToken hc]⟩

theorem mem_cnt20Meanings {i : Instr} {v : Nat} (h : i.kind = .count .twenties v) : (i, v) ∈ cnt20Meanings := by
  cases i <;> cases h <;> decide

theorem mem_cnt1Meanings {i : Instr} {v : Nat} (h : i.kind = .count .ones v) : (i, v) ∈ cnt1Meanings := by
  cases i <;> cases h <;> decide

theorem c20_spelled {q : Nat} (hq : q ≤ 19) : SpelledByOne cnt20Meanings (20 * q) (c20 q) := by
  unfold c20
  split
  case isTrue h0 => exact h0 ▸ .nil _
  case isFalse h0 =>
    obtain ⟨i, hd, hk⟩ := exists_of_codeKind (codeKind_count20Char (Nat.pos_of_ne_zero h0) hq)
    exact .singleton (mem_cnt20Meanings hk) hd

theorem c1_spelled {m : Nat} (hm : m ≤ 19) : SpelledByOne cnt1Meanings m (c1 m) := by
  unfold c1
  split
  case isTrue h0 => exact h0 ▸ .nil _
  case isFalse h0 =>
    obtain ⟨i, hd, hk⟩ := exists_of_codeKind (codeKind_count1Char (Nat.pos_of_ne_zero h0) hm)
    exact .singleton (mem_cnt1Meanings hk) hd

/-- Settles O7: the CNT20 part and the CNT1 part are at most one character each, and their values are the two remainders
of the count. -/
theorem countTokenSpelling : Obligations.CountTokenSpelling := by
  intro n
  obtain ⟨tw, htw, hmtw, hctw, hvtw⟩ := c20_spelled (q := n % 400 / 20) (by omega)
  obtain ⟨on, hon, hmon, hcon, hvon⟩ := c1_spelled (m := n % 20) (by omega)
  refine ⟨tw, on, htw, hon, hmtw, hmon, ?_, ?_⟩
  · rw [countToken, unit400, unit20, hctw, hcon, List.append_assoc, List.map_append, ch400]
  · rw [List.map_append, List.sum_append, hvtw, hvon]
    omega

/-! ### Lengths (R166) -/

/-- A counted run is shorter than the run it stands for: the character itself has room after the count. -/
theorem countToken_length_lt {n : Nat} (h : 3 ≤ n) : (countToken n).length < n := by
  have hc20 (q : Nat) : (c20 q).length = if q = 0 then 0 else 1 := by unfold c20; split <;> rfl
  have hc1 (m : Nat) : (c1 m).length = if m = 0 then 0 else 1 := by unfold c1; split <;> rfl
  simp only [countToken, unit400, unit20, List.length_append, List.length_replicate, hc20, hc1]
  split <;> split <;> omega

theorem runToken_length (c : Byte) {n : Nat} (hn : 1 ≤ n) :
    1 ≤ (runToken (c, n)).length ∧ (runToken (c, n)).length ≤ n := by
  by_cases h3 : 3 ≤ n
  · rw [runToken_of_three_le c h3, List.length_append, List.length_singleton]
    exact ⟨Nat.le_add_left 1 _, countToken_length_lt h3⟩
  · rw [runToken_of_lt_three c (Nat.lt_of_not_le h3), List.length_replicate]
    exact ⟨hn, le_rfl⟩

/-- Step 3 lengthens no string, run by run, and empties none. -/
theorem rle_length (s : List Byte) : (rle s).length ≤ s.length ∧ (1 ≤ s.length → 1 ≤ (rle s).length) := by
  induction s using run_induction with
  | nil => simp
  | run c n t ht ih =>
    have hrun := runToken_length c (Nat.le_add_left 1 n)
    rw [rle_replicate_append ht (Nat.le_add_left 1 n), List.length_append, List.length_append, List.length_replicate]
    omega

/-- Step 2 lengthens no string and empties none: a trailing run is at least one character, and its marker is one. -/
theorem trail_length {r : List Byte} (hr : 1 ≤ r.length) : 1 ≤ (trail r).length ∧ (trail r).length ≤ r.length := by
  by_cases h0 : r.getLast? = some (hexChar 0x0)
  · obtain ⟨m, t, rfl, ht⟩ := exists_trailing_run h0
    rw [trail_zero ht (Nat.le_add_left 1 m)]
    simp
  by_cases hF : r.getLast? = some (hexChar 0xF)
  · obtain ⟨m, t, rfl, ht⟩ := exists_trailing_run hF
    rw [trail_eff ht (Nat.le_add_left 1 m)]
    simp
  rw [trail_other h0 hF]
  exact ⟨hr, le_rfl⟩

theorem compress_length {r : List Byte} (hr : 1 ≤ r.length) (s : Option (List Byte)) :
    1 ≤ (compress r s).length ∧ (compress r s).length ≤ r.length := by
  unfold compress
  split
  case isTrue => exact ⟨le_rfl, hr⟩
  case isFalse =>
    obtain ⟨htrail, htrail'⟩ := trail_length hr
    obtain ⟨hrle, hrle'⟩ := rle_length (trail r)
    exact ⟨hrle' htrail, hrle.trans htrail'⟩

theorem packedRow_length (w : Nat) (g : Nat → Nat → Byte) (y : Nat) :
    (packedRow w g y).length = 2 * ((w + 7) / 8) := by
  rw [packedRow, pack, List.length_map, packNib_length, rowBits_length]

/-- A bound on every row is a bound on the stream, row after row (R180). -/
theorem encodeRows_length {w L : Nat} {g : Nat → Nat → Byte}
    (hrow : ∀ y s, 1 ≤ (compress (packedRow w g y) s).length ∧ (compress (packedRow w g y) s).length ≤ L) (h : Nat) :
    h ≤ (encodeRows w g h).length ∧ (encodeRows w g h).length ≤ h * L := by
  induction h with
  | zero => simp [encodeRows]
  | succ h ih =>
    have := hrow h (rowState w g h)
    rw [encodeRows_succ, List.length_append, Nat.succ_mul]
    omega

/-- Settles O8: neither step lengthens the packed row nor empties it (`compress_length`), which has ROWLEN characters, and
the stream is the sum of its rows. -/
theorem compressionNeverExpands : Obligations.CompressionNeverExpands := by
  intro w g hw
  have hrow (y : Nat) (s : Option (List Byte)) : 1 ≤ (compress (packedRow w g y) s).length ∧
      (compress (packedRow w g y) s).length ≤ 2 * ((w + 7) / 8) := by
    rw [← packedRow_length w g y]
    exact compress_length (by rw [packedRow_length]; omega) s
  exact ⟨hrow, encodeRows_length hrow⟩

/-! ### `tok_last` and "closed" (R164, R168) -/

/-- After the scan nothing of the row follows, and the row is the last (R164). -/
theorem scanEnds_and_lastRow (z : Zeb) :
    (z.scanEnds && z.lastRow) = decide (z.si = z.te ∧ z.tm = .none ∧ z.y + 1 = z.height) := by
  rw [Bool.eq_iff_iff]
  simp [Zeb.scanEnds, Zeb.lastRow, and_assoc]

theorem emission_repc (z : Zeb) : emission .repc z =
    some (hexChar z.rc, decide (z.si = z.te ∧ z.tm = .none ∧ z.y + 1 = z.height)) := by
  rw [emission, scanEnds_and_lastRow]

theorem emission_lit (z : Zeb) : emission .lit z =
    some (hexChar z.rc, decide (z.rn = 1 ∧ z.si = z.te ∧ z.tm = .none ∧ z.y + 1 = z.height)) := by
  rw [emission, Bool.and_assoc, scanEnds_and_lastRow, Bool.decide_and (z.rn = 1)]
  rfl

/-- A run is closed at the end of the scan, or before an entry of the row that differs (R168). -/
theorem closed_of_end_or_differs {z : Zeb} (h : z.si = z.te ∨ (z.si < z.te ∧ z.te ≤ z.rowLen ∧
    ∃ v, z.cur.read z.si = some v ∧ v ≠ z.rc)) : z.closed = .ok true := by
  rw [closed_eq_ok]
  obtain hend | ⟨hlt, hte, v, hv, hne⟩ := h
  · exact .inl ⟨hend, rfl⟩
  · exact .inr (.inr ⟨hlt, hlt.trans_le hte, v, hv, by simp [hne]⟩)

/-! ### The end of a row's sampling: ROWREP and TRAIL (R154, R155) -/

/-- Settles O34: ROWREP is selected, and it emits `:`. -/
theorem rowrepFires : Obligations.RowrepFires := by
  intro s p hn hr hp hx hb hpv heq ht
  have hrep : s.zeb.repeats = true := by rw [Zeb.repeats, hpv, heq]; rfl
  exact step_of_selected (op := .rowrep) hn ⟨hr, hp, hx, hb, hrep, ht⟩ rfl

/-- TRAIL stops the scan before the trailing run exactly when it has a marker (R155). -/
theorem trailEnd_eq (z : Zeb) :
    trailEnd z = if z.ln = 0x0 then z.ts else if z.ln = 0xF then z.ts else z.rowLen := by
  unfold trailEnd trailMark
  split_ifs <;> simp_all

/-- Settles O35: TRAIL is selected, and the stop of the scan is that of its marker (`trailEnd_eq`). -/
theorem trailFires : Obligations.TrailFires := by
  intro s p hn hr hp hx hb hne
  have hrep : s.zeb.repeats = false := by
    rw [Zeb.repeats, Bool.eq_false_iff, Ne, Bool.and_eq_true]
    exact hne
  rw [step_of_selected (op := .trail) hn ⟨hr, hp, hx, hb, hrep⟩ rfl, fireTrail, trailMark, trailEnd_eq]

/-! ### The scan: ACC, LIT, RLE and EOL (R156, R157, R158, R163) -/

/-- Settles O36: ACC is selected, and it answers because the entry it reads is in the row. -/
theorem accFires : Obligations.AccFires := by
  intro s p v hn hr hp hlt hte hv hrun
  have hrow : s.zeb.si < s.zeb.rowLen := hlt.trans_le hte
  have hopen : s.zeb.rn = 0 ∨ s.zeb.si < s.zeb.rowLen ∧ s.zeb.cur.read s.zeb.si = some s.zeb.rc :=
    hrun.imp_right fun hrc => ⟨hrow, hv.trans (congrArg some hrc)⟩
  exact step_of_selected (op := .acc) hn ⟨hr, hp, hlt, hopen⟩ (fireAcc_eq_ok.mpr ⟨hrow, v, hv, rfl⟩)

/-- Settles O37: LIT is selected for the closed run, and `tok_last` is that of R164 (`emission_lit`). -/
theorem litFires : Obligations.LitFires := by
  intro s p hn hr hp h1 h2 ht hc
  rw [step_of_selected (op := .lit) hn ⟨hr, hp, h1, h2, closed_of_end_or_differs hc, ht⟩ rfl, fireLit, emission_lit]
  rfl

/-- Settles O38: RLE is selected for the closed run, and only PHASE changes. -/
theorem rleFires : Obligations.RleFires := by
  intro s p hn hr hp h3 hc
  exact step_of_selected (op := .rle) hn ⟨hr, hp, h3, closed_of_end_or_differs hc⟩ rfl

/-- Settles O41: EOL is selected, for TM = NONE without the sink; what it emits is TM's character. -/
theorem eolFires : Obligations.EolFires := by
  intro s p hn hr hp h0 hs ht
  have hready : s.zeb.tm = .none ∨ p.tokReady = true := or_iff_not_imp_left.mpr ht
  rw [step_of_selected (op := .eol) hn ⟨hr, hp, h0, hs, hready⟩ rfl, fireEol, emission]
  cases s.zeb.tm <;> rfl

/-! ### The count: CNTZ, CNT20, CNT1 and REPC (R159 to R162) -/

/-- Settles O39: in each of the three ranges of RN its micro-operation is selected. -/
theorem countCharactersFire : Obligations.CountCharactersFire := by
  intro s p hn hr hp ht
  refine ⟨fun h400 => ?_, fun h20 h399 => ?_, fun h1 h19 => ?_⟩
  · exact step_of_selected (op := .cntz) hn ⟨hr, hp, h400, ht⟩ rfl
  · exact step_of_selected (op := .cnt20) hn ⟨hr, hp, h20, h399, ht⟩ rfl
  · exact step_of_selected (op := .cnt1) hn ⟨hr, hp, h1, h19, ht⟩ rfl

/-- Settles O40: REPC is selected, and `tok_last` is that of R164 (`emission_repc`). -/
theorem repcFires : Obligations.RepcFires := by
  intro s p hn hr hp h0 ht
  rw [step_of_selected (op := .repc) hn ⟨hr, hp, h0, ht⟩ rfl, fireRepc, emission_repc]
  rfl

end Sys2Proof.Machine
end

