-- ==== Sys2Proof/Proofs/Sequencer.lean ====
section
/-! PROOFS. The Encoder (43_sequencer.md): START and COMMIT (rules R183, R184), the dispatch table (R182), and the whole frame
(rules R180, R185, R190): the stream depends on the thresholded bits alone, and in DONE it is what the source encodes. -/

namespace Sys2Proof.Machine

/-! ### START (R183) -/

/-- What a step does that takes a command: START is selected. -/
theorem step_start {s : State} {p : PortIn} {c : Command} (hn : s.nextEvent = .zeb p) (hr : p.rst = false)
    (hc : p.cmd = some c) (hp : s.zeb.phase = .idle ∨ s.zeb.phase = .done) :
    step s = .next { s.popped with zeb := fireStart s.params c s.zeb } :=
  step_of_selected (op := .start) hn ⟨hr, hp, c, hc⟩ (by simp only [fire, hc])

theorem fireStart_of_badDim {q : Params} {c : Command} (h : badDim q (c.onPort q) = true) (z : Zeb) :
    fireStart q c z = raiseBadDim z := if_pos h

theorem fireStart_of_not_badDim {q : Params} {c : Command} (h : ¬ badDim q (c.onPort q) = true) (z : Zeb) :
    fireStart q c z = acceptStart (c.onPort q).w (c.onPort q).h z := if_neg h

/-- Settles O30: START is selected, and its operands decide between BAD_DIM and the start of a frame. -/
theorem startFires : Obligations.StartFires := by
  rintro s p c _ _ hn hr hc rfl rfl hp
  rw [step_start hn hr hc hp]
  refine ⟨fun hbad => ?_, fun hok => ⟨[], ?_⟩⟩
  · rw [fireStart_of_badDim (badDim_eq_true.mpr hbad), raiseBadDim]
  · rw [fireStart_of_not_badDim (mt badDim_eq_true.mp hok), acceptStart, clearErr, onPort_w, onPort_h]

/-- An accepted START writes every register that LOAD reads before writing it (R183), whatever the two states were: only
the model's counter of free values (log entry 5) goes on from the state before. -/
theorem acceptStart_sameLive_of_draws {a b : Zeb} (hd : a.draws = b.draws) (w k : Nat) :
    (acceptStart w k a).SameLive (acceptStart w k b) := by
  constructor <;> simp [hd]

/-- Settles O55: in both machines START is selected and accepted, and what it leaves is not read
(`acceptStart_sameLive_of_draws`). -/
theorem startForgetsTheFrameBefore : Obligations.StartForgetsTheFrameBefore := by
  rintro a b p c _ hparams hreader hsched hdraws hn hr hc rfl hw1 hw hh1 hh hpa hpb
  have hnb : b.nextEvent = .zeb p := by rw [← hn, State.nextEvent, State.nextEvent, hsched]
  have hok : ¬ badDim a.params (c.onPort a.params) = true := by
    rw [badDim_eq_true]
    omega
  refine ⟨_, _, step_start hn hr hc hpa, step_start hnb hr hc hpb, ?_, ?_⟩
  · refine ⟨hparams, ?_, hreader, congrArg List.tail hsched⟩
    rw [← hparams, fireStart_of_not_badDim hok, fireStart_of_not_badDim hok]
    exact acceptStart_sameLive_of_draws hdraws _ _
  · rw [fireStart_of_not_badDim hok, acceptStart_phase]

/-! ### COMMIT (R184) -/

/-- Settles O42: COMMIT is selected, and it answers because every entry that it copies has a value (`copyRow_isOk`). -/
theorem commitFires : Obligations.CommitFires := by
  intro s p hn hr hp hheld
  obtain ⟨m, hm⟩ := copyRow_isOk (dst := s.zeb.prev) hheld
  exact ⟨m, copyRow_read hm, step_of_selected (op := .commit) hn ⟨hr, hp⟩ (fireCommit_eq_ok.mpr ⟨m, hm, rfl⟩)⟩

/-! ### The dispatch table (R182) -/

/-- Settles O43: guards and table both say when a row holds (`guardOf_eq_true`, `select_eq_some`), and the table, a
function, names one micro-operation. -/
theorem dispatchFollowsGuards : Obligations.DispatchFollowsGuards := by
  intro p z hr
  have hguard (op : MicroOp) : guardOf p z op = true ↔ select p z = .ok (some op) :=
    (guardOf_eq_true hr).trans select_eq_some.symm
  refine ⟨hguard, fun op op' hop hop' => ?_⟩
  have heq : Except.ok (some op) = select p z := ((hguard op).mp hop).symm
  exact Option.some.inj (Except.ok.inj (heq.trans ((hguard op').mp hop')))

/-! ### The stream is a function of the thresholded bits (R190) -/

theorem thr_eq_thr_iff {i j : Byte} : thr i = thr j ↔ (i.toNat < 127 ↔ j.toNat < 127) := by
  rw [Bool.eq_iff_iff, thr_eq_true, thr_eq_true]

/-- The Bitmap depends on the pixels inside the grid alone, and of them on the thresholded bits (R121). -/
theorem sample_congr {w h : Nat} {g g' : Nat → Nat → Byte}
    (hbits : ∀ x y, x < w → y < h → thr (g x y) = thr (g' x y)) : sample w h g = sample w h g' :=
  List.map_congr_left fun y hy =>
    List.map_congr_left fun x hx => hbits x y (List.mem_range.mp hx) (List.mem_range.mp hy)

theorem encodeGrid_congr {w h : Nat} {g g' : Nat → Nat → Byte}
    (hbits : ∀ x y, x < w → y < h → thr (g x y) = thr (g' x y)) : encodeGrid w h g = encodeGrid w h g' := by
  rw [encodeGrid, encodeGrid, sample_congr hbits]

/-- Settles O9: `encode` starts from the Bitmap, which is the same for both grids (`sample_congr`). -/
theorem equalBitsEqualStreams : Obligations.EqualBitsEqualStreams := fun _ _ _ _ hside =>
  encodeGrid_congr fun x y hx hy => thr_eq_thr_iff.mpr (hside x y hx hy)

/-! ### Whole frames (R180, R185, R190) -/

/-- What every step keeps holds at the end of every run. -/
theorem run_keeps {P : State → Prop} (hstep : ∀ s t, P s → step s = .next t → P t) {n : Nat} {s t : State}
    (hs : P s) (ht : s.run n = .next t) : P t := by
  induction n generalizing s with
  | zero => cases ht; exact hs
  | succ n ih =>
    obtain ⟨u, hu, ht⟩ := run_succ_next.mp ht
    exact ih (hstep s u hs hu) ht

theorem run_keeps_inv_traced {n : Nat} {s t : State} (hi : s.Inv) (h : s.Traced) (ht : s.run n = .next t) :
    t.Inv ∧ t.Traced :=
  run_keeps (P := fun s => s.Inv ∧ s.Traced)
    (fun s t ⟨hi, h⟩ hstep => ⟨stepKeepsInvariant s t hi hstep, stepKeepsTrace s t hi h hstep⟩) ⟨hi, h⟩ ht

/-- Pixel `x` of row `y` is beat `y * w + x` (R66). -/
theorem rasterGrid_of_raster {w h : Nat} {px : List Byte} {g : Nat → Nat → Byte}
    (hpx : ∀ k, k < w * h → px[k]? = some (g (k % w) (k / w))) {x y : Nat} (hx : x < w) (hy : y < h) :
    rasterGrid w px x y = g x y := by
  have hk : y * w + x < w * h := by
    calc y * w + x < (y + 1) * w := by rw [Nat.succ_mul]; omega
      _ ≤ h * w := Nat.mul_le_mul_right w hy
      _ = w * h := Nat.mul_comm h w
  have hmod : (y * w + x) % w = x := by rw [Nat.mul_add_mod', Nat.mod_eq_of_lt hx]
  have hdiv : (y * w + x) / w = y := by
    rw [Nat.mul_comm, Nat.mul_add_div (by omega), Nat.div_eq_of_lt hx, Nat.add_zero]
  rw [rasterGrid, List.getD_eq_getElem?_getD, hpx _ hk, hmod, hdiv, Option.getD_some]

/-- The results of a finished frame are those of the grid that its beats delivered (R180, R185). -/
theorem Zeb.Trace.encoded_of_done {q : Params} {z : Zeb} (hi : z.Inv q) (h : z.Trace) (hp : z.phase = .done) :
    (⟨z.byteWidth, z.pixHeight, z.chars⟩ : EncodedBitmap) = encodeGrid z.width z.height z.grid := by
  have hy : z.y = z.height := (hi.frame (by simp [hp])).yDone.mpr hp
  rw [encodeGrid_eq, h.rowsOut (.inr hp), hy]
  rfl

/-- A finished frame has taken all its pixels (R66, R185). -/
theorem taken_length_of_done {q : Params} {z : Zeb} (hi : z.Inv q) (hp : z.phase = .done) :
    z.taken.length = z.width * z.height := by
  have hf := hi.frame (by simp [hp])
  obtain ⟨hx, _⟩ := hi.finished hp
  rw [hf.taken, hf.yDone.mpr hp, hx, Nat.add_zero, Nat.mul_comm]

/-- Settles O56: every run keeps the invariant and the trace (`run_keeps_inv_traced`), which in DONE speak of the grid that
the beats delivered; it is `g` inside the frame (`rasterGrid_of_raster`). -/
theorem framesAreEncoded : Obligations.FramesAreEncoded := by
  intro n s t g hi h hrun hp hraster
  obtain ⟨⟨_, hinv, _⟩, htraced⟩ := run_keeps_inv_traced hi h hrun
  have htrace : t.zeb.Trace := htraced (by simp [hp])
  have hgrid : encodeGrid t.zeb.width t.zeb.height t.zeb.grid = encodeGrid t.zeb.width t.zeb.height g :=
    encodeGrid_congr fun x y hx hy => congrArg thr (rasterGrid_of_raster hraster hx hy)
  exact ⟨(htrace.encoded_of_done hinv hp).trans hgrid, (hinv.frame (by simp [hp])).yDone.mpr hp,
    taken_length_of_done hinv hp, htrace.lastOne (.inl hp)⟩

end Sys2Proof.Machine
end

