-- ==== Sys2Proof/Proofs/TokenStream.lean ====
section
/-! PROOFS. The token stream as the reader reads it (44_token_stream.md rules R200 to R209, R211): what each operation of
the reader answers, branch by branch; the 58 characters, each the operation of its class; the steps of the reader; and that
the reader and ZEB share nothing. -/

namespace Sys2Proof.Machine

/-! ### The five operations, branch by branch -/

theorem readHex_countTooSmall {r : Reader} (d : Nibble) (hs : r.strict = true) (hc : r.cnt = 1 ∨ r.cnt = 2) :
    readHex d r = r.refuse .countTooSmall := if_pos ⟨hs, hc⟩

theorem readHex_overflow {r : Reader} (d : Nibble) (hs : ¬ (r.strict = true ∧ (r.cnt = 1 ∨ r.cnt = 2)))
    (h : r.rowLen < r.cur.length + r.copies) : readHex d r = r.refuse .rowOverflow := by
  rw [readHex, if_neg hs, if_pos h]

theorem readHex_full {r : Reader} (d : Nibble) (hs : ¬ (r.strict = true ∧ (r.cnt = 1 ∨ r.cnt = 2)))
    (h : r.cur.length + r.copies = r.rowLen) :
    readHex d r = ({ r with cnt := 0, stage := .start }).complete (r.cur ++ List.replicate r.copies d) := by
  rw [readHex, if_neg hs, if_neg h.le.not_gt, if_pos h]

theorem readHex_partial {r : Reader} (d : Nibble) (hs : ¬ (r.strict = true ∧ (r.cnt = 1 ∨ r.cnt = 2)))
    (h : r.cur.length + r.copies < r.rowLen) :
    readHex d r = { r with cnt := 0, stage := .start, cur := r.cur ++ List.replicate r.copies d } := by
  rw [readHex, if_neg hs, if_neg h.le.not_gt, if_neg h.ne]

theorem readCount_allowed {r : Reader} {c : CountStage} (v : Nat) (h : r.strict = true → r.stage.allows c = true) :
    readCount c v r = { r with cnt := r.cnt + v, stage := c } :=
  if_neg fun ⟨hs, ha⟩ => Bool.false_ne_true (ha.symm.trans (h hs))

/-- DEC-S adds a count in the canonical order and refuses any other (R211). -/
theorem readCount_strict {r : Reader} (c : CountStage) (v : Nat) (hs : r.strict = true) :
    readCount c v r =
      if r.stage.allows c = false then r.refuse .countOrder else { r with cnt := r.cnt + v, stage := c } := by
  simp only [readCount, hs, true_and]

theorem allows_ones_eq_false {p : CountStage} : p.allows .ones = false ↔ p = .ones := by cases p <;> decide

theorem allows_twenties_eq_false {p : CountStage} : p.allows .twenties = false ↔ p = .ones ∨ p = .twenties := by
  cases p <;> decide

theorem allows_fourHundreds_eq_false {p : CountStage} :
    p.allows .fourHundreds = false ↔ p = .ones ∨ p = .twenties := by cases p <;> decide

theorem readFill_afterCount {r : Reader} (d : Nibble) (h : r.cnt ≠ 0) : readFill d r = r.refuse .countBeforeMark :=
  if_pos h

theorem readFill_onFullRow {r : Reader} (d : Nibble) (h0 : r.cnt = 0) (h : r.rowLen ≤ r.cur.length) :
    readFill d r = r.refuse .fillOnFullRow := by
  rw [readFill, if_neg (not_not.mpr h0), if_pos h]

theorem readFill_completes {r : Reader} (d : Nibble) (h0 : r.cnt = 0) (h : r.cur.length < r.rowLen) :
    readFill d r = r.complete (r.cur ++ List.replicate (r.rowLen - r.cur.length) d) := by
  rw [readFill, if_neg (not_not.mpr h0), if_neg h.not_ge]

theorem readRep_completes {r : Reader} {row : List Nibble} (h0 : r.cnt = 0) (hcur : r.cur = [])
    (hrow : r.rows.getLast? = some row) : readRep r = r.complete row := by
  simp [readRep, h0, hcur, hrow]

/-- Where `:` does not complete a row it is refused (R207). -/
theorem readRep_refused {r : Reader} (h : r.cnt ≠ 0 ∨ r.cur ≠ [] ∨ r.rows = []) : ∃ why, readRep r = r.refuse why := by
  obtain hr | ⟨h0, hcur, row, hrow, _⟩ := readRep_cases r
  · exact hr
  · have hne : r.rows ≠ [] := by rintro hnil; simp [hnil] at hrow
    exact absurd h (by simp [h0, hcur, hne])

theorem readEnd_accepted {r : Reader} (hcur : r.cur = []) (h0 : r.cnt = 0) (hrows : r.rows.length = r.pixelHeight) :
    readEnd r = { r with verdict := .accepted } := by
  simp [readEnd, hcur, h0, hrows]

/-- A stream that does not end as R209 requires is refused. -/
theorem readEnd_refused {r : Reader} (h : ¬ (r.cur = [] ∧ r.cnt = 0 ∧ r.rows.length = r.pixelHeight)) :
    ∃ why, readEnd r = r.refuse why := by
  obtain hr | ⟨h0, hcur, hrows, _⟩ := readEnd_cases r
  · exact hr
  · exact absurd ⟨hcur, h0, hrows⟩ h

/-! ### The characters -/

/-- A stream character that a reading reader executes is its class's operation on the reader. -/
theorem exec_of_reading {s : State} {i : Instr} {k : TokenKind} (hk : i.kind = k) (hb : k ≠ .beat)
    (hv : s.reader.verdict = .reading) : exec i s = .next { s with reader := readKind k s.reader } := by
  subst hk
  rw [exec_token hb, readToken, if_pos hv]

theorem kind_of_mem_hexMeanings : ∀ e ∈ hexMeanings, e.1.kind = .hex e.2 := by decide
theorem kind_of_mem_cnt1Meanings : ∀ e ∈ cnt1Meanings, e.1.kind = .count .ones e.2 := by decide
theorem kind_of_mem_cnt20Meanings : ∀ e ∈ cnt20Meanings, e.1.kind = .count .twenties e.2 := by decide

theorem exec_hex {s : State} {i : Instr} {d : Nibble} (h : (i, d) ∈ hexMeanings) (hv : s.reader.verdict = .reading) :
    exec i s = .next { s with reader := readHex d s.reader } :=
  exec_of_reading (kind_of_mem_hexMeanings _ h) (by simp) hv

theorem exec_cnt1 {s : State} {i : Instr} {v : Nat} (h : (i, v) ∈ cnt1Meanings) (hv : s.reader.verdict = .reading) :
    exec i s = .next { s with reader := readCount .ones v s.reader } :=
  exec_of_reading (kind_of_mem_cnt1Meanings _ h) (by simp) hv

theorem exec_cnt20 {s : State} {i : Instr} {v : Nat} (h : (i, v) ∈ cnt20Meanings) (hv : s.reader.verdict = .reading) :
    exec i s = .next { s with reader := readCount .twenties v s.reader } :=
  exec_of_reading (kind_of_mem_cnt20Meanings _ h) (by simp) hv

theorem exec_cnt400 {s : State} (hv : s.reader.verdict = .reading) :
    exec .cnt400 s = .next { s with reader := readCount .fourHundreds 400 s.reader } :=
  exec_of_reading (k := .count .fourHundreds 400) rfl (by simp) hv

theorem exec_fill {s : State} {i : Instr} {d : Nibble} (hk : i.kind = .fill d) (hv : s.reader.verdict = .reading) :
    exec i s = .next { s with reader := readFill d s.reader } :=
  exec_of_reading hk (by simp) hv

theorem exec_rowrep {s : State} (hv : s.reader.verdict = .reading) :
    exec .rowrep s = .next { s with reader := readRep s.reader } :=
  exec_of_reading (k := .rep) rfl (by simp) hv

/-! ### HEX (R201) -/

/-- Settles O13: in DEC the three lengths are the three answers of a HEX character after its test of DEC-S. -/
theorem hexReads : Obligations.HexReads := by
  rintro s i d _ hi hv hs rfl
  have hlax : ¬ (s.reader.strict = true ∧ (s.reader.cnt = 1 ∨ s.reader.cnt = 2)) := by simp [hs]
  rw [exec_hex hi hv]
  refine ⟨fun hlt => ⟨.start, ?_⟩, fun heq => ⟨.start, ?_⟩, fun hgt => ?_⟩
  · rw [readHex_partial d hlax hlt, Reader.copies]
  · rw [readHex_full d hlax heq, Reader.complete, Reader.copies]
  · rw [readHex_overflow d hlax hgt, Reader.refuse]

/-- Settles O14: DEC-S refuses a count of 1 or 2, and any other count passes its test. -/
theorem strictHexReads : Obligations.StrictHexReads := by
  rintro s i d _ hi hv hs rfl
  rw [exec_hex hi hv]
  refine ⟨fun hsmall => ?_, fun h1 h2 => ?_⟩
  · rw [readHex_countTooSmall d hs hsmall, Reader.refuse]
  have hok : ¬ (s.reader.strict = true ∧ (s.reader.cnt = 1 ∨ s.reader.cnt = 2)) := by simp [h1, h2]
  refine ⟨fun hlt => ?_, fun heq => ?_, fun hgt => ?_⟩
  · rw [readHex_partial d hok hlt, Reader.copies]
  · rw [readHex_full d hok heq, Reader.complete, Reader.copies]
  · rw [readHex_overflow d hok hgt, Reader.refuse]

/-! ### The count characters (R202 to R204) -/

/-- Settles O15: a CNT1 character is the count operation of its class, and DEC allows every order. -/
theorem cnt1Reads : Obligations.Cnt1Reads := fun s _ n hi hv hs =>
  ⟨.ones, by rw [exec_cnt1 hi hv, readCount_allowed n (by simp [hs])]⟩

/-- Settles O16: a CNT20 character is the count operation of its class, and DEC allows every order. -/
theorem cnt20Reads : Obligations.Cnt20Reads := fun s _ v hi hv hs =>
  ⟨.twenties, by rw [exec_cnt20 hi hv, readCount_allowed v (by simp [hs])]⟩

/-- Settles O17: `z` is the count operation of its class, and DEC allows every order. -/
theorem cnt400Reads : Obligations.Cnt400Reads := fun s hv hs =>
  ⟨.fourHundreds, by rw [exec_cnt400 hv, readCount_allowed 400 (by simp [hs])]⟩

/-- Settles O18: DEC-S answers by the canonical order (`readCount_strict`), which excludes the stages named for each
class. -/
theorem strictCountsRead : Obligations.StrictCountsRead := by
  intro s i v hv hs
  refine ⟨fun hi => ?_, fun hi => ?_, ?_⟩
  · rw [exec_cnt1 hi hv, readCount_strict .ones v hs]
    simp only [allows_ones_eq_false, Reader.refuse]
  · rw [exec_cnt20 hi hv, readCount_strict .twenties v hs]
    simp only [allows_twenties_eq_false, Reader.refuse]
  · rw [exec_cnt400 hv, readCount_strict .fourHundreds 400 hs]
    simp only [allows_fourHundreds_eq_false, Reader.refuse]

/-! ### The markers (R205, R206) -/

/-- Both markers, each with its nibble. -/
theorem exec_fill_answers {s : State} {i : Instr} {d : Nibble} (hk : i.kind = .fill d)
    (hv : s.reader.verdict = .reading) :
    (s.reader.cnt = 0 → s.reader.cur.length < 2 * s.reader.byteWidth →
      exec i s = .next { s with reader := { s.reader with
        rows := s.reader.rows ++ [s.reader.cur ++ List.replicate (2 * s.reader.byteWidth - s.reader.cur.length) d],
        cur := [] } }) ∧
    (s.reader.cnt ≠ 0 →
      exec i s = .next { s with reader := { s.reader with verdict := .refused .countBeforeMark } }) := by
  rw [exec_fill hk hv]
  refine ⟨fun h0 hlt => ?_, fun hne => ?_⟩
  · rw [readFill_completes d h0 hlt, Reader.complete, Reader.rowLen]
  · rw [readFill_afterCount d hne, Reader.refuse]

/-- Settles O19: the marker of the nibble 0x0. -/
theorem fill0Reads : Obligations.Fill0Reads := fun _ hv => exec_fill_answers rfl hv

/-- Settles O20: the marker of the nibble 0xF. -/
theorem fillFReads : Obligations.FillFReads := fun _ hv => exec_fill_answers rfl hv

/-- Settles O21: both markers test the room in the row after the pending count. -/
theorem fillOnFullRow : Obligations.FillOnFullRow := by
  intro s i hi hv h0 hfull
  have hk : ∃ d, i.kind = .fill d := by
    obtain rfl | rfl := hi
    · exact ⟨0x0, rfl⟩
    · exact ⟨0xF, rfl⟩
  obtain ⟨d, hk⟩ := hk
  rw [exec_fill hk hv, readFill_onFullRow d h0 hfull, Reader.refuse]

/-! ### ROWREP (R207) -/

/-- Settles O22: `:` completes the last row (`readRep_completes`), and it is refused in every other state. -/
theorem rowrepReads : Obligations.RowrepReads := by
  intro s hv
  rw [exec_rowrep hv]
  refine ⟨fun front row h0 hcur hrows => ?_, fun h => ?_⟩
  · have hlast : s.reader.rows.getLast? = some row := by simp [hrows]
    rw [readRep_completes h0 hcur hlast, Reader.complete, ← hcur]
  · obtain ⟨why, hr⟩ := readRep_refused h
    exact ⟨why, by rw [hr, Reader.refuse]⟩

/-! ### Steps of the reader (R200, R209) -/

theorem kind_ne_beat_of_token {i : Instr} (h : (encode i).port = .token) : i.kind ≠ .beat := by
  cases i
  case pix => cases h
  all_goals simp [Instr.kind]

/-- Settles O23: every character of the token port asks first whether the reader is reading. -/
theorem readerRests : Obligations.ReaderRests := by
  intro s i hport hv
  rw [exec_token (kind_ne_beat_of_token hport), readToken, if_neg hv]

theorem readStep_instr {s : State} {c : Byte} {cs : List Byte} {i : Instr} (hv : s.reader.verdict = .reading)
    (hs : s.reader.stream = c :: cs) (hd : decodeToken c = .ok i) :
    readStep s = exec i { s with reader := { s.reader with stream := cs } } := by
  simp [readStep, fetchToken, hv, hs, hd]

theorem readStep_ended {s : State} (hv : s.reader.verdict = .reading) (hs : s.reader.stream = []) :
    readStep s = .next { s with reader := readEnd s.reader } := by
  simp [readStep, fetchToken, hv, hs]

/-- Settles O24: the event is the reader's, and what it finds is the decoded character. -/
theorem stepRunsCharacter : Obligations.StepRunsCharacter := by
  intro s c cs i hn hv hs hd
  rw [step_eq, hn]
  exact readStep_instr (s := s.popped) hv hs hd

/-- Settles O26: the event is the hand-over. -/
theorem streamHandedOver : Obligations.StreamHandedOver := by
  intro s stream bw ph strict hn
  rw [step_eq, hn]
  rfl

/-- Settles O28: the event is the reader's, and what it finds is the end of the stream. -/
theorem streamEnds : Obligations.StreamEnds := by
  intro s hn hv hs
  have hstep : step s = .next { s.popped with reader := readEnd s.reader } := by
    rw [step_eq, hn]
    exact readStep_ended (s := s.popped) hv hs
  rw [hstep]
  refine ⟨fun ⟨hcur, h0, hrows⟩ => ?_, fun h => ?_⟩
  · rw [readEnd_accepted hcur h0 hrows]
  · obtain ⟨why, hr⟩ := readEnd_refused h
    exact ⟨why, by rw [hr, Reader.refuse]⟩

/-! ### The two agents -/

/-- Settles O50: a step of ZEB answers with another ZEB, a step of the reader or a hand-over with another reader, each at
the state in which the event is over. -/
theorem agentsAreSeparate : Obligations.AgentsAreSeparate := by
  intro s t h
  cases hn : s.nextEvent with
  | zeb p =>
    obtain ⟨_, rfl⟩ | ⟨_, _, _, _, rfl⟩ := step_zeb_next hn h
    all_goals exact ⟨rfl, rfl, fun _ => rfl, fun hne => absurd ⟨p, rfl⟩ hne⟩
  | give stream bw ph strict =>
    rw [step_eq, hn] at h
    cases h
    exact ⟨rfl, rfl, by simp, fun _ => rfl⟩
  | read =>
    rw [step_eq, hn] at h
    obtain ⟨r, hr, _⟩ := readStep_next s.popped
    cases hr.symm.trans h
    exact ⟨rfl, rfl, by simp, fun _ => rfl⟩

end Sys2Proof.Machine
end

