-- ==== Sys2Proof/Proofs/RoundTrip.lean ====
section
/-! PROOFS. The round trip (44_token_stream.md rule R212). A string of characters takes the reader from one state to
another (`Reader.Reads`), whatever follows it: the count token, the maximal run, the items of a row, its marker, the
compressed row and the rows of a Bitmap in turn. -/

namespace Sys2Proof.Machine

/-! ### What a string of characters does to the reader -/

/-- The reader with the characters `cs` still to read. -/
def Reader.withStream (r : Reader) (cs : List Byte) : Reader := { r with stream := cs }

/-- An operation of the reader does not look at the characters after its own: no branch depends on them. -/
theorem readKind_withStream (k : TokenKind) (r : Reader) (cs : List Byte) :
    readKind k (r.withStream cs) = (readKind k r).withStream cs := by
  have hite (b : Prop) [Decidable b] (x y : Reader) :
      (if b then x else y).withStream cs = if b then x.withStream cs else y.withStream cs :=
    apply_ite (Reader.withStream · cs) b x y
  cases k with
  | hex d => simp only [readKind, readHex, hite]; rfl
  | count c v => simp only [readKind, readCount, hite]; rfl
  | fill d => simp only [readKind, readFill, hite]; rfl
  | rep =>
    have hrows : (r.withStream cs).rows = r.rows := rfl
    cases hrow : r.rows.getLast? <;> simp only [readKind, readRep, hite, hrows, hrow] <;> rfl
  | beat => rfl

/-- In as many steps as it has characters the reader reads the string `cs` in the state `r` and comes to `r'`, whatever
follows on its stream and on the schedule. -/
def Reader.Reads (r r' : Reader) (cs : List Byte) : Prop :=
  ∀ (s : State) (rest : List Byte) (later : List Event),
    ({ s with reader := r.withStream (cs ++ rest), sched := List.replicate cs.length .read ++ later } : State).run
      cs.length = .next { s with reader := r'.withStream rest, sched := later }

theorem Reader.Reads.nil (r : Reader) : r.Reads r [] := fun _ _ _ => rfl

theorem Reader.Reads.append {r r' r'' : Reader} {cs ds : List Byte} (hcs : r.Reads r' cs) (hds : r'.Reads r'' ds) :
    r.Reads r'' (cs ++ ds) := by
  intro s rest later
  rw [List.length_append, List.replicate_add, List.append_assoc, List.append_assoc, run_add_of_next (hcs _ _ _)]
  exact hds s rest later

/-- One character is the operation of its class. -/
theorem Reader.Reads.char {r : Reader} {c : Byte} {k : TokenKind} (hc : codeKind c = some k)
    (hv : r.verdict = .reading) : r.Reads (readKind k r) [c] := by
  obtain ⟨i, hd, rfl⟩ := exists_of_codeKind hc
  intro s rest later
  have hexec : exec i { s with reader := r.withStream rest, sched := later } =
      .next { s with reader := (readKind i.kind r).withStream rest, sched := later } := by
    rw [exec_of_reading rfl (decodeToken_kind hd) hv, readKind_withStream]
  rw [List.length_singleton, run_one, step_eq]
  exact (readStep_instr (c := c) (cs := rest) hv rfl hd).trans hexec

/-! ### The reader in the middle of a stream -/

/-- The reader with `rows` completed, the row `cur` under construction and the count `n` pending. -/
def Reader.midway (r : Reader) (rows : List (List Nibble)) (cur : List Nibble) (n : Nat) (p : CountStage) : Reader :=
  { r with rows := rows, cur := cur, cnt := n, stage := p }

/-- The reader when the nibbles `ds` have followed the completed `rows`: L of them complete a row (R201). -/
def Reader.holding (r : Reader) (rows : List (List Nibble)) (ds : List Nibble) : Reader :=
  if ds.length = r.rowLen then r.midway (rows ++ [ds]) [] 0 .start else r.midway rows ds 0 .start

theorem holding_of_full {r : Reader} {ds : List Nibble} (rows : List (List Nibble)) (h : ds.length = r.rowLen) :
    r.holding rows ds = r.midway (rows ++ [ds]) [] 0 .start := if_pos h

theorem holding_of_lt {r : Reader} {ds : List Nibble} (rows : List (List Nibble)) (h : ds.length < r.rowLen) :
    r.holding rows ds = r.midway rows ds 0 .start := if_neg h.ne

section
variable {r : Reader} (hv : r.verdict = .reading) (rows : List (List Nibble))
include hv

/-! ### Counts (R149, R202 to R204) -/

theorem Reader.reads_countChar {b : Byte} {c : CountStage} {v : Nat} (hb : codeKind b = some (.count c v))
    (ds : List Nibble) (n : Nat) {p : CountStage} (ha : p.allows c = true) :
    (r.midway rows ds n p).Reads (r.midway rows ds (n + v) c) [b] := by
  have hread : readKind (.count c v) (r.midway rows ds n p) = r.midway rows ds (n + v) c :=
    readCount_allowed v fun _ => ha
  exact hread ▸ .char hb hv

/-- At most one CNT1 character. -/
theorem Reader.reads_countToken_le_19 (ds : List Nibble) (n : Nat) {m : Nat} (hm : m ≤ 19) {p : CountStage}
    (hp : p.allows .ones = true) :
    ∃ p', (r.midway rows ds n p).Reads (r.midway rows ds (n + m) p') (countToken m) := by
  obtain rfl | hpos := Nat.eq_zero_or_pos m
  · exact ⟨p, .nil _⟩
  · rw [countToken_small hpos hm]
    exact ⟨.ones, Reader.reads_countChar hv rows (codeKind_count1Char hpos hm) ds n hp⟩

/-- At most one CNT20 character, then the rest. -/
theorem Reader.reads_countToken_le_399 (ds : List Nibble) (n : Nat) {m : Nat} (hm : m ≤ 399) {p : CountStage}
    (hp : p = .start ∨ p = .fourHundreds) :
    ∃ p', (r.midway rows ds n p).Reads (r.midway rows ds (n + m) p') (countToken m) := by
  by_cases h19 : m ≤ 19
  · exact Reader.reads_countToken_le_19 hv rows ds n h19 (by obtain rfl | rfl := hp <;> rfl)
  · have htwenty := Reader.reads_countChar hv rows (codeKind_count20Char (q := m / 20) (by omega) (by omega)) ds n
      (p := p) (by obtain rfl | rfl := hp <;> rfl)
    obtain ⟨p', hrest⟩ := Reader.reads_countToken_le_19 hv rows ds (n + 20 * (m / 20)) (m := m % 20) (by omega)
      (p := .twenties) rfl
    have hsum : n + 20 * (m / 20) + m % 20 = n + m := by omega
    rw [countToken_ge_20 (by omega) hm]
    exact ⟨p', htwenty.append (hsum ▸ hrest)⟩

/-- The count token leaves the count it spells pending, in DEC-S too: its characters come in the canonical order. -/
theorem Reader.reads_countToken (ds : List Nibble) (m n : Nat) {p : CountStage}
    (hp : p = .start ∨ p = .fourHundreds) :
    ∃ p', (r.midway rows ds n p).Reads (r.midway rows ds (n + m) p') (countToken m) := by
  induction m using Nat.strong_induction_on generalizing n p with
  | _ m ih =>
    by_cases h399 : m ≤ 399
    · exact Reader.reads_countToken_le_399 hv rows ds n h399 hp
    · have hz := Reader.reads_countChar hv rows codeKind_ch400 ds n (p := p) (by obtain rfl | rfl := hp <;> rfl)
      obtain ⟨p', hrest⟩ := ih (m - 400) (by omega) (n + 400) (.inr rfl)
      have hsum : n + 400 + (m - 400) = n + m := by omega
      rw [countToken_ge_400 (by omega)]
      exact ⟨p', hz.append (hsum ▸ hrest)⟩

/-! ### Runs and items (R148, R201) -/

/-- A HEX character after no count or a count from 3 on: its copies follow the nibbles of the row, DEC-S refusing
nothing. -/
theorem Reader.reads_hexChar (ds : List Nibble) (d : Nibble) {n k : Nat} (p : CountStage)
    (hn : n = 0 ∧ k = 1 ∨ 3 ≤ n ∧ k = n) (hroom : ds.length + k ≤ r.rowLen) :
    (r.midway rows ds n p).Reads (r.holding rows (ds ++ List.replicate k d)) [hexChar d] := by
  have hk : (r.midway rows ds n p).copies = k := by
    show (if 1 ≤ n then n else 1) = k
    split <;> omega
  have hcount : ¬ ((r.midway rows ds n p).strict = true ∧ (n = 1 ∨ n = 2)) := by omega
  have hlen : (ds ++ List.replicate k d).length = ds.length + k := by simp
  have hread : readKind (.hex d) (r.midway rows ds n p) = r.holding rows (ds ++ List.replicate k d) := by
    obtain hlt | heq := hroom.lt_or_eq
    · rw [readKind, readHex_partial d hcount (hk.symm ▸ hlt), hk, holding_of_lt rows (hlen.trans_lt hlt)]
      rfl
    · rw [readKind, readHex_full d hcount (hk.symm ▸ heq), hk, holding_of_full rows (hlen.trans heq)]
      rfl
  exact hread ▸ .char (codeKind_hexChar d) hv

/-- A single HEX character is one nibble of the row. -/
theorem Reader.reads_singleHex (ds : List Nibble) (d : Nibble) (hroom : ds.length < r.rowLen) :
    (r.holding rows ds).Reads (r.holding rows (ds ++ [d])) [hexChar d] :=
  holding_of_lt rows hroom ▸ Reader.reads_hexChar hv rows ds d .start (.inl ⟨rfl, rfl⟩) hroom

/-- A maximal run, counted or copied, is its nibbles. -/
theorem Reader.reads_runToken (ds : List Nibble) (d : Nibble) {n : Nat} (hn : 1 ≤ n)
    (hroom : ds.length + n ≤ r.rowLen) :
    (r.holding rows ds).Reads (r.holding rows (ds ++ List.replicate n d)) (runToken (hexChar d, n)) := by
  by_cases h3 : 3 ≤ n
  · obtain ⟨p, hcount⟩ := Reader.reads_countToken hv rows ds n 0 (.inl rfl)
    rw [Nat.zero_add] at hcount
    rw [runToken_of_three_le _ h3, holding_of_lt rows (by omega)]
    exact hcount.append (Reader.reads_hexChar hv rows ds d p (.inr ⟨h3, rfl⟩) hroom)
  · have hone := Reader.reads_singleHex hv rows ds d (by omega)
    rw [runToken_of_lt_three _ (Nat.lt_of_not_le h3)]
    obtain rfl | rfl : n = 1 ∨ n = 2 := by omega
    · exact hone
    · have htwo := Reader.reads_singleHex hv rows (ds ++ [d]) d (by simp; omega)
      rw [List.append_assoc] at htwo
      exact hone.append htwo

/-- The items of a row, run by run, are its nibbles. -/
theorem Reader.reads_rle (ds s : List Nibble) (hroom : ds.length + s.length ≤ r.rowLen) :
    (r.holding rows ds).Reads (r.holding rows (ds ++ s)) (rle (s.map hexChar)) := by
  induction s using run_induction generalizing ds with
  | nil => exact (List.append_nil ds).symm ▸ .nil _
  | run d n t ht ih =>
    rw [List.length_append, List.length_replicate] at hroom
    have hrun := Reader.reads_runToken hv rows ds d (Nat.le_add_left 1 n) (by omega)
    have hrest := ih (ds ++ List.replicate (n + 1) d) (by simp; omega)
    have hhead : (t.map hexChar).head? ≠ some (hexChar d) := by
      rw [List.head?_map]
      simpa [hexChar_inj] using ht
    rw [List.append_assoc] at hrest
    rw [List.map_append, List.map_replicate, rle_replicate_append hhead (Nat.le_add_left 1 n)]
    exact hrun.append hrest

/-! ### One row (R147, R205 to R208) -/

/-- A row whose trailing run of `d` is replaced by its marker. -/
theorem Reader.reads_marked {s : List Nibble} {d : Nibble} {c : Byte} (hc : codeKind c = some (.fill d))
    (hne : ∀ v, hexChar v ≠ c) {m : Nat} (hlen : (s ++ List.replicate (m + 1) d).length = r.rowLen) :
    (r.midway rows [] 0 .start).Reads (r.midway (rows ++ [s ++ List.replicate (m + 1) d]) [] 0 .start)
      (rle (s.map hexChar ++ [c])) := by
  rw [List.length_append, List.length_replicate] at hlen
  have hitems := Reader.reads_rle hv rows [] s (by simp; omega)
  rw [holding_of_lt rows (ds := []) (by simp; omega), List.nil_append, holding_of_lt rows (by omega)] at hitems
  have hrest : r.rowLen - s.length = m + 1 := by omega
  have hfill : readKind (.fill d) (r.midway rows s 0 .start) =
      r.midway (rows ++ [s ++ List.replicate (m + 1) d]) [] 0 .start := by
    have hlt : s.length < r.rowLen := by omega
    rw [readKind, readFill_completes (r := r.midway rows s 0 .start) d rfl hlt, ← hrest]
    rfl
  have hlast : (s.map hexChar).getLast? ≠ some c := fun h => by
    obtain ⟨v, _, hvc⟩ := List.mem_map.mp (List.mem_of_getLast? h)
    exact hne v hvc
  rw [rle_concat hlast]
  exact hitems.append (hfill ▸ .char hc hv)

/-- What steps 2 and 3 write for a row (R147, R148) completes that row. -/
theorem Reader.reads_rle_trail {s : List Nibble} (hpos : 0 < r.rowLen) (hlen : s.length = r.rowLen) :
    (r.midway rows [] 0 .start).Reads (r.midway (rows ++ [s]) [] 0 .start) (rle (trail (s.map hexChar))) := by
  by_cases h0 : s.getLast? = some 0x0
  · obtain ⟨m, t, rfl, ht⟩ := exists_trailing_run h0
    rw [List.map_append, List.map_replicate, trail_zero (getLast?_map_hexChar_ne ht) (Nat.le_add_left 1 m)]
    exact Reader.reads_marked hv rows codeKind_chZ hexChar_ne_chZ hlen
  by_cases hF : s.getLast? = some 0xF
  · obtain ⟨m, t, rfl, ht⟩ := exists_trailing_run hF
    rw [List.map_append, List.map_replicate, trail_eff (getLast?_map_hexChar_ne ht) (Nat.le_add_left 1 m)]
    exact Reader.reads_marked hv rows codeKind_chF hexChar_ne_chF hlen
  rw [trail_other (getLast?_map_hexChar_ne h0) (getLast?_map_hexChar_ne hF)]
  have hitems := Reader.reads_rle hv rows [] s (by simp [hlen])
  rwa [holding_of_lt rows (ds := []) hpos, List.nil_append, holding_of_full rows hlen] at hitems

/-- The compressed form of a row completes that row, the compressor's state being the row before (R146, R207). -/
theorem Reader.reads_compress {bits : List Bool} (hpos : 0 < r.rowLen) (hlen : (packNib bits).length = r.rowLen) :
    (r.midway rows [] 0 .start).Reads (r.midway (rows ++ [packNib bits]) [] 0 .start)
      (compress (pack bits) (rows.getLast?.map (List.map hexChar))) := by
  unfold compress
  split
  case isFalse => exact Reader.reads_rle_trail hv rows hpos hlen
  case isTrue hsame =>
    obtain ⟨row, hrow, heq⟩ := Option.map_eq_some_iff.mp hsame
    obtain rfl : row = packNib bits := List.map_injective_iff.mpr (fun _ _ => hexChar_inj.mp) heq
    have hrep : readKind .rep (r.midway rows [] 0 .start) = r.midway (rows ++ [packNib bits]) [] 0 .start :=
      readRep_completes rfl rfl hrow
    exact hrep ▸ .char codeKind_chRep hv

/-! ### The rows of a frame -/

/-- The stream of a Bitmap completes the packed rows of its bit-strings, one after the other. -/
theorem Reader.reads_encodeBitmap (hpos : 0 < r.rowLen) (bitmap : List (List Bool))
    (hlen : ∀ bits ∈ bitmap, (packNib bits).length = r.rowLen) :
    (r.midway rows [] 0 .start).Reads (r.midway (rows ++ bitmap.map packNib) [] 0 .start)
      (encodeBitmap (rows.getLast?.map (List.map hexChar)) bitmap) := by
  induction bitmap generalizing rows with
  | nil => exact (List.append_nil rows).symm ▸ .nil _
  | cons bits bitmap ih =>
    obtain ⟨hbits, hbitmap⟩ := List.forall_mem_cons.mp hlen
    have hrow := Reader.reads_compress hv rows hpos hbits
    have hrest := ih (rows ++ [packNib bits]) hbitmap
    rw [List.getLast?_concat, List.append_assoc] at hrest
    exact hrow.append hrest

end

/-- The stream of a frame, given with its dimensions, gives back the packed rows (R212). -/
theorem giveStream_reads_encodeRows (stream : List Byte) {w : Nat} (hw : 1 ≤ w) (h : Nat) (strict : Bool)
    (g : Nat → Nat → Byte) :
    (giveStream stream (ceil8 w) h strict).Reads
      ((giveStream stream (ceil8 w) h strict).midway ((sample w h g).map packNib) [] 0 .start) (encodeRows w g h) := by
  have hpos : 0 < 2 * ceil8 w := by unfold ceil8; omega
  have hlen : ∀ bits ∈ sample w h g, (packNib bits).length = 2 * ceil8 w := by
    intro bits hbits
    obtain ⟨y, _, rfl⟩ := List.mem_map.mp hbits
    rw [packNib_length, rowBits_length, ceil8]
  rw [← encodeBitmap_sample]
  exact Reader.reads_encodeBitmap (r := giveStream stream (ceil8 w) h strict) rfl [] hpos (sample w h g) hlen

/-- A stream that the reader reads up to a state in which R209 lets it end: the hand-over, a step for each character and
the step of the end. -/
theorem run_of_reads {s : State} {stream : List Byte} {bw ph : Nat} {strict : Bool} {later : List Event}
    {rows : List (List Nibble)}
    (hs : s.sched = .give stream bw ph strict :: (List.replicate (stream.length + 1) .read ++ later))
    (hreads : (giveStream stream bw ph strict).Reads ((giveStream stream bw ph strict).midway rows [] 0 .start) stream)
    (hrows : rows.length = ph) :
    ∃ t, s.run (stream.length + 2) = .next t ∧ t.reader.verdict = .accepted ∧ t.reader.rows = rows ∧ t.zeb = s.zeb ∧
      t.sched = later := by
  have hn : s.nextEvent = .give stream bw ph strict := by rw [State.nextEvent, hs]; rfl
  have hgive : step s = .next { s with
      reader := (giveStream stream bw ph strict).withStream (stream ++ [])
      sched := List.replicate stream.length .read ++ (.read :: later) } := by
    rw [streamHandedOver s _ _ _ _ hn, List.append_nil, State.popped, hs, List.tail_cons, List.replicate_succ',
      List.append_assoc]
    rfl
  have hread := hreads s [] (.read :: later)
  have hend := (streamEnds { s with
    reader := ((giveStream stream bw ph strict).midway rows [] 0 .start).withStream []
    sched := .read :: later } rfl rfl rfl).1 ⟨rfl, rfl, hrows⟩
  have hrest := (run_add_of_next hread 1).trans ((run_one _).trans hend)
  exact ⟨_, run_succ_next.mpr ⟨_, hgive, hrest⟩, rfl, rfl, rfl, rfl⟩

theorem rowBits_getD {w y x : Nat} (g : Nat → Nat → Byte) :
    (rowBits w g y).getD x false = decide (x < w ∧ (g x y).toNat < 127) := by
  by_cases hx : x < w
  · simp [rowBits, hx, thr, thresh]
  · simp [rowBits, hx]

/-- Unpacked, a packed row is its thresholded pixels and then zeros (R133). -/
theorem getMsbD_packNib_rowBits {w y j : Nat} (g : Nat → Nat → Byte) (hj : j < 8 * ceil8 w) :
    ((packNib (rowBits w g y)).getD (j / 4) 0).getMsbD (j % 4) = decide (j < w ∧ (g j y).toNat < 127) := by
  have hk : j / 4 < 2 * (((rowBits w g y).length + 7) / 8) := by
    rw [rowBits_length]
    unfold ceil8 at hj
    omega
  obtain ⟨_, _, hbit⟩ := packedRowBits (rowBits w g y)
  rw [hbit _ _ hk (Nat.mod_lt j (by omega)), Nat.div_add_mod, rowBits_getD]

/-- Settles O59: in DONE the history is the stream of the grid (the trace), so the reader reads it up to the packed
rows (`giveStream_reads_encodeRows`) and the end of the stream finds PIXHEIGHT of them. -/
theorem readerRecoversFrame : Obligations.ReaderRecoversFrame := by
  intro s strict rest hi htraced hp hs
  have hframe := hi.zeb.frame (by simp [hp])
  have htrace := htraced (by simp [hp])
  have hchars : s.zeb.chars = encodeRows s.zeb.width s.zeb.grid s.zeb.height := by
    rw [htrace.rowsOut (.inr hp), hframe.yDone.mpr hp]
  have hreads := giveStream_reads_encodeRows s.zeb.chars hframe.width.1 s.zeb.height strict s.zeb.grid
  rw [← hchars] at hreads
  obtain ⟨t, hrun, hverdict, hrows, hzeb, hsched⟩ := run_of_reads hs hreads (by simp [Zeb.pixHeight])
  have hrows : t.reader.rows =
      (List.range s.zeb.height).map (fun y => packNib (rowBits s.zeb.width s.zeb.grid y)) := by
    rw [hrows, sample, List.map_map]
    rfl
  refine ⟨t, hrun, hverdict, hrows, fun y j hy hj => ?_, hzeb, hsched⟩
  have hrow : t.reader.rows.getD y [] = packNib (rowBits s.zeb.width s.zeb.grid y) := by simp [hrows, hy]
  rw [hrow]
  exact getMsbD_packNib_rowBits s.zeb.grid hj

end Sys2Proof.Machine
end

