-- ==== Sys2Proof/Proofs/Exceptions.lean ====
section
/-! PROOFS. Exceptions and waits (60_exceptions.md): a wait changes nothing, and under the invariant nothing faults and ZEB
is without an enabled micro-operation only in a wait (rules R223, R229); BAD_DIM is raised by START alone and writes ERR
alone (rule R222). -/

namespace Sys2Proof.Machine

/-! ### Waits (R229) -/

/-- A step in which the dispatch table selects nothing only passes. -/
theorem step_of_select_none {s : State} {p : PortIn} (hn : s.nextEvent = .zeb p) (h : select p s.zeb = .ok none) :
    step s = .next s.popped := by
  have hpop : select p s.popped.zeb = .ok none := h
  simp only [step_eq, hn, zebStep, hpop]

/-- Where a character is offered and the sink is not ready, no other micro-operation is selected in place of the one that
emits it (R67). -/
theorem select_of_offer_refused {p : PortIn} {z : Zeb} {op : MicroOp} {e : Byte × Bool} (hr : p.rst = false)
    (ht : p.tokReady = false) (hs : Selected ⟨false, none, none, true⟩ z op) (he : emission op z = some e) :
    select p z = .ok none := by
  cases op
  case rowrep =>
    obtain ⟨_, hp, hx, hb, hrep, _⟩ := hs
    simp [select, hr, hp, selectLoad, hx, hb, hrep, ht, whenReady]
  case lit =>
    obtain ⟨_, hp, h1, h2, hc, _⟩ := hs
    have hn : z.rn ≠ 0 := by omega
    simp [select, hr, hp, selectScan, hn, hc, h2, ht, whenReady]
  case eol =>
    obtain ⟨_, hp, hn, hsi, _⟩ := hs
    have htm : z.tm ≠ .none := fun htm => by simp [emission, htm, TrailMark.char] at he
    simp [select, hr, hp, selectScan, hn, hsi, htm, ht, whenReady]
  case cntz | cnt20 | cnt1 | repc =>
    obtain ⟨_, hp, _⟩ := hs
    simp [select, hr, hp, selectCnt, ht, whenReady]
  all_goals cases he

/-- In a wait the dispatch table selects nothing (R182, R229 items (a), (b), (c)). -/
theorem select_of_waits {p : PortIn} {z : Zeb} (hr : p.rst = false) (h : z.waits p) : select p z = .ok none := by
  obtain ⟨hp | hp, hc⟩ | ⟨hp, hb, hx, hi⟩ | ⟨hoffer, ht⟩ := h
  · simp [select, hr, hp, hc, whenReady]
  · simp [select, hr, hp, hc, whenReady]
  · simp [select, hr, hp, selectLoad, hb, hb.ne, hx, hi, whenReady]
  · obtain ⟨e, he⟩ := Option.isSome_iff_exists.mp hoffer
    obtain ⟨op, hs, hem⟩ := tokOffer_eq_some.mp he
    exact select_of_offer_refused hr ht hs hem

/-- Settles O44: in a wait nothing is selected (`select_of_waits`), and the step only passes. -/
theorem waitsChangeNothing : Obligations.WaitsChangeNothing := fun _ _ hn hr hw =>
  step_of_select_none hn (select_of_waits hr hw)

/-! ### Every selected micro-operation answers (R223) -/

/-- PACK has room: a full byte in SR is still to be written into the row (R137). -/
theorem ni_lt_rowLen_of_pack {z : Zeb} (h : z.LoadOk) (hb : z.bc = 8) : z.ni < z.rowLen := by
  have hin := h.inRow
  rw [bitsIn_eq, rowLen_eq] at hin
  rw [rowLen_eq]
  omega

/-- Under the invariant no micro-operation that is selected faults: the entries that PACK, ACC and COMMIT use are in the
row and hold a value (R223; R47 items (c), (f)). -/
theorem fire_answers {q : Params} {p : PortIn} {z : Zeb} {op : MicroOp} (h : z.Inv q) (hs : Selected p z op) :
    ∃ t, fire q p z op = .ok t := by
  cases op
  case start =>
    obtain ⟨_, _, c, hc⟩ := hs
    exact ⟨fireStart q c z, by simp only [fire, hc]⟩
  case samp =>
    obtain ⟨_, _, _, _, i, hi⟩ := hs
    exact ⟨fireSamp i z, by simp only [fire, hi]⟩
  case pack =>
    obtain ⟨_, hp, hb⟩ := hs
    have hni := ni_lt_rowLen_of_pack (h.load hp) hb
    have hprev (heq : z.eq = true) : (z.prev.read z.ni).isSome = true :=
      (h.frame (by simp [hp])).prev (h.eqPv heq) z.ni hni
    exact ⟨_, firePack_eq_ok.mpr ⟨hni, _, eqNext_of_read _ hni hprev, rfl⟩⟩
  case acc =>
    obtain ⟨_, hp, hlt, _⟩ := hs
    have hrow : z.si < z.rowLen := hlt.trans_le (h.scan (.inl hp)).te
    obtain ⟨v, hv⟩ := Option.isSome_iff_exists.mp ((h.packed (.inl hp)).held z.si hrow)
    exact ⟨_, fireAcc_eq_ok.mpr ⟨hrow, v, hv, rfl⟩⟩
  case commit =>
    obtain ⟨_, hp⟩ := hs
    obtain ⟨d, hd⟩ := copyRow_isOk (dst := z.prev) (h.packed (.inr (.inr hp))).held
    exact ⟨_, fireCommit_eq_ok.mpr ⟨d, hd, rfl⟩⟩
  all_goals exact ⟨_, rfl⟩

/-! ### A micro-operation is enabled, or ZEB waits (R182, R229) -/

section
variable {q : Params} {p : PortIn} {z : Zeb}

/-- A micro-operation that emits a character fires when the sink is ready, and ZEB waits when it is not (R67). -/
theorem waits_or_selected_of_offer {op : MicroOp} {e : Byte × Bool} (hr : p.rst = false)
    (hs : Selected ⟨false, none, none, true⟩ z op) (he : emission op z = some e) :
    z.waits p ∨ ∃ op, Selected p z op := by
  cases ht : p.tokReady with
  | false =>
    have hoffer : z.tokOffer.isSome = true := Option.isSome_iff_exists.mpr ⟨e, tokOffer_eq_some.mpr ⟨op, hs, he⟩⟩
    exact .inl (.inr (.inr ⟨hoffer, ht⟩))
  | true =>
    refine .inr ⟨op, ?_⟩
    cases op
    case rowrep | lit | eol | cntz | cnt20 | cnt1 | repc => simpa [Selected, hr, ht] using hs
    all_goals cases he

/-- In IDLE and DONE ZEB waits for a command or fires START (R65). -/
theorem waits_or_selected_of_rest (hr : p.rst = false) (hp : z.phase = .idle ∨ z.phase = .done) :
    z.waits p ∨ ∃ op, Selected p z op := by
  cases hc : p.cmd with
  | none => exact .inl (.inl ⟨hp, hc⟩)
  | some c => exact .inr ⟨.start, hr, hp, c, hc⟩

/-- In LOAD the values of BC and X decide between PACK, SAMP, PAD and the end of the row. -/
theorem waits_or_selected_of_load (h : z.FrameOk q) (hr : p.rst = false) (hp : z.phase = .load) :
    z.waits p ∨ ∃ op, Selected p z op := by
  obtain hb | hb := h.bc.eq_or_lt
  · exact .inr ⟨.pack, hr, hp, hb⟩
  obtain hx | hx := h.x.eq_or_lt
  · by_cases h0 : z.bc = 0
    · cases hrep : z.repeats with
      | true => exact waits_or_selected_of_offer (op := .rowrep) hr ⟨rfl, hp, hx, h0, hrep, rfl⟩ rfl
      | false => exact .inr ⟨.trail, hr, hp, hx, h0, hrep⟩
    · exact .inr ⟨.pad, hr, hp, hx, by omega, by omega⟩
  · cases hi : p.pix with
    | none => exact .inl (.inr (.inl ⟨hp, hb, hx, hi⟩))
    | some i => exact .inr ⟨.samp, hr, hp, hb, hx, i, hi⟩

/-- Under the invariant the test "closed" answers (R168), and a run that is not closed goes on (R156). -/
theorem closed_or_extends (hscan : z.ScanOk) (hpacked : z.PackedOk) :
    z.closed = .ok true ∨ (z.si < z.te ∧ z.si < z.rowLen ∧ z.cur.read z.si = some z.rc) := by
  obtain hend | hlt := hscan.si.eq_or_lt
  · exact .inl (closed_of_end_or_differs (.inl hend))
  have hrow : z.si < z.rowLen := hlt.trans_le hscan.te
  obtain ⟨v, hv⟩ := Option.isSome_iff_exists.mp (hpacked.held z.si hrow)
  by_cases hrc : v = z.rc
  · exact .inr ⟨hlt, hrow, hrc ▸ hv⟩
  · exact .inl (closed_of_end_or_differs (.inr ⟨hlt, hscan.te, v, hv, hrc⟩))

/-- In SCAN a run is begun, continued or, once closed, written; after the last one EOL fires. -/
theorem waits_or_selected_of_scan (h : z.Inv q) (hr : p.rst = false) (hp : z.phase = .scan) :
    z.waits p ∨ ∃ op, Selected p z op := by
  have hscan := h.scan (.inl hp)
  obtain hn | hn := Nat.eq_zero_or_pos z.rn
  · obtain hend | hlt := hscan.si.eq_or_lt
    · cases htm : z.tm with
      | none => exact .inr ⟨.eol, hr, hp, hn, hend, .inl htm⟩
      | zero | eff =>
        exact waits_or_selected_of_offer (op := .eol) hr ⟨rfl, hp, hn, hend, .inr rfl⟩
          (by rw [emission, htm]; rfl)
    · exact .inr ⟨.acc, hr, hp, hlt, .inl hn⟩
  · obtain hc | ⟨hlt, hext⟩ := closed_or_extends hscan (h.packed (.inl hp))
    · obtain h2 | h3 := (Nat.lt_or_ge 2 z.rn).symm
      · exact waits_or_selected_of_offer (op := .lit) hr ⟨rfl, hp, hn, h2, hc, rfl⟩ rfl
      · exact .inr ⟨.rle, hr, hp, h3, hc⟩
    · exact .inr ⟨.acc, hr, hp, hlt, .inr hext⟩

/-- In CNT every value of RN has its count character, or REPC. -/
theorem waits_or_selected_of_cnt (hr : p.rst = false) (hp : z.phase = .cnt) :
    z.waits p ∨ ∃ op, Selected p z op := by
  by_cases h400 : 400 ≤ z.rn
  · exact waits_or_selected_of_offer (op := .cntz) hr ⟨rfl, hp, h400, rfl⟩ rfl
  by_cases h20 : 20 ≤ z.rn
  · exact waits_or_selected_of_offer (op := .cnt20) hr ⟨rfl, hp, h20, by omega, rfl⟩ rfl
  obtain h0 | h1 := Nat.eq_zero_or_pos z.rn
  · exact waits_or_selected_of_offer (op := .repc) hr ⟨rfl, hp, h0, rfl⟩ rfl
  · exact waits_or_selected_of_offer (op := .cnt1) hr ⟨rfl, hp, h1, by omega, rfl⟩ rfl

/-- Under the invariant ZEB waits for a port or has an enabled micro-operation, in every PHASE. -/
theorem waits_or_selected (h : z.Inv q) (hr : p.rst = false) : z.waits p ∨ ∃ op, Selected p z op := by
  cases hp : z.phase with
  | idle => exact waits_or_selected_of_rest hr (.inl hp)
  | done => exact waits_or_selected_of_rest hr (.inr hp)
  | load => exact waits_or_selected_of_load (h.frame (by simp [hp])) hr hp
  | scan => exact waits_or_selected_of_scan h hr hp
  | cnt => exact waits_or_selected_of_cnt hr hp
  | eor => exact .inr ⟨.commit, hr, hp⟩

end

/-- Under the invariant a step of ZEB answers: RESET fires, or ZEB waits, or what is selected answers. -/
theorem step_zeb_answers {s : State} {p : PortIn} (h : s.Inv) (hn : s.nextEvent = .zeb p) :
    ∃ t, step s = .next t := by
  have hfires {op : MicroOp} (hs : Selected p s.zeb op) : ∃ t, step s = .next t := by
    obtain ⟨z, hz⟩ := fire_answers h.zeb hs
    exact ⟨_, step_of_selected hn hs hz⟩
  cases hr : p.rst with
  | true => exact hfires (op := .reset) hr
  | false =>
    obtain hw | ⟨op, hs⟩ := waits_or_selected h.zeb hr
    · exact ⟨_, waitsChangeNothing s p hn hr hw⟩
    · exact hfires hs

/-- Settles O45: a step of ZEB answers (`step_zeb_answers`), and those of the reader always do; outside the waits the row
of some micro-operation holds (`waits_or_selected`), and with it its guard. -/
theorem neverFaultsNeverStuck : Obligations.NeverFaultsNeverStuck := by
  refine fun s h => ⟨?_, fun p hr hw => ?_⟩
  · cases hn : s.nextEvent with
    | zeb p => exact step_zeb_answers h hn
    | give stream bw ph strict => exact ⟨_, streamHandedOver s stream bw ph strict hn⟩
    | read =>
      obtain ⟨r, hread, _⟩ := readStep_next s.popped
      exact ⟨_, by rw [step_eq, hn]; exact hread⟩
  · obtain ⟨op, hs⟩ := (waits_or_selected h.zeb hr).resolve_left hw
    exact ⟨op, (guardOf_eq_true hr).mpr hs⟩

/-! ### BAD_DIM (R222) -/

/-- Outside a frame no character is offered (R67). -/
theorem tokOffer_of_rest {z : Zeb} (hp : z.phase = .idle ∨ z.phase = .done) : z.tokOffer = none := by
  obtain hp | hp := hp <;> simp [Zeb.tokOffer, select, hp, whenReady]

/-- Outside a frame no pixel is asked for (R66). -/
theorem pixReady_of_rest {z : Zeb} (hp : z.phase = .idle ∨ z.phase = .done) : z.pixReady = false := by
  obtain hp | hp := hp <;> simp [Zeb.pixReady, hp]

/-- A step that raises ERR is one of ZEB without a reset, and START is selected (R27). -/
theorem start_of_err_raised {s t : State} (h : step s = .next t) (h0 : s.zeb.err = false) (h1 : t.zeb.err = true) :
    ∃ p, s.nextEvent = .zeb p ∧ Selected p s.zeb .start := by
  have hne : t.zeb.err ≠ s.zeb.err := by simp [h0, h1]
  obtain ⟨_, _, _, hother⟩ := agentsAreSeparate s t h
  obtain ⟨p, hn⟩ : ∃ p, s.nextEvent = .zeb p := by_contra fun hno => hne (congrArg Zeb.err (hother hno))
  refine ⟨p, hn, ?_⟩
  cases hr : p.rst with
  | false =>
    obtain ⟨hstart, _⟩ := onlyItsWritersWrite s t p hn hr h (fun op => select p s.zeb = .ok (some op)) fun _ => .rfl
    exact select_some (hstart (.inr (.inr hne)))
  | true =>
    have hreset := step_of_selected (op := .reset) hn hr rfl
    cases h.symm.trans hreset
    cases h1

/-- Settles O31: START is selected and refused, so ERR is set and ZEB stays outside a frame; conversely only START
raises ERR (`start_of_err_raised`), and an accepted one clears it. -/
theorem badDimRecorded : Obligations.BadDimRecorded := by
  refine ⟨?_, fun s t h h0 h1 => ?_⟩
  · rintro s p c _ _ hn hr hc rfl rfl hp hbad
    refine ⟨_, step_start hn hr hc hp, ?_⟩
    rw [fireStart_of_badDim (badDim_eq_true.mpr hbad)]
    exact ⟨rfl, rfl, rfl, rfl, rfl, pixReady_of_rest hp, tokOffer_of_rest hp⟩
  · obtain ⟨p, hn, hr, hp, c, hc⟩ := start_of_err_raised h h0 h1
    refine ⟨p, c, _, _, hn, hr, hc, rfl, rfl, hp, ?_⟩
    cases h.symm.trans (step_start hn hr hc hp)
    obtain ⟨hbad, _⟩ | ⟨_, haccept⟩ := fireStart_cases s.params c s.zeb
    · exact badDim_eq_true.mp hbad
    · simp [haccept] at h1

end Sys2Proof.Machine
end

