-- ==== Sys2Proof/Proofs/Reset.lean ====
section
/-! PROOFS. Reset and start-up (70_reset_and_hazards.md): RESET from any state (rule R250), the machine right after reset
(rule R251), and the hazard of rule R256: no frame begins with `:`. -/

namespace Sys2Proof.Machine

/-! ### RESET (R250, R251) -/

/-- Settles O29: RESET is selected whatever else the ports offer, and in IDLE nothing is offered. -/
theorem resetFires : Obligations.ResetFires := by
  intro s p hn hr
  have hidle : (fireReset s.params s.zeb).phase = .idle := rfl
  exact ⟨fireReset s.params s.zeb, step_of_selected (op := .reset) hn hr rfl, hidle, rfl, rfl, rfl, rfl, rfl,
    pixReady_of_rest (.inl hidle), tokOffer_of_rest (.inl hidle), rfl, rfl⟩

/-- The invariant of a state of IDLE: it asks only for the row buffers, PV, EQ and OUT (R47). -/
theorem Zeb.Inv.of_idle {q : Params} {z : Zeb} (hp : z.phase = .idle) (buf : z.BufOk q) (pv : z.pv = false)
    (eq : z.eq = false) (alphabet : ∀ e ∈ z.out, inAlphabet e.1 = true) : z.Inv q where
  buf := buf
  eqPv := by simp [eq]
  alphabet := alphabet
  idle := fun _ => pv
  frame := fun hne => absurd hp hne
  load := by simp [hp]
  packed := by simp [hp]
  scan := by simp [hp]
  run := by simp [hp]
  count := by simp [hp]
  finished := by simp [hp]

theorem zeb_reset_inv (q : Params) : Zeb.reset.Inv q :=
  .of_idle rfl ⟨.nil, .nil, nofun, nofun⟩ rfl rfl nofun

theorem reader_reset_inv : Reader.reset.Inv where
  rows := nofun
  cur := .inl rfl
  count := iff_of_true rfl rfl
  accepted := nofun

/-- Settles O51: both agents keep their invariants (`zeb_reset_inv`, `reader_reset_inv`), and in IDLE the trace claims
nothing. -/
theorem resetKeepsInvariant : Obligations.ResetKeepsInvariant := fun q _ hq =>
  ⟨⟨hq, zeb_reset_inv q, reader_reset_inv⟩, fun hp => absurd rfl hp⟩

/-! ### The first character of a frame (R256) -/

/-- Only ROWREP has the code of `:` on the token port; on the pixel port any code is an intensity (R93, R103). -/
theorem kind_of_code_chRep {i : Instr} (h : (encode i).code = chRep) : i.kind = .rep ∨ i.kind = .beat := by
  have hd := decode_encode i
  generalize encode i = word at h hd
  obtain ⟨port, c⟩ := word
  obtain rfl : c = chRep := h
  cases port with
  | token => exact .inl (Option.some.inj ((codeKind_of_ok (c := chRep) hd).symm.trans codeKind_chRep))
  | pixel => cases hd; exact .inr rfl

/-- The first row of a stream does not begin with `:` (R106 item (e)): it is not `:` alone, and `:` is no part of a longer
row. -/
theorem codes_head?_ne_chRep {L : Nat} {cs ds : List Instr} (hL : L ≠ 0) (h : rowOk L true cs = true) :
    (codes (cs ++ ds)).head? ≠ some chRep := by
  have hne : cs ≠ [.rowrep] := by rintro rfl; exact Bool.false_ne_true h
  rw [rowOk, if_neg hne] at h
  cases cs with
  | nil => simp [rowTailOk, RowScan.endOk, RowScan.init, hL.symm] at h
  | cons i cs =>
    intro hhead
    obtain hk | hk := kind_of_code_chRep (Option.some.inj hhead) <;> simp [rowTailOk, hk] at h

theorem encodeRows_head?_ne_chRep {w : Nat} (hw : 1 ≤ w) (g : Nat → Nat → Byte) (h : Nat) :
    (encodeRows w g h).head? ≠ some chRep := by
  obtain ⟨rows, _, hok, hcodes⟩ := streamsFollowGrammar w h g hw
  rw [hcodes]
  cases rows with
  | nil => simp
  | cons cs rows =>
    obtain ⟨hrow, _⟩ := Bool.and_eq_true_iff.mp hok
    exact codes_head?_ne_chRep (by omega) hrow

/-- What a frame has emitted so far begins the stream of its rows (R190). -/
theorem Zeb.Trace.exists_chars_append {z : Zeb} (h : z.Trace) (hp : z.phase ≠ .idle) :
    ∃ n more, z.chars ++ more = encodeRows z.width z.grid n := by
  cases hphase : z.phase with
  | idle => exact absurd hphase hp
  | load => exact ⟨z.y, [], (List.append_nil _).trans (h.rowsOut (.inl hphase))⟩
  | done => exact ⟨z.y, [], (List.append_nil _).trans (h.rowsOut (.inr hphase))⟩
  | scan => exact ⟨z.y + 1, _, h.rowOut (.inl hphase)⟩
  | cnt => exact ⟨z.y + 1, _, h.rowOut (.inr (.inl hphase))⟩
  | eor => exact ⟨z.y + 1, _, h.rowOut (.inr (.inr hphase))⟩

/-- Settles O57: OUT begins the stream of the rows (`Zeb.Trace.exists_chars_append`), which does not begin with `:`
(`encodeRows_head?_ne_chRep`). -/
theorem firstRowNeverRepeats : Obligations.FirstRowNeverRepeats := by
  intro s hi htraced hp hhead
  obtain ⟨n, more, hmore⟩ := (htraced hp).exists_chars_append hp
  obtain ⟨cs, hcs⟩ := List.head?_eq_some_iff.mp hhead
  refine encodeRows_head?_ne_chRep (hi.zeb.frame hp).width.1 s.zeb.grid n ?_
  rw [← hmore, hcs]
  rfl

end Sys2Proof.Machine
end

