-- ==== Sys2Proof/Proofs/Liveness.lean ====
section
/-! PROOFS. Every frame ends (70_reset_and_hazards.md rules R266, R267): each micro-operation of a frame lowers the number
of steps that are left, so without waits the frame is over within the bound of R266, and under the fairness of R267 it is
over after any finite waits. -/

namespace Sys2Proof.Machine

/-! ### The steps that are left (R266) -/

theorem busy_iff {z : Zeb} : z.busy = true ↔ z.phase ≠ .idle ∧ z.phase ≠ .done := by
  cases hp : z.phase <;> simp [Zeb.busy, hp]

theorem rowWork_of_load {z : Zeb} (hp : z.phase = .load) :
    z.rowWork = (4 * z.rowLen - z.bitsIn) + (z.rowLen - z.ni) + 3 * z.rowLen + 3 := by
  rw [Zeb.rowWork, hp]

theorem rowWork_of_scan {z : Zeb} (hp : z.phase = .scan) : z.rowWork = 3 * (z.te - z.si) + 2 * z.rn + 2 := by
  rw [Zeb.rowWork, hp]

theorem rowWork_of_cnt {z : Zeb} (hp : z.phase = .cnt) : z.rowWork = 3 * (z.te - z.si) + z.rn + 3 := by
  rw [Zeb.rowWork, hp]

theorem rowWork_of_eor {z : Zeb} (hp : z.phase = .eor) : z.rowWork = 1 := by
  rw [Zeb.rowWork, hp]

theorem work_of_busy {z : Zeb} (hb : z.busy = true) :
    z.work = z.rowWork + (z.height - z.y - 1) * z.rowBound := if_pos hb

theorem work_of_done {z : Zeb} (hp : z.phase = .done) : z.work = 0 := by
  simp [Zeb.work, Zeb.busy, hp]

theorem work_pos_of_busy {z : Zeb} (hb : z.busy = true) : 0 < z.work := by
  have hrow : 0 < z.rowWork := by
    obtain ⟨hidle, hdone⟩ := busy_iff.mp hb
    cases hp : z.phase with
    | idle => exact absurd hp hidle
    | done => exact absurd hp hdone
    | load => rw [rowWork_of_load hp]; omega
    | scan => rw [rowWork_of_scan hp]; omega
    | cnt => rw [rowWork_of_cnt hp]; omega
    | eor => rw [rowWork_of_eor hp]; omega
  exact hrow.trans_le ((work_of_busy hb).symm ▸ Nat.le_add_right _ _)

theorem done_of_work_eq_zero {z : Zeb} (hp : z.phase ≠ .idle) (h : z.work = 0) : z.phase = .done :=
  by_contra fun hdone => (work_pos_of_busy (busy_iff.mpr ⟨hp, hdone⟩)).ne' h

theorem work_le (z : Zeb) : z.work ≤ z.rowWork + (z.height - z.y - 1) * z.rowBound := by
  unfold Zeb.work
  split <;> omega

/-- At the start of a row the whole bound of every row from this one on is left. -/
theorem work_of_row_start {z : Zeb} (hp : z.phase = .load) (hn : z.ni = 0) (hb : z.bc = 0) (hy : z.y < z.height) :
    z.work = (z.height - z.y) * z.rowBound := by
  have hrow : z.rowWork = z.rowBound := by
    rw [rowWork_of_load hp, bitsIn_eq, hn, hb, Zeb.rowBound, Zeb.rowLen]
    omega
  obtain ⟨k, hk⟩ : ∃ k, z.height - z.y = k + 1 := ⟨z.height - z.y - 1, by omega⟩
  rw [work_of_busy (by simp [Zeb.busy, hp]), hrow, hk, Nat.add_sub_cancel, Nat.succ_mul, Nat.add_comm]

/-- `t` is a later state of the frame that `z` is in, DONE included, with fewer steps left. -/
structure Zeb.Advances (z t : Zeb) : Prop where
  phase : t.phase ≠ .idle
  width : t.width = z.width
  height : t.height = z.height
  work : t.work < z.work

/-- Within a row the frame advances with the row. -/
theorem Zeb.Advances.of_rowWork {z t : Zeb} (hb : z.busy = true) (phase : t.phase ≠ .idle) (width : t.width = z.width)
    (height : t.height = z.height) (hy : t.y = z.y) (hrow : t.rowWork < z.rowWork) : z.Advances t where
  phase := phase
  width := width
  height := height
  work := by
    have hbound : t.rowBound = z.rowBound := by
      rw [Zeb.rowBound, Zeb.rowBound, Zeb.rowLen, Zeb.rowLen, Zeb.byteWidth, Zeb.byteWidth, width]
    calc t.work ≤ t.rowWork + (t.height - t.y - 1) * t.rowBound := work_le t
      _ = t.rowWork + (z.height - z.y - 1) * z.rowBound := by rw [height, hy, hbound]
      _ < z.rowWork + (z.height - z.y - 1) * z.rowBound := Nat.add_lt_add_right hrow _
      _ = z.work := (work_of_busy hb).symm

/-! ### Every micro-operation of a frame lowers it -/

section
variable {q : Params} {z t : Zeb}

/-- In LOAD: one bit or one nibble more of the row (R266: SAMP, PAD and PACK). -/
theorem advances_of_load (hp : z.phase = .load) (ht : t.Inv q) (htp : t.phase = .load) (width : t.width = z.width)
    (height : t.height = z.height) (hy : t.y = z.y)
    (hmore : (t.bitsIn = z.bitsIn + 1 ∧ t.ni = z.ni) ∨ (t.bitsIn = z.bitsIn ∧ t.ni = z.ni + 1)) : z.Advances t := by
  refine .of_rowWork (by simp [Zeb.busy, hp]) (by simp [htp]) width height hy ?_
  have hlen : t.rowLen = z.rowLen := by rw [rowLen_eq, rowLen_eq, width]
  have hbits := (ht.load htp).inRow
  have hni := (ht.frame (by simp [htp])).ni
  rw [rowWork_of_load hp, rowWork_of_load htp]
  omega

/-- PACK leaves the bits of the row as they are: with the low nibble the byte is passed and SR is cleared (R135, R137). -/
theorem firePack_bitsIn (hb : z.bc = 8) (hf : firePack z = .ok t) : t.bitsIn = z.bitsIn ∧ t.ni = z.ni + 1 := by
  obtain ⟨_, _, _, rfl⟩ := firePack_eq_ok.mp hf
  refine ⟨?_, rfl⟩
  show 8 * ((z.ni + 1) / 2) + (if z.ni % 2 = 1 then 0 else z.bc) = 8 * (z.ni / 2) + z.bc
  split <;> omega

section
variable {ph : Phase} {out : List (Byte × Bool)} {te : Nat} {tm : TrailMark} {si : Nat} {rc : Nibble} {rn : Nat}

theorem advances_to_scan (hb : z.busy = true) (hph : ph = .scan) (hlt : 3 * (te - si) + 2 * rn + 2 < z.rowWork) :
    z.Advances (z.scanned ph out te tm si rc rn) :=
  .of_rowWork hb (by simp [hph]) rfl rfl rfl ((rowWork_of_scan hph).trans_lt hlt)

theorem advances_to_cnt (hb : z.busy = true) (hph : ph = .cnt) (hlt : 3 * (te - si) + rn + 3 < z.rowWork) :
    z.Advances (z.scanned ph out te tm si rc rn) :=
  .of_rowWork hb (by simp [hph]) rfl rfl rfl ((rowWork_of_cnt hph).trans_lt hlt)

theorem advances_to_eor (hb : z.busy = true) (hph : ph = .eor) (hlt : 1 < z.rowWork) :
    z.Advances (z.scanned ph out te tm si rc rn) :=
  .of_rowWork hb (by simp [hph]) rfl rfl rfl ((rowWork_of_eor hph).trans_lt hlt)

end

/-- COMMIT: the last row is over, and the next one, if there is one, has its bound left (R184). -/
theorem fireCommit_advances (h : z.Inv q) (hp : z.phase = .eor) (hf : fireCommit z = .ok t) : z.Advances t := by
  have hbusy : z.busy = true := by simp [Zeb.busy, hp]
  have hbc := (h.packed (.inr (.inr hp))).bc
  have hfr := h.frame (by simp [hp])
  have hy : z.y < z.height := hfr.y.lt_of_ne (mt hfr.yDone.mp (by simp [hp]))
  obtain ⟨d, _, rfl⟩ := fireCommit_eq_ok.mp hf
  refine ⟨?_, rfl, rfl, ?_⟩
  · show (if z.y + 1 = z.height then Phase.done else .load) ≠ .idle
    split <;> simp
  rw [work_of_busy hbusy, rowWork_of_eor hp]
  by_cases hlast : z.y + 1 = z.height
  · rw [work_of_done (if_pos hlast)]
    omega
  · have hnext : z.y + 1 < z.height := by omega
    rw [work_of_row_start (if_neg hlast) (by rfl) (by exact hbc) (by exact hnext), Nat.sub_sub]
    exact Nat.lt_add_of_pos_left Nat.one_pos

/-- Every micro-operation that fires in a frame without a reset lowers the number of steps that are left. -/
theorem fire_advances {p : PortIn} {op : MicroOp} (h : z.Inv q) (hb : z.busy = true) (hr : p.rst = false)
    (hs : Selected p z op) (hf : fire q p z op = .ok t) : z.Advances t := by
  have ht := fire_inv h hs hf
  cases op
  case reset => exact absurd (hr.symm.trans hs) Bool.false_ne_true
  case start =>
    obtain ⟨_, hp, _⟩ := hs
    obtain ⟨hidle, hdone⟩ := busy_iff.mp hb
    exact absurd hp (not_or_intro hidle hdone)
  case samp =>
    obtain ⟨_, hp, _, _, i, hi⟩ := hs
    simp only [fire, hi, Except.ok.injEq] at hf
    subst hf
    exact advances_of_load hp ht hp rfl rfl rfl (.inl ⟨rfl, rfl⟩)
  case pad =>
    obtain ⟨_, hp, _⟩ := hs
    cases hf
    exact advances_of_load hp ht hp rfl rfl rfl (.inl ⟨rfl, rfl⟩)
  case pack =>
    obtain ⟨_, hp, hbc⟩ := hs
    have hmore := firePack_bitsIn hbc hf
    obtain ⟨_, _, _, rfl⟩ := firePack_eq_ok.mp hf
    exact advances_of_load hp ht hp rfl rfl rfl (.inr hmore)
  case rowrep =>
    obtain ⟨_, hp, _⟩ := hs
    cases hf
    exact advances_to_eor hb rfl (by rw [rowWork_of_load hp]; omega)
  case trail =>
    obtain ⟨_, hp, _⟩ := hs
    cases hf
    have hte : trailEnd z ≤ z.rowLen := (ht.scan (.inl rfl)).te
    exact advances_to_scan hb rfl (by rw [rowWork_of_load hp]; omega)
  case acc =>
    obtain ⟨_, hp, hlt, _⟩ := hs
    obtain ⟨_, _, _, rfl⟩ := fireAcc_eq_ok.mp hf
    exact advances_to_scan hb hp (by rw [rowWork_of_scan hp]; omega)
  case lit =>
    obtain ⟨_, hp, h1, _⟩ := hs
    cases hf
    exact advances_to_scan hb hp (by rw [rowWork_of_scan hp, emit_te, emit_si]; omega)
  case rle =>
    obtain ⟨_, hp, h3, _⟩ := hs
    cases hf
    exact advances_to_cnt hb rfl (by rw [rowWork_of_scan hp]; omega)
  case cntz =>
    obtain ⟨_, hp, h400, _⟩ := hs
    cases hf
    exact advances_to_cnt hb hp (by rw [rowWork_of_cnt hp, unit400, emit_te, emit_si]; omega)
  case cnt20 =>
    obtain ⟨_, hp, h20, _⟩ := hs
    cases hf
    exact advances_to_cnt hb hp (by rw [rowWork_of_cnt hp, unit20, emit_te, emit_si]; omega)
  case cnt1 =>
    obtain ⟨_, hp, h1, _⟩ := hs
    cases hf
    exact advances_to_cnt hb hp (by rw [rowWork_of_cnt hp, emit_te, emit_si]; omega)
  case repc =>
    obtain ⟨_, hp, hn, _⟩ := hs
    cases hf
    exact advances_to_scan hb rfl (by rw [rowWork_of_cnt hp, emit_te, emit_si, emit_rn]; omega)
  case eol =>
    obtain ⟨_, hp, _⟩ := hs
    cases hf
    exact advances_to_eor hb rfl (by rw [rowWork_of_scan hp]; omega)
  case commit =>
    obtain ⟨_, hp⟩ := hs
    exact fireCommit_advances h hp hf

end

/-! ### Waits of a frame (R229) -/

/-- ZEB never asks for a pixel and offers a character in the same state (R64). -/
theorem not_pixReady_of_offer {z : Zeb} (h : z.tokOffer.isSome = true) : ¬ z.pixReady = true := by
  obtain ⟨e, he⟩ := Option.isSome_iff_exists.mp h
  obtain ⟨op, hs, hem⟩ := tokOffer_eq_some.mp he
  rw [pixReady_eq_true]
  rintro ⟨hp, _, hx⟩
  obtain ⟨_, hend, _⟩ | hp' | hp' := phase_of_emission hs hem
  · exact hx.ne hend
  all_goals cases hp.symm.trans hp'

/-- In a frame ZEB waits for a pixel that it asks for, or for the sink to take the character that it offers. -/
theorem waits_of_busy {z : Zeb} {p : PortIn} (hb : z.busy = true) :
    z.waits p ↔ (z.pixReady = true ∧ p.pix = none) ∨ (z.tokOffer.isSome = true ∧ p.tokReady = false) := by
  obtain ⟨hidle, hdone⟩ := busy_iff.mp hb
  simp only [Zeb.waits, pixReady_eq_true, hidle, hdone, or_self, false_and, false_or, and_assoc]

theorem not_waits_of_willing {z : Zeb} {p : PortIn} (hb : z.busy = true) (h : p.willing) : ¬ z.waits p := by
  obtain ⟨_, hpix, htok⟩ := h
  rw [waits_of_busy hb]
  rintro (⟨_, hno⟩ | ⟨_, hno⟩)
  · simp [hno] at hpix
  · simp [hno] at htok

/-- A step of ZEB in a frame without a reset: a wait, or a micro-operation that brings the frame nearer to its end. -/
theorem step_waits_or_advances {s : State} {p : PortIn} (hi : s.Inv) (hb : s.zeb.busy = true)
    (hn : s.nextEvent = .zeb p) (hr : p.rst = false) :
    (s.zeb.waits p ∧ step s = .next s.popped) ∨
      (¬ s.zeb.waits p ∧ ∃ t, step s = .next t ∧ s.zeb.Advances t.zeb) := by
  by_cases hw : s.zeb.waits p
  · exact .inl ⟨hw, waitsChangeNothing s p hn hr hw⟩
  · obtain ⟨op, hs⟩ := (waits_or_selected hi.zeb hr).resolve_left hw
    obtain ⟨z, hf⟩ := fire_answers hi.zeb hs
    exact .inr ⟨hw, _, step_of_selected hn hs hf, fire_advances hi.zeb hb hr hs hf⟩

/-! ### Frames without waits (R266) -/

/-- With willing ports every step brings the frame nearer to DONE, so it is over when no step is left. -/
theorem frame_ends_of_willing {s : State} {ports : List PortIn} {rest : List Event} (hi : s.Inv)
    (hp : s.zeb.phase ≠ .idle) (hports : ∀ p ∈ ports, p.willing) (hlen : s.zeb.work ≤ ports.length)
    (hs : s.sched = ports.map Event.zeb ++ rest) :
    ∃ n t, n ≤ s.zeb.work ∧ s.run n = .next t ∧ t.zeb.phase = .done := by
  induction ports generalizing s with
  | nil => exact ⟨0, s, Nat.zero_le _, rfl, done_of_work_eq_zero hp (Nat.le_zero.mp hlen)⟩
  | cons p ports ih =>
    by_cases hdone : s.zeb.phase = .done
    · exact ⟨0, s, Nat.zero_le _, rfl, hdone⟩
    have hb : s.zeb.busy = true := busy_iff.mpr ⟨hp, hdone⟩
    obtain ⟨hwilling, hports⟩ := List.forall_mem_cons.mp hports
    have hn : s.nextEvent = .zeb p := by rw [State.nextEvent, hs]; rfl
    obtain ⟨hw, _⟩ | ⟨_, t, ht, hadv⟩ := step_waits_or_advances hi hb hn hwilling.1
    · exact absurd hw (not_waits_of_willing hb hwilling)
    obtain ⟨_, hsched, _, _⟩ := agentsAreSeparate s t ht
    have hless := hadv.work
    rw [List.length_cons] at hlen
    obtain ⟨n, u, hle, hrun, hu⟩ := ih (stepKeepsInvariant s t hi ht) hadv.phase hports (by omega)
      (by rw [hsched, hs]; rfl)
    exact ⟨n + 1, u, by omega, run_succ_next.mpr ⟨t, ht, hrun⟩, hu⟩

theorem acceptStart_work (w : Nat) {h : Nat} (hh : 1 ≤ h) (z : Zeb) :
    (acceptStart w h z).work = h * (8 * ((w + 7) / 8) + 4 * (2 * ((w + 7) / 8)) + 3) :=
  work_of_row_start (z := acceptStart w h z) rfl rfl rfl hh

/-- Settles O58: without waits every step lowers the bound (`frame_ends_of_willing`), which START sets to that of all its
rows (`acceptStart_work`). -/
theorem everyFrameEnds : Obligations.EveryFrameEnds := by
  refine ⟨fun s ports rest hi hb hports hlen hs => ?_, fun s w h _ hh => (acceptStart_work w hh s.zeb).le⟩
  exact frame_ends_of_willing hi (busy_iff.mp hb).1 hports hlen hs

/-! ### Frames under fairness (R267) -/

section
variable {s t : State} {ev : Nat → Event} {n : Nat}

/-- One more event of a fair schedule, in a frame: the frame advances, or ZEB stays as it is because it waits or because
it is not its turn. -/
theorem driven_advances_or_stays (hfair : s.Fair ev) (ht : (s.driven ev n).run n = .next t) (hi : t.Inv)
    (hb : t.zeb.busy = true) :
    ∃ u, (s.driven ev (n + 1)).run (n + 1) = .next u ∧ u.Inv ∧
      (t.zeb.Advances u.zeb ∨ (u.zeb = t.zeb ∧ ∀ p, ev n = .zeb p → t.zeb.waits p)) := by
  obtain ⟨_, hrun⟩ := driven_run_succ ht
  have hi' : ({ t with sched := ev n :: s.sched } : State).Inv := ⟨hi.params, hi.zeb, hi.reader⟩
  obtain ⟨⟨u, hu⟩, _⟩ := neverFaultsNeverStuck _ hi'
  refine ⟨u, hrun.trans hu, stepKeepsInvariant _ u hi' hu, ?_⟩
  by_cases hturn : ∃ p, ev n = .zeb p
  · obtain ⟨p, hp⟩ := hturn
    obtain ⟨hw, hstay⟩ | ⟨_, v, hv, hadv⟩ := step_waits_or_advances hi' hb hp (hfair.noReset n p hp)
    · cases hu.symm.trans hstay
      exact .inr ⟨rfl, fun p' hp' => Event.zeb.inj (hp.symm.trans hp') ▸ hw⟩
    · cases hu.symm.trans hv
      exact .inl hadv
  · obtain ⟨_, _, _, hother⟩ := agentsAreSeparate _ u hu
    exact .inr ⟨hother hturn, fun p hp => absurd ⟨p, hp⟩ hturn⟩

/-- An event to come that would end the wait of the frame does so, or the frame advances before it. -/
theorem driven_advances_by (hfair : s.Fair ev) {p : PortIn} (d : Nat) (hp : ev (n + d) = .zeb p)
    (ht : (s.driven ev n).run n = .next t) (hi : t.Inv) (hb : t.zeb.busy = true) (hw : ¬ t.zeb.waits p) :
    ∃ m u, n ≤ m ∧ (s.driven ev m).run m = .next u ∧ u.Inv ∧ t.zeb.Advances u.zeb := by
  induction d generalizing n t with
  | zero =>
    obtain ⟨u, hu, hiu, hadv | ⟨_, hstay⟩⟩ := driven_advances_or_stays hfair ht hi hb
    · exact ⟨n + 1, u, Nat.le_succ n, hu, hiu, hadv⟩
    · exact absurd (hstay p hp) hw
  | succ d ih =>
    obtain ⟨u, hu, hiu, hadv | ⟨hz, _⟩⟩ := driven_advances_or_stays hfair ht hi hb
    · exact ⟨n + 1, u, Nat.le_succ n, hu, hiu, hadv⟩
    · rw [← hz] at hb hw ⊢
      rw [← Nat.succ_add_eq_add_succ] at hp
      obtain ⟨m, v, hm, hv⟩ := ih hp hu hiu hb hw
      exact ⟨m, v, Nat.le_of_succ_le hm, hv⟩

/-- Fairness brings an event that ends the wait that ZEB is in, if it is in one (R267 items (a) to (c)). -/
theorem exists_event_not_waits (hfair : s.Fair ev) (ht : (s.driven ev n).run n = .next t) (hb : t.zeb.busy = true) :
    ∃ m, n ≤ m ∧ ∃ p, ev m = .zeb p ∧ ¬ t.zeb.waits p := by
  simp only [waits_of_busy hb]
  by_cases hoffer : t.zeb.tokOffer.isSome = true
  · obtain ⟨m, hm, p, hp, hready⟩ := hfair.sink n t ht hoffer
    exact ⟨m, hm, p, hp, by simp [not_pixReady_of_offer hoffer, hready]⟩
  by_cases hpix : t.zeb.pixReady = true
  · obtain ⟨m, hm, p, hp, hi⟩ := hfair.pixel n t ht hpix
    exact ⟨m, hm, p, hp, by simp [hoffer, Option.isSome_iff_ne_none.mp hi]⟩
  · obtain ⟨m, hm, p, hp⟩ := hfair.turns n
    exact ⟨m, hm, p, hp, by simp [hoffer, hpix]⟩

/-- From wherever a fair schedule has led inside a frame it leads on to DONE, by induction on the steps that are left. -/
theorem driven_ends (hfair : s.Fair ev) (ht : (s.driven ev n).run n = .next t) (hi : t.Inv)
    (hp : t.zeb.phase ≠ .idle) :
    ∃ m u, n ≤ m ∧ (s.driven ev m).run m = .next u ∧ u.zeb.phase = .done ∧ u.zeb.width = t.zeb.width ∧
      u.zeb.height = t.zeb.height := by
  induction hwork : t.zeb.work using Nat.strong_induction_on generalizing n t with
  | _ work ih =>
    by_cases hdone : t.zeb.phase = .done
    · exact ⟨n, t, le_rfl, ht, hdone, rfl, rfl⟩
    have hb : t.zeb.busy = true := busy_iff.mpr ⟨hp, hdone⟩
    obtain ⟨m, hm, p, hev, hw⟩ := exists_event_not_waits hfair ht hb
    obtain ⟨d, rfl⟩ := Nat.exists_eq_add_of_le hm
    obtain ⟨k, u, hk, hu, hiu, hadv⟩ := driven_advances_by hfair d hev ht hi hb hw
    obtain ⟨l, v, hl, hv, hvdone, hwidth, hheight⟩ := ih u.zeb.work (hwork ▸ hadv.work) hu hiu hadv.phase rfl
    exact ⟨l, v, hk.trans hl, hv, hvdone, hwidth.trans hadv.width, hheight.trans hadv.height⟩

end

/-- Settles O60: a step of ZEB waits or advances (`step_waits_or_advances`), so a fair schedule leads a frame to DONE
(`driven_ends`), and the frame of an accepted START from the state after it. -/
theorem everyFairFrameEnds : Obligations.EveryFairFrameEnds := by
  refine ⟨fun s p hi hb hn hr => ?_, fun s ev hi hb hfair => ?_, ?_⟩
  · obtain ⟨hw, ht⟩ | ⟨hw, t, ht, hadv⟩ := step_waits_or_advances hi hb hn hr
    · exact ⟨_, ht, fun _ => rfl, fun h => absurd hw h⟩
    · exact ⟨t, ht, fun h => absurd h hw, fun _ => hadv.work⟩
  · obtain ⟨m, u, _, hu⟩ := driven_ends (n := 0) hfair rfl hi (busy_iff.mp hb).1
    exact ⟨m, u, hu⟩
  · rintro s ev p c _ hi hp hev hc rfl hw1 hw hh1 hh hfair
    have hok : ¬ badDim s.params (c.onPort s.params) = true := by
      rw [badDim_eq_true]
      omega
    have hi' : ({ s with sched := ev 0 :: s.sched } : State).Inv := ⟨hi.params, hi.zeb, hi.reader⟩
    have hstart := step_start (s := { s with sched := ev 0 :: s.sched }) hev (hfair.noReset 0 p hev) hc hp
    rw [fireStart_of_not_badDim hok] at hstart
    obtain ⟨_, hrun⟩ := driven_run_succ (s := s) (ev := ev) (n := 0) rfl
    exact driven_ends hfair (hrun.trans hstart) (stepKeepsInvariant _ _ hi' hstart) (by simp)

end Sys2Proof.Machine
end
